-- ==== Sys2Proof/Word.lean ====
section
/-! DEFINITION. The word types of the block (spec/00_scope.md rules R9, R11, R12): bytes, 32-bit registers, symbols, codes. -/

namespace Sys2Proof

/-- A u8: one byte of a buffer, of a table or of a payload. -/
abbrev Byte := BitVec 8

/-- A u32: one CSR, one command word, one length field of the container. -/
abbrev Word := BitVec 32

/-- "one byte value, domain 0–255" (rule R16). -/
abbrev Symbol := Byte

/-- A bit sequence in encounter order, element 0 the bit taken at the root (rule R11); `false` is bit 0, `true` is bit 1.
A code of the spec has 1 to 255 elements (`Code.wellFormed` in WellFormed.lean). -/
abbrev Code := List Bool

end Sys2Proof
end

