-- ==== Sys2Proof/Config.lean ====
section
/-! DEFINITION. What an implementation fixes (the two parameters of spec/00_scope.md rule R6) and the values the spec leaves
free (spec/93_implementation_defined.md items 14 and 16). -/

namespace Sys2Proof

/-- The two open parameters of rule R6. A block's parameters are what its registers IBUF_SIZE and OBUF_SIZE read, so `State`
holds them; a statement about every state is one about every pair of sizes. The upper bound 2^32 − 1 is the type's. -/
structure Params where
  /-- IBUF_SIZE, bytes of the input buffer (rule R25). -/
  ibufSize : Word
  /-- OBUF_SIZE, bytes of the output buffer (rule R26). -/
  obufSize : Word
deriving DecidableEq, Repr

/-- DESIGN CHOICE (log entry 1): the sizes `State.reset` has. Rule R6 names 65536 as an example; no rule depends on it. -/
def Params.example65536 : Params := { ibufSize := 65536#32, obufSize := 65536#32 }

namespace Config

/-- A free value (log entry 5): what the `n`-th host read of an unspecified register or OBUF byte made while BUSY returns
(rule R257, "a model gives them any value, as a draw"). It has no body, so nothing can be proved of its value. -/
opaque freeWord : Nat → Word

/-- A free value (log entry 6): what OBUF byte `a` holds after the reset number `n` that abandoned a command that writes OBUF
(rule R253, "every OBUF byte is unspecified afterwards"). It has no body. -/
opaque freeObufByte : Nat → Nat → Byte

end Config

end Sys2Proof
end

