-- ==== Sys2Proof/Syntax.lean ====
section
/-! DEFINITION. The commands of the block: one constructor per row of spec/opcode_table.json (spec/30_encoding.md rule R88).
No command has a register or an immediate operand (rule R86), so no constructor has an argument. -/

namespace Sys2Proof

/-- The fourteen legal commands, in the order of rule R88's table. -/
inductive Instr where
  /-- NOP, rule R204. -/
  | nop
  /-- COMPRESS, rule R138. -/
  | compress
  /-- DECOMPRESS, rule R166. -/
  | decompress
  /-- FREQ, rule R123. -/
  | freq
  /-- BUILD_TREE, rule R127. -/
  | buildTree
  /-- DERIVE_CODES, rule R132. -/
  | deriveCodes
  /-- ENCODE_TABLE, rule R135. -/
  | encodeTable
  /-- PACK, rule R136. -/
  | pack
  /-- WRITE_CONTAINER, rule R137. -/
  | writeContainer
  /-- READ_CONTAINER, rule R161. -/
  | readContainer
  /-- DECODE_TABLE, rule R162. -/
  | decodeTable
  /-- REBUILD_TREE, rule R164. -/
  | rebuildTree
  /-- UNPACK, rule R165. -/
  | unpack
  /-- CLEAR, rule R205. -/
  | clear
deriving DecidableEq, Repr

/-- The commands that write OBUF (spec/20_memory.md rule R62, spec/42_control.md rule R202): they set OUT_LEN to 0 at
acceptance, and a reset that abandons one leaves OBUF unspecified. -/
def Instr.writesObuf : Instr → Bool
  | .nop => false
  | .compress => true
  | .decompress => true
  | .freq => false
  | .buildTree => false
  | .deriveCodes => false
  | .encodeTable => false
  | .pack => false
  | .writeContainer => true
  | .readContainer => false
  | .decodeTable => false
  | .rebuildTree => false
  | .unpack => true
  | .clear => false

end Sys2Proof
end

