-- ==== Sys2Proof/WellFormed.lean ====
section
/-! DEFINITION. Well-formedness checks. A command carries no operand, so what can be ill formed is a command word (reserved
bits, an unassigned opcode: spec/30_encoding.md rules R85 and R87), a pair of parameters (rule R6) or a code (rule R11). -/

namespace Sys2Proof

/-- Every term of `Instr` is a legal command: no field, so no check (rule R86). -/
def Instr.wellFormed (_ : Instr) : Bool := true

/-- The OP values of rule R88, in the table's order. -/
def assignedOpcodes : List Byte :=
  [0x00#8, 0x01#8, 0x02#8, 0x10#8, 0x11#8, 0x12#8, 0x13#8, 0x14#8, 0x15#8, 0x20#8, 0x21#8, 0x22#8, 0x23#8, 0x30#8]

/-- RSV, bits 31:8 of a command word, is 0 (rule R85). -/
def reservedZero (w : Word) : Bool := w.extractLsb' 8 24 == 0#24

/-- OP, bits 7:0 of a command word, is a row of rule R88. -/
def opcodeAssigned (w : Word) : Bool := assignedOpcodes.contains (w.extractLsb' 0 8)

/-- A command word is one of the fourteen legal ones (rule R87). -/
def commandWordWellFormed (w : Word) : Bool := reservedZero w && opcodeAssigned w

/-- The parameters are in the legal range of rule R6. -/
def Params.wellFormed (p : Params) : Bool := decide (1 ≤ p.ibufSize.toNat) && decide (1 ≤ p.obufSize.toNat)

/-- A code has 1 to 255 bits (rule R11, MAX_CODE_LEN of rule R7). -/
def Code.wellFormed (c : Code) : Bool := decide (1 ≤ c.length) && decide (c.length ≤ 255)

end Sys2Proof
end

