-- ==== Sys2Proof/Decode.lean ====
section
/-! DEFINITION. The decoder of a command word, total on every 32-bit value (spec/30_encoding.md rule R89), and the encoder
written from the same opcode map (rule R88). -/

namespace Sys2Proof

/-- Why a command word is illegal; the constructors are the two details of IllegalCommand (spec/60_exceptions.md rule R224). -/
inductive Illegal where
  /-- Detail 1: bits 31:8 are not all 0, whatever OP is. -/
  | reservedBits
  /-- Detail 2: bits 31:8 are 0 and OP is not in the opcode map. -/
  | unassignedOpcode
deriving DecidableEq, Repr

/-- The opcode map read from OP to the command (rules R88 and R89). -/
def commandOf : Nat → Option Instr
  | 0x00 => some .nop
  | 0x01 => some .compress
  | 0x02 => some .decompress
  | 0x10 => some .freq
  | 0x11 => some .buildTree
  | 0x12 => some .deriveCodes
  | 0x13 => some .encodeTable
  | 0x14 => some .pack
  | 0x15 => some .writeContainer
  | 0x20 => some .readContainer
  | 0x21 => some .decodeTable
  | 0x22 => some .rebuildTree
  | 0x23 => some .unpack
  | 0x30 => some .clear
  | _ => none

/-- `decode` of rule R89: reserved bits are checked before the opcode. -/
def decode (w : Word) : Except Illegal Instr :=
  if w.extractLsb' 8 24 ≠ 0#24 then .error .reservedBits
  else
    match commandOf (w.extractLsb' 0 8).toNat with
    | some i => .ok i
    | none => .error .unassignedOpcode

/-- OP of each command (rule R88). -/
def opcodeOf : Instr → Byte
  | .nop => 0x00#8
  | .compress => 0x01#8
  | .decompress => 0x02#8
  | .freq => 0x10#8
  | .buildTree => 0x11#8
  | .deriveCodes => 0x12#8
  | .encodeTable => 0x13#8
  | .pack => 0x14#8
  | .writeContainer => 0x15#8
  | .readContainer => 0x20#8
  | .decodeTable => 0x21#8
  | .rebuildTree => 0x22#8
  | .unpack => 0x23#8
  | .clear => 0x30#8

/-- The command word of a command: RSV = 0 above OP (rule R85). -/
def encode (i : Instr) : Word := 0#24 ++ opcodeOf i

/-- The command word whose `nbits` low bits are `w` and whose other bits are 0. A command is one 32-bit word and has no bytes
of its own: it is the value on the bus of the CMD write (spec/20_memory.md rule R82). -/
def tableWord (nbits w : Nat) : Word := BitVec.ofNat 32 (w % 2 ^ nbits)

/-- The command the decoder reads from a row of spec/opcode_table.json. -/
def decodeTableWord (nbits w : Nat) : Option Instr :=
  match decode (tableWord nbits w) with
  | .ok i => some i
  | .error _ => none

end Sys2Proof
end

