-- ==== Sys2Proof/Machine/State.lean ====
section
/-! DEFINITION. The state of the block as plain data (spec/10_state.md), the events of its outside world, and the reasons a
step can stop. -/

namespace Sys2Proof.Machine

/-- One buffer's bytes: address and byte pairs at strictly rising addresses. An address not listed was never written since
power-on (spec/20_memory.md rule R75) and reads as no value. -/
abbrev Memory := List Host.Cell

/-- `st.SEQ` (rule R22). -/
inductive SeqState where
  | idle
  | busy
deriving DecidableEq, Repr

/-- The three apertures (rule R60). -/
inductive Aperture where
  | csr
  | ibuf
  | obuf
deriving DecidableEq, Repr

/-- The width of a host access (rules R69 and R70). -/
inductive Width where
  | w8
  | w16
  | w32
deriving DecidableEq, Repr

/-- The bits of VALID (rule R39). -/
inductive ValidBit where
  | ft
  | etree
  | ct
  | etab
  | pbuf
  | hdr
  | dtab
  | dtree
deriving DecidableEq, Repr

/-- The error kinds of spec/60_exceptions.md rule R220. -/
inductive ErrorKind where
  | emptyInput
  | invalidMagic
  | invalidTableSize
  | invalidCodeLength
  | truncatedInput
  | corruptBitstream
  | illegalCommand
  | sequenceError
  | outputOverflow
  | tableConflict
  | noCode
  | lengthRange
deriving DecidableEq, Repr

/-- The arguments of `raise` (rules R14 and R223): kind, detail, offset and bit. The offset is a natural number and is
narrowed to 32 bits when it is recorded. -/
structure Report where
  kind : ErrorKind
  detail : Byte := 0#8
  offset : Nat := 0
  bit : BitVec 3 := 0#3
deriving DecidableEq, Repr

/-- ETree (spec/00_scope.md rule R13). `single w l` is `ENode(w, l, None)`, the root of the single-symbol tree (rule R131);
`node w l r` is `ENode(w, l, Some r)`. -/
inductive ETree where
  | leaf (sym : Symbol) (weight : Word)
  | node (weight : Word) (left right : ETree)
  | single (weight : Word) (left : ETree)
deriving DecidableEq, Repr

/-- An optional DTree (rule R13): `absent` is `None`, and each child of a DNode is one of these. -/
inductive DTree where
  | absent
  | leaf (sym : Symbol)
  | node (left right : DTree)
deriving DecidableEq, Repr

/-- `st.FT` (rule R46). -/
abbrev FreqTable := Vector Word 256

/-- `st.CT` (rule R48). -/
abbrev CodeTable := Vector (Option Code) 256

/-- The VALID register's eight flags (rule R39). -/
structure Valid where
  ft : Bool
  etree : Bool
  ct : Bool
  etab : Bool
  pbuf : Bool
  hdr : Bool
  dtab : Bool
  dtree : Bool
deriving DecidableEq, Repr

/-- The encoder's internal products (rules R46 to R50). -/
structure EncProducts where
  /-- The FrequencyTable. -/
  ft : FreqTable
  /-- The length of the buffer it was counted from. -/
  ftLen : Word
  /-- The encoder's tree. -/
  etree : ETree
  /-- The CodeTable. -/
  ct : CodeTable
  /-- The serialized code table. -/
  etab : List Byte
  /-- The packed payload. -/
  pbuf : List Byte
  /-- TOTAL_BITS, a u64: the number of code bits packed into `pbuf`. -/
  totalBits : BitVec 64
deriving DecidableEq, Repr

/-- The decoder's internal products (rules R51 to R53). -/
structure DecProducts where
  /-- originalLength. -/
  hdrOrig : Word
  /-- payloadLength. -/
  hdrPlen : Word
  /-- encodedTableLength. -/
  hdrTlen : Word
  /-- The deserialized table, in container order. -/
  dtab : List (Symbol × Code)
  /-- The declared entry count, 1 to 256. -/
  decl : Nat
  /-- The decoder's tree. -/
  dtree : DTree
deriving DecidableEq, Repr

/-- One thing that happens at the block: a host access (rule R20), the engine's turn to take a command's end step (rule R209),
or the platform's reset and power inputs (rules R250 and R252). The pending events stand in `State.inputs` in the order they
happen, so every interleaving of the host and the engine is one list. -/
inductive Event where
  /-- A host read of the given width at an offset of an aperture. -/
  | read (ap : Aperture) (width : Width) (off : Nat)
  /-- A host write; an 8-bit or 16-bit write carries its value in the low bits of `v`. -/
  | write (ap : Aperture) (width : Width) (off : Nat) (v : Word)
  /-- The engine takes the end step of the command in progress; nothing happens when it is idle. -/
  | engine
  /-- The reset input is asserted. -/
  | resetAssert
  /-- The reset input is released. -/
  | resetRelease
  /-- Power is applied anew, with the reset input asserted. -/
  | powerOn
deriving DecidableEq, Repr

/-- What the block answered on the host bus to the last host access. -/
inductive BusResponse where
  /-- No access yet. -/
  | none
  /-- A write was taken. -/
  | written
  /-- An 8-bit read returned this byte. -/
  | byte (v : Byte)
  /-- A 32-bit read returned this word. -/
  | word (v : Word)
  /-- The access was refused (rule R231). -/
  | busError
deriving DecidableEq, Repr

/-- The block. Flags and registers are those of spec/10_state.md; STATUS, CTRL, ERR_INFO and VALID are held by field and read
as words through Flags.lean. -/
structure State where
  /-- IBUF_SIZE and OBUF_SIZE (rules R25 and R26); no step changes them. -/
  params : Params
  /-- `st.SEQ`, read as STATUS.BUSY (rules R22 and R29). -/
  seq : SeqState
  /-- The word of the command in progress; `st.CUR_OP` is its low byte (rules R22, R202 and R206). -/
  cmdWord : Word
  /-- The reset input is asserted (rule R250). -/
  inReset : Bool
  /-- CTRL.IRQ_EN (rule R34). -/
  irqEn : Bool
  /-- STATUS.DONE (rule R30). -/
  done : Bool
  /-- STATUS.ERR (rule R31). -/
  err : Bool
  /-- STATUS.DROPPED (rule R32). -/
  dropped : Bool
  /-- STATUS.ERR_CODE (rule R33). -/
  errCode : Byte
  /-- IN_LEN (rule R35). -/
  inLen : Word
  /-- OUT_LEN (rule R36). -/
  outLen : Word
  /-- ERR_OFFSET (rule R37). -/
  errOffset : Word
  /-- ERR_INFO.DETAIL (rule R38). -/
  errDetail : Byte
  /-- ERR_INFO.BIT (rule R38). -/
  errBit : BitVec 3
  /-- VALID (rule R39). -/
  valid : Valid
  /-- `st.FT` to `st.TOTAL_BITS`. -/
  enc : EncProducts
  /-- `st.HDR_ORIG` to `st.DTREE`. -/
  dec : DecProducts
  /-- IBUF's written bytes (rule R61). -/
  ibuf : Memory
  /-- OBUF's written bytes (rule R62). -/
  obuf : Memory
  /-- `some n` once a reset has abandoned a command that writes OBUF (rule R253): an OBUF byte not written since then holds
  the free value `Config.freeObufByte n a`. The model's own field (log entry 6). -/
  obufLost : Option Nat
  /-- The pending events, the next first. The model's own field (log entry 2). -/
  inputs : List Event
  /-- The host bus's answer to the last access. -/
  bus : BusResponse
  /-- How many free values have been drawn. The model's own field (log entry 5). -/
  draws : Nat
deriving DecidableEq, Repr

/-- Reasons the machine stops with a fault. -/
inductive Fault where
  /-- Raised by a command or a host read that reads the IBUF byte at `a`, not written since power-on. Safe: rule R75 and item 12
  of spec/93_implementation_defined.md make this read a fault of the model; the hardware goes on with an unpredictable byte. -/
  | unwrittenIbuf (a : Nat)
  /-- Raised by a host read of the OBUF byte at `a`, not written since power-on. Safe, for the same reason. -/
  | unwrittenObuf (a : Nat)
  /-- Raised by a command that reads IBUF at an offset `a` outside the aperture. Safe: rule R63 says no command does, and no state
  a run reaches makes one do so. -/
  | ibufOutOfRange (a : Nat)
  /-- Raised by BUILD_TREE when VALID.FT is 1 and every count is 0. Safe: rule R127 says this cannot be reached and gives the
  tree of an empty collection no meaning. -/
  | noSymbol
deriving DecidableEq, Repr

/-- Reasons the model has no meaning for what the outside world does. -/
inductive Refusal where
  /-- Raised by an arm of `exec` that has no meaning yet. Safe: nothing can be proved of the instruction. -/
  | notModelled (mnemonic : String)
  /-- Raised by a host write of IBUF, OBUF or IN_LEN made while BUSY, at offset `off` of the aperture. Safe: rule R256 and item 15
  of spec/93_implementation_defined.md say that a model refuses such a write. -/
  | hostWriteWhileBusy (ap : Aperture) (off : Nat)
deriving DecidableEq, Repr

/-- No product is valid (rule R58). -/
def Valid.reset : Valid :=
  { ft := false, etree := false, ct := false, etab := false, pbuf := false, hdr := false, dtab := false, dtree := false }

/-- DESIGN CHOICE (log entry 4): rules R46 to R50 leave the encoder's products at reset "unspecified and unobservable". -/
def EncProducts.reset : EncProducts :=
  { ft := Vector.replicate 256 0#32, ftLen := 0#32, etree := .leaf 0#8 0#32, ct := Vector.replicate 256 none,
    etab := [], pbuf := [], totalBits := 0#64 }

/-- DESIGN CHOICE (log entry 4): rules R51 to R53 leave the decoder's products at reset "unspecified and unobservable". -/
def DecProducts.reset : DecProducts :=
  { hdrOrig := 0#32, hdrPlen := 0#32, hdrTlen := 0#32, dtab := [], decl := 0, dtree := .node .absent .absent }

/-- The block right after the power-on reset is released, with the given parameters (rule R58; rule R252 for the buffers). -/
def State.resetWith (p : Params) : State :=
  { params := p, seq := .idle, cmdWord := 0#32, inReset := false,
    irqEn := false, done := false, err := false, dropped := false, errCode := 0#8,
    inLen := 0#32, outLen := 0#32, errOffset := 0#32, errDetail := 0#8, errBit := 0#3,
    valid := Valid.reset, enc := EncProducts.reset, dec := DecProducts.reset,
    ibuf := [], obuf := [], obufLost := none, inputs := [], bus := .none, draws := 0 }

/-- The block right after reset (rules R58 and R251), with the example parameters of rule R6 (log entry 1). -/
def State.reset : State := State.resetWith Params.example65536

end Sys2Proof.Machine
end

