-- ==== Sys2Proof/Machine/Flags.lean ====
section
/-! DEFINITION. The flags and the word views of the registers that hold them: STATUS, CTRL, ERR_INFO and VALID
(spec/10_state.md rules R28 to R40), the invalidation sets of the commands (spec/40_encoder.md rule R122, spec/41_decoder.md
rule R160) and the interrupt output (rule R57). The block has no arithmetic flags (rule R56). -/

namespace Sys2Proof.Machine

/-- STATUS.BUSY (rule R29). -/
def State.isBusy (s : State) : Bool := s.seq == .busy

/-- `st.CUR_OP` (rule R22), meaningful only while BUSY. -/
def State.curOp (s : State) : Byte := s.cmdWord.extractLsb' 0 8

/-- STATUS as the host reads it (rule R28). -/
def State.statusWord (s : State) : Word :=
  0#16 ++ s.errCode ++ 0#4 ++ BitVec.ofBool s.dropped ++ BitVec.ofBool s.err ++ BitVec.ofBool s.done ++ BitVec.ofBool s.isBusy

/-- CTRL as the host reads it (rule R34). -/
def State.ctrlWord (s : State) : Word := 0#31 ++ BitVec.ofBool s.irqEn

/-- ERR_INFO as the host reads it (rule R38). -/
def State.errInfoWord (s : State) : Word := 0#21 ++ s.errBit ++ s.errDetail

/-- VALID as the host reads it (rule R39). -/
def Valid.word (v : Valid) : Word :=
  0#24 ++ BitVec.ofBool v.dtree ++ BitVec.ofBool v.dtab ++ BitVec.ofBool v.hdr ++ BitVec.ofBool v.pbuf ++
    BitVec.ofBool v.etab ++ BitVec.ofBool v.ct ++ BitVec.ofBool v.etree ++ BitVec.ofBool v.ft

/-- The interrupt output (rule R57). -/
def State.irq (s : State) : Bool := s.irqEn && (s.done || s.err)

/-- The bit number of a flag in VALID (rule R39). -/
def ValidBit.number : ValidBit → Nat
  | .ft => 0
  | .etree => 1
  | .ct => 2
  | .etab => 3
  | .pbuf => 4
  | .hdr => 5
  | .dtab => 6
  | .dtree => 7

/-- One flag of VALID. -/
def Valid.get (v : Valid) : ValidBit → Bool
  | .ft => v.ft
  | .etree => v.etree
  | .ct => v.ct
  | .etab => v.etab
  | .pbuf => v.pbuf
  | .hdr => v.hdr
  | .dtab => v.dtab
  | .dtree => v.dtree

/-- What FREQ invalidates (rule R122). -/
def Valid.beforeFreq (v : Valid) : Valid :=
  { v with ft := false, etree := false, ct := false, etab := false, pbuf := false }

/-- What BUILD_TREE invalidates (rule R122). -/
def Valid.beforeBuildTree (v : Valid) : Valid := { v with etree := false, ct := false, etab := false, pbuf := false }

/-- What DERIVE_CODES invalidates (rule R122). -/
def Valid.beforeDeriveCodes (v : Valid) : Valid := { v with ct := false, etab := false, pbuf := false }

/-- What ENCODE_TABLE invalidates (rule R122). -/
def Valid.beforeEncodeTable (v : Valid) : Valid := { v with etab := false }

/-- What PACK invalidates (rule R122). -/
def Valid.beforePack (v : Valid) : Valid := { v with pbuf := false }

/-- What READ_CONTAINER invalidates (rule R160). -/
def Valid.beforeReadContainer (v : Valid) : Valid := { v with hdr := false, dtab := false, dtree := false }

/-- What DECODE_TABLE invalidates (rule R160). -/
def Valid.beforeDecodeTable (v : Valid) : Valid := { v with dtab := false, dtree := false }

/-- What REBUILD_TREE invalidates (rule R160). -/
def Valid.beforeRebuildTree (v : Valid) : Valid := { v with dtree := false }

/-- The code of an error kind, as STATUS.ERR_CODE holds it (spec/60_exceptions.md rule R220). -/
def ErrorKind.code : ErrorKind → Byte
  | .emptyInput => 1#8
  | .invalidMagic => 2#8
  | .invalidTableSize => 3#8
  | .invalidCodeLength => 4#8
  | .truncatedInput => 5#8
  | .corruptBitstream => 6#8
  | .illegalCommand => 8#8
  | .sequenceError => 9#8
  | .outputOverflow => 10#8
  | .tableConflict => 11#8
  | .noCode => 12#8
  | .lengthRange => 13#8

end Sys2Proof.Machine
end

