-- ==== Sys2Proof/Machine/Ops.lean ====
section
/-! DEFINITION. The operations every command shares: reading and writing a buffer's memory, the engine's MemRead and MemWrite
(spec/00_scope.md rule R14), how a command is accepted, checks its prerequisites, finishes and raises (spec/42_control.md
rules R202, R203, R207; spec/40_encoder.md rule R121; spec/60_exceptions.md rule R223). `State.raise` is the one place where
an error is taken; the block has no return from one (rule R229). -/

namespace Sys2Proof.Machine

/-! ### Memory -/

/-- The byte at an address; none where nothing was written since power-on (spec/20_memory.md rule R75). -/
def Memory.read : Memory → Nat → Option Byte
  | [], _ => none
  | (k, b) :: rest, a => if a = k then some b else Memory.read rest a

/-- One byte stored, the addresses kept rising. -/
def Memory.write : Memory → Nat → Byte → Memory
  | [], a, v => [(a, v)]
  | (k, b) :: rest, a, v =>
    if a < k then (a, v) :: (k, b) :: rest
    else if a = k then (a, v) :: rest
    else (k, b) :: Memory.write rest a v

/-- Bytes stored from an address upward, in increasing offset order (rule R73). -/
def Memory.writeBytes : Memory → Nat → List Byte → Memory
  | m, _, [] => m
  | m, a, v :: vs => Memory.writeBytes (Memory.write m a v) (a + 1) vs

/-- The `n` bytes from an address upward; none if any of them was never written. -/
def Memory.readBytes (m : Memory) : Nat → Nat → Option (List Byte)
  | _, 0 => some []
  | a, n + 1 =>
    match m.read a, Memory.readBytes m (a + 1) n with
    | some b, some bs => some (b :: bs)
    | _, _ => none

/-- The canonical form: strictly rising addresses. An unlisted address reads as no value, so no entry equals it. -/
def Memory.wf : Memory → Bool
  | [] => true
  | [_] => true
  | (a, _) :: (b, y) :: rest => decide (a < b) && Memory.wf ((b, y) :: rest)

/-- Every listed address is below `n`. -/
def Memory.below (m : Memory) (n : Nat) : Bool := m.all fun c => decide (c.1 < n)

/-! ### Byte order (rules R12, R65 and R67) -/

/-- LE32 of four bytes, `b0` from the lowest offset. -/
def le32 (b0 b1 b2 b3 : Byte) : Word := b3 ++ b2 ++ b1 ++ b0

/-- The four bytes of a word, lowest offset first. -/
def bytesLE32 (w : Word) : List Byte :=
  [w.extractLsb' 0 8, w.extractLsb' 8 8, w.extractLsb' 16 8, w.extractLsb' 24 8]

/-! ### How a command ends -/

/-- The end of a command's pseudocode: `finish`, `raise` with its arguments, or a fault of the model. The state carries what
the command did before it ended. -/
inductive Result where
  | finish (s : State)
  | raise (r : Report) (s : State)
  | fault (f : Fault)

/-- How a loop inside a command can stop early. -/
inductive Stop where
  | raise (r : Report)
  | fault (f : Fault)
deriving DecidableEq, Repr

/-- `finish` (rule R203). -/
def State.finish (s : State) : State := { s with seq := .idle, done := true }

/-- `raise` (rule R223): the capture registers are written, ERR is set, the command ends. DONE is not touched. -/
def State.raise (r : Report) (s : State) : State :=
  { s with
    errCode := r.kind.code
    errOffset := BitVec.ofNat 32 r.offset
    errDetail := r.detail
    errBit := r.bit
    err := true
    seq := .idle }

/-- A command's end as the machine's outcome. -/
def Result.outcome : Result → Host.Outcome State Fault Refusal
  | .finish s => .next s.finish
  | .raise r s => .next (s.raise r)
  | .fault f => .fault f

/-- `step X` of a composite (rule R207): the next step runs on what this one left, if it reached its `finish`. -/
def Result.andThen (x : Result) (k : State → Result) : Result :=
  match x with
  | .finish s => k s
  | .raise r s => .raise r s
  | .fault f => .fault f

/-- The rest of a command after a loop; `s` is the state a raise inside the loop leaves. -/
def Result.afterLoop {α : Type} (x : Except Stop α) (s : State) (k : α → Result) : Result :=
  match x with
  | .ok a => k a
  | .error (.raise r) => .raise r s
  | .error (.fault f) => .fault f

/-- The first flag of a list that is 0 in VALID. -/
def firstMissing (v : Valid) : List ValidBit → Option ValidBit
  | [] => none
  | b :: bs => if v.get b then firstMissing v bs else some b

/-- The prerequisite check (rule R121): the first missing flag raises SequenceError before any other effect. -/
def requireFlags (need : List ValidBit) (s : State) (k : State → Result) : Result :=
  match firstMissing s.valid need with
  | none => k s
  | some b => .raise { kind := .sequenceError, detail := BitVec.ofNat 8 (b.number + 1) } s

/-! ### Acceptance -/

/-- The word decodes to a command that writes OBUF. -/
def commandWritesObuf (w : Word) : Bool :=
  match decode w with
  | .ok i => i.writesObuf
  | .error _ => false

/-- The acceptance effects (rule R202). -/
def State.accept (w : Word) (s : State) : State :=
  { s with
    seq := .busy
    cmdWord := w
    done := false
    err := false
    errCode := 0#8
    errOffset := 0#32
    errDetail := 0#8
    errBit := 0#3
    outLen := if commandWritesObuf w then 0#32 else s.outLen }

end Sys2Proof.Machine
end

