-- ==== Sys2Proof/Machine/Operands.lean ====
section
/-! DEFINITION. The operands of the commands, all implicit (spec/30_encoding.md rule R86): IN_LEN, the bytes of IBUF and the
symbol-indexed tables. -/

namespace Sys2Proof.Machine

/-- IBUF_SIZE as a natural number. -/
def State.ibufSize (s : State) : Nat := s.params.ibufSize.toNat

/-- OBUF_SIZE as a natural number. -/
def State.obufSize (s : State) : Nat := s.params.obufSize.toNat

/-- `MemRead(IBUF, a, 1)` (spec/20_memory.md rules R63 and R75). -/
def readIbuf (s : State) (a : Nat) : Except Stop Byte :=
  if a < s.ibufSize then
    match s.ibuf.read a with
    | some b => .ok b
    | none => .error (.fault (.unwrittenIbuf a))
  else .error (.fault (.ibufOutOfRange a))

/-- `MemRead(IBUF, a, n)`, a byte at a time in increasing offset order (rule R73). -/
def readIbufBytes (s : State) : Nat → Nat → Except Stop (List Byte)
  | _, 0 => .ok []
  | a, n + 1 =>
    match readIbuf s a with
    | .error e => .error e
    | .ok b =>
      match readIbufBytes s (a + 1) n with
      | .error e => .error e
      | .ok bs => .ok (b :: bs)

/-- `LE32(MemRead(IBUF, a, 4))` (rule R65). -/
def readIbufLE32 (s : State) (a : Nat) : Except Stop Word := do
  let b0 ← readIbuf s a
  let b1 ← readIbuf s (a + 1)
  let b2 ← readIbuf s (a + 2)
  let b3 ← readIbuf s (a + 3)
  return le32 b0 b1 b2 b3

/-- The symbols 0 to 255 in ascending order. -/
def allSymbols : List Symbol := (List.range 256).map (BitVec.ofNat 8)

/-- `st.FT[s]`. -/
def freqAt (t : FreqTable) (s : Symbol) : Word := t[s.toNat]'s.isLt

/-- `st.CT[s]`. -/
def codeAt (t : CodeTable) (s : Symbol) : Option Code := t[s.toNat]'s.isLt

/-- `st.CT[s] <- Some c`. -/
def setCode (t : CodeTable) (s : Symbol) (c : Code) : CodeTable := t.set s.toNat (some c) s.isLt

/-- `st.FT[s] <- st.FT[s] + 1`. -/
def bumpFreq (t : FreqTable) (s : Symbol) : FreqTable := t.set s.toNat (freqAt t s + 1#32) s.isLt

end Sys2Proof.Machine
end

