-- ==== Sys2Proof/Machine/Csr.lean ====
section
/-! DEFINITION. The CSR aperture (spec/10_state.md §2 and rules R54 and R55): what a read of each offset returns and what a
write does. Offsets here are the 4-aligned offsets below 4096 that Bus.lean lets through. -/

namespace Sys2Proof.Machine

/-- A value shown only while its VALID flag is 1 (rules R41 to R44). -/
def shown (flag : Bool) (v : Word) : Word := if flag then v else 0#32

/-- ENC_NSYM's count (rule R41). -/
def countPresent (t : FreqTable) : Nat := (allSymbols.filter fun s => freqAt t s != 0#32).length

/-- CODELEN of one symbol while VALID.CT is 1 (rule R44). -/
def codeLength (t : CodeTable) (s : Symbol) : Word :=
  match codeAt t s with
  | some c => BitVec.ofNat 32 c.length
  | none => 0#32

/-- The symbol of a word of a 256-entry window that starts at `base` (rules R43 and R44). -/
def windowSymbol (base off : Nat) : Symbol := BitVec.ofNat 8 ((off - base) / 4)

/-- What a host read of a CSR offset returns (rule R23's table); a reserved offset and CMD return 0 (rules R27 and R54). -/
def csrRead (s : State) (off : Nat) : Word :=
  if off = 0x000 then 0x46484343#32
  else if off = 0x004 then s.params.ibufSize
  else if off = 0x008 then s.params.obufSize
  else if off = 0x00C then s.ctrlWord
  else if off = 0x014 then s.statusWord
  else if off = 0x018 then s.inLen
  else if off = 0x01C then s.outLen
  else if off = 0x020 then s.errOffset
  else if off = 0x024 then s.errInfoWord
  else if off = 0x028 then s.valid.word
  else if off = 0x030 then shown s.valid.ft s.enc.ftLen
  else if off = 0x034 then shown s.valid.etab (BitVec.ofNat 32 s.enc.etab.length)
  else if off = 0x038 then shown s.valid.pbuf (BitVec.ofNat 32 s.enc.pbuf.length)
  else if off = 0x03C then shown s.valid.ft (BitVec.ofNat 32 (countPresent s.enc.ft))
  else if off = 0x040 then shown s.valid.pbuf (s.enc.totalBits.extractLsb' 0 32)
  else if off = 0x044 then shown s.valid.pbuf (s.enc.totalBits.extractLsb' 32 32)
  else if off = 0x050 then shown s.valid.hdr s.dec.hdrOrig
  else if off = 0x054 then shown s.valid.hdr s.dec.hdrPlen
  else if off = 0x058 then shown s.valid.hdr s.dec.hdrTlen
  else if off = 0x05C then shown s.valid.dtab (BitVec.ofNat 32 s.dec.decl)
  else if off = 0x060 then shown s.valid.dtab (BitVec.ofNat 32 s.dec.dtab.length)
  else if 0x400 ≤ off ∧ off < 0x800 then shown s.valid.ft (freqAt s.enc.ft (windowSymbol 0x400 off))
  else if 0x800 ≤ off ∧ off < 0xC00 then shown s.valid.ct (codeLength s.enc.ct (windowSymbol 0x800 off))
  else 0#32

/-- The CSRs whose reads return unspecified values while BUSY (spec/70_reset_and_hazards.md rule R257): OUT_LEN, ERR_OFFSET,
ERR_INFO, VALID and the registers of rules R41 to R44. -/
def csrUnspecifiedWhileBusy (off : Nat) : Bool :=
  [0x01C, 0x020, 0x024, 0x028, 0x030, 0x034, 0x038, 0x03C, 0x040, 0x044, 0x050, 0x054, 0x058, 0x05C, 0x060].contains off ||
    (decide (0x400 ≤ off) && decide (off < 0xC00))

/-- A host write of CTRL: only IRQ_EN is stored (rule R34). -/
def State.writeCtrl (v : Word) (s : State) : State := { s with irqEn := v.getLsbD 0 }

/-- A host write of STATUS: each of DONE, ERR and DROPPED is cleared where the written bit is 1 (rule R28). -/
def State.writeStatus (v : Word) (s : State) : State :=
  { s with
    done := s.done && !v.getLsbD 1
    err := s.err && !v.getLsbD 2
    dropped := s.dropped && !v.getLsbD 3 }

/-- A host write of CMD (rules R200 and R201). -/
def State.writeCmd (w : Word) (s : State) : State :=
  if s.isBusy then { s with dropped := true } else s.accept w

/-- A host write of a CSR other than IN_LEN while BUSY; a read-only or reserved offset ignores it (rules R54 and R55). -/
def csrWrite (off : Nat) (v : Word) (s : State) : State :=
  if off = 0x00C then s.writeCtrl v
  else if off = 0x010 then s.writeCmd v
  else if off = 0x014 then s.writeStatus v
  else if off = 0x018 then { s with inLen := v }
  else s

end Sys2Proof.Machine
end

