-- ==== Sys2Proof/Machine/Bus.lean ====
section
/-! DEFINITION. The host's accesses (spec/20_memory.md §§1 to 3) and the platform's reset and power inputs
(spec/70_reset_and_hazards.md §1). -/

namespace Sys2Proof.Machine

/-! ### Which accesses the block takes -/

/-- The size of an aperture in bytes (rule R60). -/
def State.apertureSize (s : State) : Aperture → Nat
  | .csr => 4096
  | .ibuf => s.ibufSize
  | .obuf => s.obufSize

/-- The block takes the access (rules R69 and R70); every other access is refused with a bus error. -/
def State.takes (s : State) (ap : Aperture) (width : Width) (off : Nat) : Bool :=
  match width with
  | .w8 => ap != .csr && decide (off < s.apertureSize ap)
  | .w16 => false
  | .w32 => decide (off % 4 = 0) && decide (off + 4 ≤ s.apertureSize ap)

/-- The host bus answers. -/
def State.answer (r : BusResponse) (s : State) : State := { s with bus := r }

/-! ### Reads -/

/-- An OBUF byte as it stands: written, or left free by an abandoned command (rule R253), or never written. -/
def State.obufByte (s : State) (a : Nat) : Option Byte :=
  match s.obuf.read a with
  | some b => some b
  | none => s.obufLost.map fun n => Config.freeObufByte n a

/-- A read whose value is unspecified: one draw (rule R257). An 8-bit read takes the draw's low byte. -/
def State.drawRead (width : Width) (s : State) : State :=
  { s with
    draws := s.draws + 1
    bus :=
      match width with
      | .w8 => .byte ((Config.freeWord s.draws).extractLsb' 0 8)
      | .w16 => .busError
      | .w32 => .word (Config.freeWord s.draws) }

/-- A read of a buffer through `byteAt`; a byte never written since power-on is a fault (rule R75). A 32-bit read has its
lowest byte in bits 7:0 (rule R67). -/
def bufferRead (byteAt : Nat → Option Byte) (unwritten : Nat → Fault) (width : Width) (off : Nat) :
    Except Fault BusResponse :=
  let get (a : Nat) : Except Fault Byte :=
    match byteAt a with
    | some b => .ok b
    | none => .error (unwritten a)
  match width with
  | .w8 => do
    let b ← get off
    return .byte b
  | .w16 => .ok .busError
  | .w32 => do
    let b0 ← get off
    let b1 ← get (off + 1)
    let b2 ← get (off + 2)
    let b3 ← get (off + 3)
    return .word (le32 b0 b1 b2 b3)

/-- What a buffer read answers, as the machine's outcome. -/
def answerRead (s : State) : Except Fault BusResponse → Host.Outcome State Fault Refusal
  | .ok r => .next (s.answer r)
  | .error f => .fault f

/-- A host read (rules R69 to R72, R75, R250, R257). DESIGN CHOICE (log entry 18): while BUSY a read of an OBUF byte never written
since power-on is rule R257's draw, not rule R75's fault; the spec asks for both and does not say which goes before. DESIGN CHOICE (log entry 19): a read of a result returns its defined
value as soon as the block is IDLE, although rules R257 and R261 promise it only after a read of STATUS has returned BUSY = 0. -/
def hostRead (ap : Aperture) (width : Width) (off : Nat) (s : State) : Host.Outcome State Fault Refusal :=
  if s.inReset then .next (s.answer .busError)
  else if !s.takes ap width off then .next (s.answer .busError)
  else
    match ap with
    | .csr =>
      if s.isBusy && csrUnspecifiedWhileBusy off then .next (s.drawRead .w32)
      else .next (s.answer (.word (csrRead s off)))
    | .ibuf => answerRead s (bufferRead s.ibuf.read .unwrittenIbuf width off)
    | .obuf =>
      if s.isBusy then .next (s.drawRead width)
      else answerRead s (bufferRead s.obufByte .unwrittenObuf width off)

/-! ### Writes -/

/-- The bytes a host write stores, lowest offset first (rule R67). -/
def writtenBytes (width : Width) (v : Word) : List Byte :=
  match width with
  | .w8 => [v.extractLsb' 0 8]
  | .w16 => []
  | .w32 => bytesLE32 v

/-- A host write (rules R69 to R72, R250, R256). -/
def hostWrite (ap : Aperture) (width : Width) (off : Nat) (v : Word) (s : State) : Host.Outcome State Fault Refusal :=
  if s.inReset then .next (s.answer .busError)
  else if !s.takes ap width off then .next (s.answer .busError)
  else
    match ap with
    | .csr =>
      if s.isBusy && off == 0x018 then .refused (.hostWriteWhileBusy .csr off)
      else .next ((csrWrite off v s).answer .written)
    | .ibuf =>
      if s.isBusy then .refused (.hostWriteWhileBusy .ibuf off)
      else .next ({ s with ibuf := s.ibuf.writeBytes off (writtenBytes width v) }.answer .written)
    | .obuf =>
      if s.isBusy then .refused (.hostWriteWhileBusy .obuf off)
      else .next ({ s with obuf := s.obuf.writeBytes off (writtenBytes width v) }.answer .written)

/-! ### Reset and power -/

/-- Every register, flag and internal product at its reset value (rule R58; log entry 4 for the products and CUR_OP). The
parameters, the buffers, the pending events, the bus's last answer and the count of draws stay. -/
def State.resetRegisters (s : State) : State :=
  { State.resetWith s.params with
    inReset := s.inReset, ibuf := s.ibuf, obuf := s.obuf, obufLost := s.obufLost,
    inputs := s.inputs, bus := s.bus, draws := s.draws }

/-- OBUF at the moment a reset is asserted: every byte is unspecified if the command it abandons writes OBUF (rule R253). -/
def State.abandonCommand (s : State) : State :=
  if s.isBusy && commandWritesObuf s.cmdWord then
    { s with obuf := [], obufLost := some s.draws, draws := s.draws + 1 }
  else s

/-- The reset input is asserted (rules R250 and R253). -/
def State.assertReset (s : State) : State := { s.abandonCommand.resetRegisters with inReset := true }

/-- The reset input is released (rule R250); nothing happens when it was not asserted. -/
def State.releaseReset (s : State) : State :=
  if s.inReset then { s.resetRegisters with inReset := false } else s

/-- Power is applied anew: the buffers hold nothing a rule can predict (rule R252), and the reset input is asserted. -/
def State.applyPower (s : State) : State :=
  { s.resetRegisters with inReset := true, ibuf := [], obuf := [], obufLost := none }

end Sys2Proof.Machine
end

