-- ==== Sys2Proof/Machine/Control.lean ====
section
/-! DEFINITION. The control commands NOP and CLEAR and the illegal words (spec/42_control.md rules R204 to R206). -/

namespace Sys2Proof.Machine

/-- NOP's pseudocode (rule R204). -/
def nopBody (s : State) : Result := .finish s

/-- NOP. -/
def execNop (s : State) : Host.Outcome State Fault Refusal := (nopBody s).outcome

/-- CLEAR's pseudocode (rule R205): every VALID flag and OUT_LEN to 0. -/
def clearBody (s : State) : Result := .finish { s with valid := Valid.reset, outLen := 0#32 }

/-- CLEAR. -/
def execClear (s : State) : Host.Outcome State Fault Refusal := (clearBody s).outcome

/-- The detail of IllegalCommand (rule R206). -/
def illegalDetail : Illegal → Byte
  | .reservedBits => 1#8
  | .unassignedOpcode => 2#8

/-- ILLEGAL's pseudocode (rule R206): IllegalCommand with the word itself as the offset. -/
def illegalBody (r : Illegal) (s : State) : Result :=
  .raise { kind := .illegalCommand, detail := illegalDetail r, offset := s.cmdWord.toNat } s

/-- The end step of an accepted word that is no command. -/
def execIllegal (r : Illegal) (s : State) : Host.Outcome State Fault Refusal := (illegalBody r s).outcome

end Sys2Proof.Machine
end

