-- ==== Sys2Proof/Machine/Tree.lean ====
section
/-! DEFINITION. The trees: the encoder's, built from the frequencies (spec/40_encoder.md rules R125 to R127 and R131) and walked
for the codes (rules R132 and R134), and the decoder's, rebuilt from a table (spec/41_decoder.md rule R164). -/

namespace Sys2Proof.Machine

/-! ### Frequencies -/

/-- The counts of a buffer (rule R123). -/
def countSymbols (bytes : List Byte) : FreqTable := bytes.foldl bumpFreq (Vector.replicate 256 0#32)

/-! ### The encoder's tree -/

/-- A node of the min-priority collection: its weight, its key and its tree (rule R125). The collection is working state of one
command (rule R45); it is kept as a list in priority order. -/
structure QNode where
  weight : Word
  key : Nat
  tree : ETree
deriving DecidableEq, Repr

/-- The priority order (rule R125): by weight, then by key. -/
def QNode.before (x y : QNode) : Bool :=
  decide (x.weight.toNat < y.weight.toNat) || (x.weight == y.weight && decide (x.key < y.key))

/-- A node put into the collection at its place. -/
def enqueue (x : QNode) : List QNode → List QNode
  | [] => [x]
  | y :: ys => if x.before y then x :: y :: ys else y :: enqueue x ys

/-- The leaf of a symbol: its key is the symbol (rule R125). -/
def leafNode (t : FreqTable) (s : Symbol) : QNode :=
  { weight := freqAt t s, key := s.toNat, tree := .leaf s (freqAt t s) }

/-- The leaves BUILD_TREE starts from: one per symbol with a count above 0. -/
def initialQueue (t : FreqTable) : List QNode :=
  ((allSymbols.filter fun s => freqAt t s != 0#32).map (leafNode t)).foldl (fun q x => enqueue x q) []

/-- The node the `m`-th merge makes from the two lowest (rule R126): the first removed is the left child. -/
def mergeNodes (m : Nat) (x y : QNode) : QNode :=
  { weight := x.weight + y.weight, key := 256 + m, tree := .node (x.weight + y.weight) x.tree y.tree }

/-- The merge loop of rule R127. `fuel` bounds the merges left; `m` counts those made. -/
def mergeLoop : Nat → Nat → List QNode → Option ETree
  | _, _, [] => none
  | _, _, [x] => some x.tree
  | 0, _, _ :: _ :: _ => none
  | fuel + 1, m, x :: y :: rest => mergeLoop fuel (m + 1) (enqueue (mergeNodes m x y) rest)

/-- The tree of a frequency table (rule R127, with rule R131's root for a single symbol); none when every count is 0. -/
def buildTree (t : FreqTable) : Option ETree :=
  match initialQueue t with
  | [] => none
  | [x] => some (.single x.weight x.tree)
  | q => mergeLoop q.length 0 q

/-- The codes of a tree's leaves below a path, written into a table (rule R132). Each branch has its own path (rule R134). -/
def walkCodes : ETree → Code → CodeTable → CodeTable
  | .leaf s _, path, t => setCode t s path
  | .node _ l r, path, t => walkCodes r (path ++ [true]) (walkCodes l (path ++ [false]) t)
  | .single _ l, path, t => walkCodes l (path ++ [false]) t

/-- The code table of a tree (rule R132). -/
def deriveCodes (e : ETree) : CodeTable := walkCodes e [] (Vector.replicate 256 none)

/-! ### The decoder's tree -/

/-- `child(n, b)` (rule R13). A position that is no DNode has no child. -/
def DTree.child : DTree → Bool → DTree
  | .node l _, false => l
  | .node _ r, true => r
  | .leaf _, _ => .absent
  | .absent, _ => .absent

/-- A tree with one more leaf at the end of a code, or the detail of the TableConflict that rule R164 raises on the way: 3 where
an earlier code ends on the path, 2 where one ends at its end, 4 where the end is inside an earlier path. `t` is the tree at
the position reached so far; an absent position on the way becomes a DNode. -/
def DTree.graft (sym : Symbol) : Code → DTree → Except Byte DTree
  | [], .absent => .ok (.leaf sym)
  | [], .leaf _ => .error 2#8
  | [], .node _ _ => .error 4#8
  | _ :: _, .leaf _ => .error 3#8
  | b :: c, .node l r =>
    if b then
      match DTree.graft sym c r with
      | .ok r' => .ok (.node l r')
      | .error d => .error d
    else
      match DTree.graft sym c l with
      | .ok l' => .ok (.node l' r)
      | .error d => .error d
  | b :: c, .absent =>
    match DTree.graft sym c .absent with
    | .ok t => if b then .ok (.node .absent t) else .ok (.node t .absent)
    | .error d => .error d

/-- The loop of rule R164: `e` is the index of the next entry, `seen` the symbols of the earlier ones. -/
def rebuildLoop : Nat → List Symbol → DTree → List (Symbol × Code) → Except Report DTree
  | _, _, t, [] => .ok t
  | e, seen, t, (sym, c) :: rest =>
    if seen.contains sym then .error { kind := .tableConflict, detail := 1#8, offset := e }
    else
      match DTree.graft sym c t with
      | .error d => .error { kind := .tableConflict, detail := d, offset := e }
      | .ok t' => rebuildLoop (e + 1) (sym :: seen) t' rest

/-- The decoder tree of a table (rule R164), from an empty root. -/
def rebuildTree (entries : List (Symbol × Code)) : Except Report DTree :=
  rebuildLoop 0 [] (.node .absent .absent) entries

end Sys2Proof.Machine
end

