-- ==== Sys2Proof/Machine/Codec.lean ====
section
/-! DEFINITION. The formats (spec/30_encoding.md §§2 to 4): bits packed into bytes most significant first, the serialized code
table both ways, the payload both ways and the container. -/

namespace Sys2Proof.Machine

/-! ### Bits and bytes (rules R66, R103 and R106) -/

/-- `⌈n / 8⌉` (rule R9). -/
def ceilDiv8 (n : Nat) : Nat := (n + 7) / 8

/-- The eight bits of a byte, most significant first. -/
def bitsOfByte (b : Byte) : List Bool := (List.range 8).map fun j => b.getLsbD (7 - j)

/-- A bit placed at position `7 - n` of an accumulator. -/
def placeBit (acc : Byte) (n : Nat) (b : Bool) : Byte := acc ||| ((BitVec.ofBool b).setWidth 8 <<< (7 - n))

/-- Bits packed into bytes from the most significant bit down: `acc` holds the `n` bits of the byte begun. -/
def packFrom : Byte → Nat → List Bool → List Byte
  | acc, n, [] => if n = 0 then [] else [acc]
  | acc, n, b :: bs =>
    if n + 1 = 8 then placeBit acc n b :: packFrom 0#8 0 bs else packFrom (placeBit acc n b) (n + 1) bs

/-- `packMSB` (rules R103 and R106): a last byte that is not full has its low bits 0. -/
def packMSB (bits : List Bool) : List Byte := packFrom 0#8 0 bits

/-- The first `n` bits of a byte sequence (rule R103, decoding). -/
def unpackMSB (n : Nat) (bytes : List Byte) : List Bool := (bytes.flatMap bitsOfByte).take n

/-! ### The serialized code table (rules R100 to R105) -/

/-- The symbols that have a code, with it, in ascending symbol order (rule R104). -/
def tableEntries (t : CodeTable) : List (Symbol × Code) :=
  allSymbols.filterMap fun s => (codeAt t s).map fun c => (s, c)

/-- One entry's bytes: symbol, length, code bytes (rule R102). -/
def entryBytes (e : Symbol × Code) : List Byte := e.1 :: BitVec.ofNat 8 e.2.length :: packMSB e.2

/-- Entries serialized in order, or InvalidCodeLength at the first code of a length the format has no byte for (rule R135). -/
def encodeEntries : List (Symbol × Code) → Except Report (List Byte)
  | [] => .ok []
  | e :: rest =>
    if e.2.length = 0 ∨ 255 < e.2.length then
      .error { kind := .invalidCodeLength, detail := 1#8, offset := e.1.toNat }
    else
      match encodeEntries rest with
      | .ok bs => .ok (entryBytes e ++ bs)
      | .error r => .error r

/-- The encoded table of a code table (rule R135): the count byte is N mod 256 (rule R101). -/
def encodeTable (t : CodeTable) : Except Report (List Byte) :=
  if (tableEntries t).length = 0 ∨ 256 < (tableEntries t).length then
    .error { kind := .invalidTableSize, detail := 1#8 }
  else
    match encodeEntries (tableEntries t) with
    | .ok bs => .ok (BitVec.ofNat 8 ((tableEntries t).length % 256) :: bs)
    | .error r => .error r

/-- The declared entry count of a count byte (rule R101). -/
def declaredCount (c : Byte) : Nat := if c.toNat = 0 then 256 else c.toNat

/-- The entries read from IBUF (the loop of rule R162): at most `left` of them, from `pos`, inside the table that ends
before `fin`. -/
def decodeEntries (s : State) (fin : Nat) : Nat → Nat → Except Stop (List (Symbol × Code))
  | 0, _ => .ok []
  | left + 1, pos =>
    if pos < fin then do
      let sym ← readIbuf s pos
      if fin ≤ pos + 1 then .error (.raise { kind := .truncatedInput, detail := 4#8, offset := pos })
      else
        let len ← readIbuf s (pos + 1)
        if len.toNat = 0 then .error (.raise { kind := .invalidCodeLength, detail := 2#8, offset := pos + 1 })
        else if fin < pos + 2 + ceilDiv8 len.toNat then
          .error (.raise { kind := .truncatedInput, detail := 4#8, offset := pos })
        else
          let code ← readIbufBytes s (pos + 2) (ceilDiv8 len.toNat)
          let rest ← decodeEntries s fin left (pos + 2 + ceilDiv8 len.toNat)
          return (sym, unpackMSB len.toNat code) :: rest
    else .ok []

/-! ### The payload -/

/-- The accumulators of PACK (rule R136): the byte begun, how many bits it holds, the full bytes, the bits placed. -/
structure PackState where
  acc : Byte
  nacc : Nat
  bytes : List Byte
  bits : Nat
deriving DecidableEq, Repr

/-- PACK's start (rule R136). -/
def PackState.start : PackState := { acc := 0#8, nacc := 0, bytes := [], bits := 0 }

/-- OutputOverflow of PACK at an input offset (rule R136). -/
def packOverflow (i : Nat) : Report := { kind := .outputOverflow, detail := 1#8, offset := i }

/-- One bit placed (rule R136): a full byte is appended if OBUF_SIZE, here `cap`, leaves room. -/
def packBit (cap i : Nat) (p : PackState) (b : Bool) : Except Stop PackState :=
  if p.nacc + 1 = 8 then
    if cap < p.bytes.length + 1 then .error (.raise (packOverflow i))
    else .ok { acc := 0#8, nacc := 0, bytes := p.bytes ++ [placeBit p.acc p.nacc b], bits := p.bits + 1 }
  else .ok { acc := placeBit p.acc p.nacc b, nacc := p.nacc + 1, bytes := p.bytes, bits := p.bits + 1 }

/-- The bits of one code placed in order. -/
def packCode (cap i : Nat) : PackState → Code → Except Stop PackState
  | p, [] => .ok p
  | p, b :: bs =>
    match packBit cap i p b with
    | .ok p' => packCode cap i p' bs
    | .error e => .error e

/-- The input bytes from offset `i` on, `left` of them, read and packed one at a time (rule R136). -/
def packInput (s : State) : Nat → Nat → PackState → Except Stop PackState
  | 0, _, p => .ok p
  | left + 1, i, p =>
    match readIbuf s i with
    | .error e => .error e
    | .ok b =>
      match codeAt s.enc.ct b with
      | none => .error (.raise { kind := .noCode, offset := i })
      | some c =>
        match packCode s.obufSize i p c with
        | .error e => .error e
        | .ok p' => packInput s left (i + 1) p'

/-- The final partial byte (rules R107 and R136); `n` is the input's length. -/
def packFlush (cap n : Nat) (p : PackState) : Except Stop PackState :=
  if p.nacc = 0 then .ok p
  else if cap < p.bytes.length + 1 then .error (.raise (packOverflow (n - 1)))
  else .ok { p with bytes := p.bytes ++ [p.acc] }

/-- The bits of one payload byte and their positions, 7 first (rule R165). -/
def numberedBits (b : Byte) : List (Nat × Bool) := (List.range 8).map fun j => (7 - j, b.getLsbD (7 - j))

/-- Where the walk over one payload byte stands after it: the tree position and the bytes decoded so far, all of the output, or
the position of the bit that leads to a missing child. -/
inductive ByteWalk where
  | more (node : DTree) (out : List Byte)
  | complete (out : List Byte)
  | missing (k : Nat) (out : List Byte)
deriving DecidableEq, Repr

/-- The inner loop of rule R165: a leaf emits its symbol and puts the walk back to the root. -/
def walkBits (root : DTree) (orig : Nat) : List (Nat × Bool) → DTree → List Byte → ByteWalk
  | [], node, out => .more node out
  | (k, b) :: rest, node, out =>
    match node.child b with
    | .absent => .missing k out
    | .leaf sym =>
      if (out ++ [sym]).length = orig then .complete (out ++ [sym]) else walkBits root orig rest root (out ++ [sym])
    | .node l r => walkBits root orig rest (.node l r) out

/-- How the walk over the payload ends: with all of the output, with CorruptBitstream after the bytes `out`, or at a read that
the model stops on. -/
inductive PayloadWalk where
  | complete (out : List Byte)
  | corrupt (r : Report) (out : List Byte)
  | stopped (e : Stop)
deriving DecidableEq, Repr

/-- The outer loop of rule R165: `left` payload bytes from payload offset `i`, the payload standing at IBUF offset `poff`. -/
def walkPayload (s : State) (root : DTree) (orig poff : Nat) : Nat → Nat → DTree → List Byte → PayloadWalk
  | 0, i, _, out => .corrupt { kind := .corruptBitstream, detail := 2#8, offset := i } out
  | left + 1, i, node, out =>
    match readIbuf s (poff + i) with
    | .error e => .stopped e
    | .ok b =>
      match walkBits root orig (numberedBits b) node out with
      | .complete out' => .complete out'
      | .missing k out' =>
        .corrupt { kind := .corruptBitstream, detail := 1#8, offset := i, bit := BitVec.ofNat 3 k } out'
      | .more node' out' => walkPayload s root orig poff left (i + 1) node' out'

/-! ### The container (rules R92 and R93) -/

/-- The magic, "CCHF". -/
def magic : List Byte := [0x43#8, 0x43#8, 0x48#8, 0x46#8]

/-- A whole container: magic, the three lengths, the table, the payload. -/
def containerBytes (orig : Word) (table payload : List Byte) : List Byte :=
  magic ++ bytesLE32 orig ++ bytesLE32 (BitVec.ofNat 32 payload.length) ++ bytesLE32 (BitVec.ofNat 32 table.length) ++
    table ++ payload

end Sys2Proof.Machine
end

