-- ==== Sys2Proof/Machine/Decoder.lean ====
section
/-! DEFINITION. The decoder commands (spec/41_decoder.md), each the end step of its command as in Encoder.lean (log entry 3).
DECOMPRESS is the composition of the bodies (spec/42_control.md rule R207). No rule here reads an encoder product. -/

namespace Sys2Proof.Machine

/-! ### READ_CONTAINER (rule R161) -/

/-- The magic compared byte by byte from offset `i`, in a buffer of `len` bytes: the offset InvalidMagic reports is that of the
first byte that is missing or differs. -/
def checkMagic (s : State) (len : Nat) : Nat → List Byte → Except Stop Unit
  | _, [] => .ok ()
  | i, m :: ms =>
    if len ≤ i then .error (.raise { kind := .invalidMagic, offset := len })
    else
      match readIbuf s i with
      | .error e => .error e
      | .ok b =>
        if b = m then checkMagic s len (i + 1) ms else .error (.raise { kind := .invalidMagic, offset := i })

/-- The container's header, checked against the buffer of `len` bytes: originalLength, payloadLength, encodedTableLength. The
sums are unbounded (spec/30_encoding.md rule R98). -/
def readHeader (s : State) (len : Nat) : Except Stop (Word × Word × Word) := do
  checkMagic s len 0 magic
  if len < 16 then .error (.raise { kind := .truncatedInput, detail := 1#8, offset := len })
  else
    let orig ← readIbufLE32 s 4
    let plen ← readIbufLE32 s 8
    let tlen ← readIbufLE32 s 12
    if len < 16 + tlen.toNat then .error (.raise { kind := .truncatedInput, detail := 2#8, offset := 12 })
    else if len < 16 + tlen.toNat + plen.toNat then
      .error (.raise { kind := .truncatedInput, detail := 3#8, offset := 8 })
    else return (orig, plen, tlen)

/-- READ_CONTAINER's pseudocode. -/
def readContainerBody (s : State) : Result :=
  let s1 := { s with valid := s.valid.beforeReadContainer }
  let len := s1.inLen.toNat
  if s1.ibufSize < len then .raise { kind := .lengthRange } s1
  else
    Result.afterLoop (readHeader s1 len) s1 fun h =>
      .finish { s1 with
        dec := { s1.dec with hdrOrig := h.1, hdrPlen := h.2.1, hdrTlen := h.2.2 }
        valid := { s1.valid with hdr := true } }

/-- READ_CONTAINER. -/
def execReadContainer (s : State) : Host.Outcome State Fault Refusal := (readContainerBody s).outcome

/-! ### DECODE_TABLE (rule R162) -/

/-- The table read from IBUF: the declared count and the entries. -/
def decodeTable (s : State) (tlen : Nat) : Except Stop (Nat × List (Symbol × Code)) :=
  if tlen = 0 then .error (.raise { kind := .invalidTableSize, detail := 2#8, offset := 16 })
  else do
    let c ← readIbuf s 16
    let entries ← decodeEntries s (16 + tlen) (declaredCount c) 17
    return (declaredCount c, entries)

/-- DECODE_TABLE's pseudocode. -/
def decodeTableBody (s : State) : Result :=
  requireFlags [.hdr] s fun s =>
    let s1 := { s with valid := s.valid.beforeDecodeTable }
    Result.afterLoop (decodeTable s1 s1.dec.hdrTlen.toNat) s1 fun d =>
      .finish { s1 with
        dec := { s1.dec with decl := d.1, dtab := d.2 }
        valid := { s1.valid with dtab := true } }

/-- DECODE_TABLE. -/
def execDecodeTable (s : State) : Host.Outcome State Fault Refusal := (decodeTableBody s).outcome

/-! ### REBUILD_TREE (rule R164) -/

/-- REBUILD_TREE's pseudocode. -/
def rebuildTreeBody (s : State) : Result :=
  requireFlags [.dtab] s fun s =>
    let s1 := { s with valid := s.valid.beforeRebuildTree }
    match rebuildTree s1.dec.dtab with
    | .error r => .raise r s1
    | .ok t => .finish { s1 with dec := { s1.dec with dtree := t }, valid := { s1.valid with dtree := true } }

/-- REBUILD_TREE. -/
def execRebuildTree (s : State) : Host.Outcome State Fault Refusal := (rebuildTreeBody s).outcome

/-! ### UNPACK (rule R165) -/

/-- The bytes the walk decoded, stored in OBUF from offset 0 on: rule R165's `MemWrite(OBUF, out, 1, [s])` for out = 0, 1, …
(the engine never reads OBUF, rule R62, so storing them together is the same). -/
def storeDecoded (s : State) (out : List Byte) : State := { s with obuf := s.obuf.writeBytes 0 out }

/-- UNPACK's pseudocode. OUT_LEN was set to 0 at acceptance (rule R202). -/
def unpackBody (s : State) : Result :=
  requireFlags [.hdr, .dtree] s fun s =>
    let orig := s.dec.hdrOrig.toNat
    if s.obufSize < orig then .raise { kind := .outputOverflow, detail := 3#8, offset := 4 } s
    else if orig = 0 then .finish { s with outLen := 0#32 }
    else
      match walkPayload s s.dec.dtree orig (16 + s.dec.hdrTlen.toNat) s.dec.hdrPlen.toNat 0 s.dec.dtree [] with
      | .complete out => .finish { storeDecoded s out with outLen := s.dec.hdrOrig }
      | .corrupt r out => .raise r (storeDecoded s out)
      | .stopped e => Result.afterLoop (.error e) s Result.finish

/-- UNPACK. -/
def execUnpack (s : State) : Host.Outcome State Fault Refusal := (unpackBody s).outcome

/-! ### DECOMPRESS (rule R166) -/

/-- DECOMPRESS's pseudocode: the four steps in order. -/
def decompressBody (s : State) : Result :=
  (((readContainerBody s).andThen decodeTableBody).andThen rebuildTreeBody).andThen unpackBody

/-- DECOMPRESS. -/
def execDecompress (s : State) : Host.Outcome State Fault Refusal := (decompressBody s).outcome

end Sys2Proof.Machine
end

