-- ==== Sys2Proof/Machine/Encoder.lean ====
section
/-! DEFINITION. The encoder commands (spec/40_encoder.md). A command's body is its pseudocode from the prerequisite check
onward; its meaning is the engine's end step, which runs the body on the state acceptance left and ends the command (log entry 3).
COMPRESS is the composition of the bodies (spec/42_control.md rule R207). -/

namespace Sys2Proof.Machine

/-! ### FREQ (rule R123) -/

/-- FREQ's pseudocode. -/
def freqBody (s : State) : Result :=
  let s1 := { s with valid := s.valid.beforeFreq }
  let n := s1.inLen.toNat
  if s1.ibufSize < n then .raise { kind := .lengthRange } s1
  else if n = 0 then .raise { kind := .emptyInput } s1
  else
    Result.afterLoop (readIbufBytes s1 0 n) s1 fun bytes =>
      .finish { s1 with
        enc := { s1.enc with ft := countSymbols bytes, ftLen := s1.inLen }
        valid := { s1.valid with ft := true } }

/-- FREQ. -/
def execFreq (s : State) : Host.Outcome State Fault Refusal := (freqBody s).outcome

/-! ### BUILD_TREE (rule R127) -/

/-- BUILD_TREE's pseudocode. -/
def buildTreeBody (s : State) : Result :=
  requireFlags [.ft] s fun s =>
    let s1 := { s with valid := s.valid.beforeBuildTree }
    match buildTree s1.enc.ft with
    | none => .fault .noSymbol
    | some t => .finish { s1 with enc := { s1.enc with etree := t }, valid := { s1.valid with etree := true } }

/-- BUILD_TREE. -/
def execBuildTree (s : State) : Host.Outcome State Fault Refusal := (buildTreeBody s).outcome

/-! ### DERIVE_CODES (rule R132) -/

/-- DERIVE_CODES's pseudocode. -/
def deriveCodesBody (s : State) : Result :=
  requireFlags [.etree] s fun s =>
    let s1 := { s with valid := s.valid.beforeDeriveCodes }
    .finish { s1 with
      enc := { s1.enc with ct := deriveCodes s1.enc.etree }
      valid := { s1.valid with ct := true } }

/-- DERIVE_CODES. -/
def execDeriveCodes (s : State) : Host.Outcome State Fault Refusal := (deriveCodesBody s).outcome

/-! ### ENCODE_TABLE (rule R135) -/

/-- ENCODE_TABLE's pseudocode. -/
def encodeTableBody (s : State) : Result :=
  requireFlags [.ct] s fun s =>
    let s1 := { s with valid := s.valid.beforeEncodeTable }
    match encodeTable s1.enc.ct with
    | .error r => .raise r s1
    | .ok bytes => .finish { s1 with enc := { s1.enc with etab := bytes }, valid := { s1.valid with etab := true } }

/-- ENCODE_TABLE. -/
def execEncodeTable (s : State) : Host.Outcome State Fault Refusal := (encodeTableBody s).outcome

/-! ### PACK (rule R136) -/

/-- PACK's loops: the whole input packed, the last partial byte flushed. -/
def packAll (s : State) (n : Nat) : Except Stop PackState :=
  match packInput s n 0 PackState.start with
  | .error e => .error e
  | .ok p => packFlush s.obufSize n p

/-- PACK's pseudocode. -/
def packBody (s : State) : Result :=
  requireFlags [.ct] s fun s =>
    let s1 := { s with valid := s.valid.beforePack }
    Result.afterLoop (packAll s1 s1.enc.ftLen.toNat) s1 fun p =>
      .finish { s1 with
        enc := { s1.enc with pbuf := p.bytes, totalBits := BitVec.ofNat 64 p.bits }
        valid := { s1.valid with pbuf := true } }

/-- PACK. -/
def execPack (s : State) : Host.Outcome State Fault Refusal := (packBody s).outcome

/-! ### WRITE_CONTAINER (rule R137) -/

/-- WRITE_CONTAINER's pseudocode. OUT_LEN was set to 0 at acceptance (rule R202). -/
def writeContainerBody (s : State) : Result :=
  requireFlags [.etab, .pbuf] s fun s =>
    let total := 16 + s.enc.etab.length + s.enc.pbuf.length
    if s.obufSize < total then .raise { kind := .outputOverflow, detail := 2#8 } s
    else
      .finish { s with
        obuf := s.obuf.writeBytes 0 (containerBytes s.enc.ftLen s.enc.etab s.enc.pbuf)
        outLen := BitVec.ofNat 32 total }

/-- WRITE_CONTAINER. -/
def execWriteContainer (s : State) : Host.Outcome State Fault Refusal := (writeContainerBody s).outcome

/-! ### COMPRESS (rule R138) -/

/-- COMPRESS's pseudocode: the six steps in order. -/
def compressBody (s : State) : Result :=
  (((((freqBody s).andThen buildTreeBody).andThen deriveCodesBody).andThen encodeTableBody).andThen packBody).andThen
    writeContainerBody

/-- COMPRESS. -/
def execCompress (s : State) : Host.Outcome State Fault Refusal := (compressBody s).outcome

end Sys2Proof.Machine
end

