-- ==== Sys2Proof/Machine/Dispatch.lean ====
section
/-! DEFINITION. The meaning of each command: the engine's end step of it (spec/42_control.md rule R209). -/

namespace Sys2Proof.Machine

def exec (i : Instr) (s : State) : Host.Outcome State Fault Refusal :=
  match i with
  | .nop => Sys2Proof.Machine.execNop s
  | .compress => Sys2Proof.Machine.execCompress s
  | .decompress => Sys2Proof.Machine.execDecompress s
  | .freq => Sys2Proof.Machine.execFreq s
  | .buildTree => Sys2Proof.Machine.execBuildTree s
  | .deriveCodes => Sys2Proof.Machine.execDeriveCodes s
  | .encodeTable => Sys2Proof.Machine.execEncodeTable s
  | .pack => Sys2Proof.Machine.execPack s
  | .writeContainer => Sys2Proof.Machine.execWriteContainer s
  | .readContainer => Sys2Proof.Machine.execReadContainer s
  | .decodeTable => Sys2Proof.Machine.execDecodeTable s
  | .rebuildTree => Sys2Proof.Machine.execRebuildTree s
  | .unpack => Sys2Proof.Machine.execUnpack s
  | .clear => Sys2Proof.Machine.execClear s

end Sys2Proof.Machine
end

