-- ==== Sys2Proof/Machine/Engine.lean ====
section
/-! DEFINITION. The engine's turn and what each event does. -/

namespace Sys2Proof.Machine

/-- The engine takes the end step of the command in progress (rule R209); when it is idle it does nothing (rule R238). -/
def engineTurn (s : State) : Host.Outcome State Fault Refusal :=
  match s.seq with
  | .idle => .next s
  | .busy =>
    match decode s.cmdWord with
    | .ok i => exec i s
    | .error r => execIllegal r s

/-- One event happens. -/
def happen (e : Event) (s : State) : Host.Outcome State Fault Refusal :=
  match e with
  | .read ap width off => hostRead ap width off s
  | .write ap width off v => hostWrite ap width off v s
  | .engine => engineTurn s
  | .resetAssert => .next s.assertReset
  | .resetRelease => .next s.releaseReset
  | .powerOn => .next s.applyPower

end Sys2Proof.Machine
end

