-- ==== Sys2Proof/Machine/Step.lean ====
section
/-! DEFINITION. One step of the block: its next pending event happens. -/

namespace Sys2Proof.Machine

/-- The next pending event is taken from `inputs` and happens. With none pending the engine takes its turn, so that an accepted
command ends (rule R263) and an idle block keeps all state (rule R238). -/
def step (s : State) : Host.Outcome State Fault Refusal :=
  match s.inputs with
  | [] => engineTurn s
  | e :: rest => happen e { s with inputs := rest }

/-- The state in which the command word of a table row has just been accepted (rule R202) and the engine's turn comes next, so
that the next step runs it. The block fetches nothing (rule R82): this stands for the host's CMD write (log entry 7). -/
def State.withFetchWord (s : State) (nbits w : Nat) : State :=
  { s.accept (tableWord nbits w) with inputs := .engine :: s.inputs }

end Sys2Proof.Machine
end

