-- ==== Sys2Proof/Safety.lean ====
section
/-! DEFINITION. The terms the claims use: what a tree's leaves, weights and sizes are, what a set of codes must satisfy, and the
invariants that every step keeps. -/

namespace Sys2Proof.Machine

/-! ### Trees -/

/-- The symbol of the leaf at the end of a path, followed from the root (rule R132: bit 0 is left, bit 1 right). -/
def ETree.leafAt : ETree → Code → Option Symbol
  | .leaf s _, [] => some s
  | .leaf _ _, _ :: _ => none
  | .node _ _ _, [] => none
  | .node _ l _, false :: c => l.leafAt c
  | .node _ _ r, true :: c => r.leafAt c
  | .single _ _, [] => none
  | .single _ l, false :: c => l.leafAt c
  | .single _ _, true :: _ => none

/-- `w(t)`, the weight of a tree's root (rule R13). -/
def ETree.weight : ETree → Word
  | .leaf _ w => w
  | .node w _ _ => w
  | .single w _ => w

/-- The weights of rule R128, below and at a node; a sum is the exact one, so it fits a u32. -/
def ETree.WeightsFrom (t : FreqTable) : ETree → Prop
  | .leaf s w => w = freqAt t s ∧ w ≠ 0#32
  | .node w l r => w.toNat = l.weight.toNat + r.weight.toNat ∧ l.WeightsFrom t ∧ r.WeightsFrom t
  | .single w l => w = l.weight ∧ l.WeightsFrom t

/-- How many leaves a tree has. -/
def ETree.leafCount : ETree → Nat
  | .leaf _ _ => 1
  | .node _ l r => l.leafCount + r.leafCount
  | .single _ l => l.leafCount

/-- How many internal nodes a tree has. -/
def ETree.internalCount : ETree → Nat
  | .leaf _ _ => 0
  | .node _ l r => 1 + l.internalCount + r.internalCount
  | .single _ l => 1 + l.internalCount

/-- The decoder's tree of the same shape and symbols (rule R167). -/
def ETree.forget : ETree → DTree
  | .leaf s _ => .leaf s
  | .node _ l r => .node l.forget r.forget
  | .single _ l => .node l.forget .absent

/-- The position at the end of a path (`node of t at p`, rule R164). -/
def DTree.at : DTree → Code → DTree
  | t, [] => t
  | t, b :: c => (t.child b).at c

/-- The position is a DNode. -/
def DTree.IsNode : DTree → Prop
  | .absent => False
  | .leaf _ => False
  | .node _ _ => True

/-! ### Codes -/

/-- "a set of bit sequences where no sequence is a prefix of another" (rule R16), for the codes of a table's entries. -/
def PrefixFree (entries : List (Symbol × Code)) : Prop :=
  entries.Pairwise fun e f => ¬ e.2 <+: f.2 ∧ ¬ f.2 <+: e.2

/-- The entries REBUILD_TREE accepts (rule R164): distinct symbols, no empty code, a prefix code. -/
def GoodEntries (entries : List (Symbol × Code)) : Prop :=
  (entries.map Prod.fst).Nodup ∧ (∀ e ∈ entries, e.2 ≠ []) ∧ PrefixFree entries

/-- The bits PACK places for a buffer (rule R106): its bytes' codes one after another. -/
def codeBits (t : CodeTable) (bytes : List Byte) : List Bool := bytes.flatMap fun b => (codeAt t b).getD []

/-- The sum of a table's counts, as a natural number. -/
def freqSum (t : FreqTable) : Nat := (allSymbols.map fun s => (freqAt t s).toNat).sum

/-! ### The merges of BUILD_TREE -/

/-- The order of rule R125 as a relation. -/
def queueOrder (x y : QNode) : Prop :=
  x.weight.toNat < y.weight.toNat ∨ (x.weight = y.weight ∧ x.key < y.key)

/-- The collection rule R127 starts from, in no order that matters: the leaf of each symbol present, with the symbol as key. -/
def presentLeaves (t : FreqTable) : List QNode :=
  (allSymbols.filter fun b => freqAt t b != 0#32).map fun b => ⟨freqAt t b, b.toNat, .leaf b (freqAt t b)⟩

/-- The loop of rule R127 on a collection, after `m` merges: a merge removes the lowest node x, then the lowest remaining node y,
and puts in their sum with key 256 + m, x left and y right (rule R126); one node left is the tree. -/
inductive MergesTo : Nat → List QNode → ETree → Prop where
  | done (m : Nat) (x : QNode) : MergesTo m [x] x.tree
  | merge {m : Nat} {x y : QNode} {q rest : List QNode} {w : Word} {tree : ETree} : q.Perm (x :: y :: rest) →
      queueOrder x y → (∀ z ∈ rest, queueOrder y z) → w.toNat = x.weight.toNat + y.weight.toNat →
      MergesTo (m + 1) (⟨w, 256 + m, .node w x.tree y.tree⟩ :: rest) tree → MergesTo m q tree

/-- What stands after `m` merges of leaves whose weights sum to `total`: priority order, every key below 256 + m, the same
total. -/
structure MergeInv (total m : Nat) (q : List QNode) : Prop where
  sorted : q.Pairwise queueOrder
  keys : ∀ x ∈ q, x.key < 256 + m
  total : (q.map fun x => x.weight.toNat).sum = total

/-! ### Formats -/

/-- One entry of a serialized table as its bytes stand (rule R100): symbol, length, code bytes. -/
structure RawEntry where
  sym : Symbol
  len : Byte
  code : List Byte
deriving DecidableEq, Repr

/-- The entry's bytes in order. -/
def RawEntry.bytes (e : RawEntry) : List Byte := e.sym :: e.len :: e.code

/-- A length of 1 to 255 and that many code bits' bytes (rule R102). -/
def RawEntry.Complete (e : RawEntry) : Prop := 1 ≤ e.len.toNat ∧ e.code.length = (e.len.toNat + 7) / 8

/-- The symbol and the code of an entry: the first `len` bits of its code bytes (rule R103). -/
def RawEntry.entry (e : RawEntry) : Symbol × Code := (e.sym, unpackMSB e.len.toNat e.code)

/-- The container of rule R92, written out field by field. -/
def containerLayout (orig : Word) (table payload : List Byte) : List Byte :=
  [0x43#8, 0x43#8, 0x48#8, 0x46#8] ++ bytesLE32 orig ++ bytesLE32 (BitVec.ofNat 32 payload.length) ++
    bytesLE32 (BitVec.ofNat 32 table.length) ++ table ++ payload

/-- The sixteen header bytes of a container (rule R92). -/
def headerLayout (orig plen tlen : Word) : List Byte :=
  [0x43#8, 0x43#8, 0x48#8, 0x46#8] ++ bytesLE32 orig ++ bytesLE32 plen ++ bytesLE32 tlen

/-! ### Prerequisites and reports -/

/-- The state an error leaves: the capture of rule R223 written field by field, everything else as it was. -/
def State.captures (code detail : Byte) (offset : Word) (bit : BitVec 3) (s : State) : State :=
  { s with seq := .idle, err := true, errCode := code, errOffset := offset, errDetail := detail, errBit := bit }

/-- The VALID flags a command needs, in check order (spec/40_encoder.md rule R121, spec/41_decoder.md rule R160). -/
def needs : Instr → List ValidBit
  | .nop => []
  | .compress => []
  | .decompress => []
  | .freq => []
  | .buildTree => [.ft]
  | .deriveCodes => [.etree]
  | .encodeTable => [.ct]
  | .pack => [.ct]
  | .writeContainer => [.etab, .pbuf]
  | .readContainer => []
  | .decodeTable => [.hdr]
  | .rebuildTree => [.dtab]
  | .unpack => [.hdr, .dtree]
  | .clear => []

/-! ### Invariants -/

/-- Both buffers are in canonical form and hold bytes only inside their apertures (rules R60, R63, R64). -/
structure State.MemoryInv (s : State) : Prop where
  ibuf_wf : s.ibuf.wf = true
  obuf_wf : s.obuf.wf = true
  ibuf_below : s.ibuf.below s.ibufSize = true
  obuf_below : s.obuf.below s.obufSize = true

/-- STATUS, the capture registers and OUT_LEN as their rules say they stand (rules R29 to R38, R202, R220, R250). -/
structure State.StatusInv (s : State) : Prop where
  /-- While a command runs, nothing is reported (rule R202 and the host's write-1-to-clear). -/
  busy_quiet : s.seq = .busy →
    s.done = false ∧ s.err = false ∧ s.errCode = 0#8 ∧ s.errOffset = 0#32 ∧ s.errDetail = 0#8 ∧ s.errBit = 0#3
  /-- While a command that writes OBUF runs, OUT_LEN is 0 (rule R36). -/
  busy_outLen : s.seq = .busy → commandWritesObuf s.cmdWord = true → s.outLen = 0#32
  /-- "DONE and ERR are never both 1 as a result of one command" (rule R31). -/
  done_or_err : ¬ (s.done = true ∧ s.err = true)
  /-- ERR stands beside a raised code. -/
  err_code : s.err = true → s.errCode ≠ 0#8
  /-- Codes 7 and 14 to 255 are never raised (rule R220). -/
  code_listed : s.errCode.toNat ∈ [0, 1, 2, 3, 4, 5, 6, 8, 9, 10, 11, 12, 13]
  /-- The output lies inside OBUF (rule R64). -/
  outLen_le : s.outLen.toNat ≤ s.obufSize
  /-- No command runs while the reset input is asserted (rule R253). -/
  reset_idle : s.inReset = true → s.seq = .idle

/-- What a VALID flag of 1 says of its product (rules R40 and R46 to R53). -/
structure State.ProductInv (s : State) : Prop where
  etree_ft : s.valid.etree = true → s.valid.ft = true
  ct_etree : s.valid.ct = true → s.valid.etree = true
  etab_ct : s.valid.etab = true → s.valid.ct = true
  pbuf_ct : s.valid.pbuf = true → s.valid.ct = true
  dtab_hdr : s.valid.dtab = true → s.valid.hdr = true
  dtree_dtab : s.valid.dtree = true → s.valid.dtab = true
  ft_sum : s.valid.ft = true → freqSum s.enc.ft = s.enc.ftLen.toNat
  ft_len : s.valid.ft = true → 1 ≤ s.enc.ftLen.toNat ∧ s.enc.ftLen.toNat ≤ s.ibufSize
  etree_built : s.valid.etree = true → buildTree s.enc.ft = some s.enc.etree
  ct_derived : s.valid.ct = true → s.enc.ct = deriveCodes s.enc.etree
  etab_encoded : s.valid.etab = true → encodeTable s.enc.ct = .ok s.enc.etab
  pbuf_len : s.valid.pbuf = true →
    s.enc.pbuf.length = ceilDiv8 s.enc.totalBits.toNat ∧ s.enc.pbuf.length ≤ s.obufSize
  hdr_fits : s.valid.hdr = true → 16 + s.dec.hdrTlen.toNat + s.dec.hdrPlen.toNat ≤ s.ibufSize
  dtab_decl : s.valid.dtab = true → 1 ≤ s.dec.decl ∧ s.dec.decl ≤ 256 ∧ s.dec.dtab.length ≤ s.dec.decl
  dtab_codes : s.valid.dtab = true → ∀ e ∈ s.dec.dtab, 1 ≤ e.2.length ∧ e.2.length ≤ 255
  dtree_rebuilt : s.valid.dtree = true → rebuildTree s.dec.dtab = .ok s.dec.dtree

end Sys2Proof.Machine
end

