-- ==== Sys2Proof/Certificates/Slice0/Obligations.lean ====
section
/-! DEFINITION. The statements for the provers. Each one's docstring names the rules of spec/ it rests on, and the log entry
where a clause is the model's choice. A state written `{ s with … }` says the frame too: whatever is not named there is
unchanged. That a product whose VALID flag is 0 keeps its old value there is log entry 4's choice; no command reads it and no
register shows it. -/

open Sys2Proof
open Sys2Proof.Machine

/-! ### Encoding and the lifecycle of a command -/

/-- Rule R88's table: each command and its word. -/
def hcmdOpcodeMap : List (Instr × Word) :=
  [(.nop, 0x00000000#32), (.compress, 0x00000001#32), (.decompress, 0x00000002#32), (.freq, 0x00000010#32),
   (.buildTree, 0x00000011#32), (.deriveCodes, 0x00000012#32), (.encodeTable, 0x00000013#32), (.pack, 0x00000014#32),
   (.writeContainer, 0x00000015#32), (.readContainer, 0x00000020#32), (.decodeTable, 0x00000021#32),
   (.rebuildTree, 0x00000022#32), (.unpack, 0x00000023#32), (.clear, 0x00000030#32)]

/-- The values of OP that rule R206 excepts. -/
def hcmdOpcodes : List Nat :=
  [0x00, 0x01, 0x02, 0x10, 0x11, 0x12, 0x13, 0x14, 0x15, 0x20, 0x21, 0x22, 0x23, 0x30]

/-- Rules R88 and R89: over all 2^32 words, a word decodes to a command exactly when the table has it, the encoder writes the
table's word, and the table has 14 different words; every other word is rejected by its reason, reserved bits first. -/
def Obligations.DecodeAndEncodeFollowTheOpcodeMap : Prop :=
  (∀ (w : Word) (i : Instr), decode w = .ok i ↔ (i, w) ∈ hcmdOpcodeMap) ∧
  (∀ i : Instr, (i, encode i) ∈ hcmdOpcodeMap ∧ decode (encode i) = .ok i) ∧
  (hcmdOpcodeMap.map Prod.snd).Nodup ∧ hcmdOpcodeMap.length = 14 ∧
  (∀ w : Word, decode w = .error .reservedBits ↔ 256 ≤ w.toNat) ∧
  (∀ w : Word, decode w = .error .unassignedOpcode ↔ w.toNat < 256 ∧ w.toNat ∉ hcmdOpcodes)

/-- Rule R88, and the vectors K5 and K7 of spec/95_test_vectors.md: a few words decoded as the table numbers them. -/
def Obligations.SampleWordsDecode : Prop :=
  decodeTableWord 32 0x00000000 = some .nop ∧ decodeTableWord 32 0x00000001 = some .compress ∧
  decodeTableWord 32 0x00000014 = some .pack ∧ decodeTableWord 32 0x00000023 = some .unpack ∧
  decodeTableWord 32 0x00000110 = none ∧ decodeTableWord 32 0x00000016 = none ∧ decodeTableWord 32 0xFFFFFFFF = none

/-- Rules R200, R209 and R238: when the word in progress decodes to `i`, the engine's turn is `exec i`; while idle, its turn keeps
all state. The model's choices: that the turns are events of a list, and that the turn comes by itself when the list is empty (log
entry 2); that `withFetchWord` stands for the CMD write, so the word it places runs in the very next step (log entry 7); and
that the word is the table's bits as they are numbered (log entry 15). -/
def Obligations.StepRunsTheDecodedCommand : Prop :=
  (∀ (s : State) (i : Instr) (rest : List Event), s.seq = .busy → decode s.cmdWord = .ok i → s.inputs = .engine :: rest →
    step s = exec i { s with inputs := rest }) ∧
  (∀ (s : State) (i : Instr), s.seq = .busy → decode s.cmdWord = .ok i → s.inputs = [] → step s = exec i s) ∧
  (∀ (s : State) (rest : List Event), s.seq = .idle → s.inputs = .engine :: rest → step s = .next { s with inputs := rest }) ∧
  (∀ s : State, s.seq = .idle → s.inputs = [] → step s = .next s) ∧
  (∀ (s : State) (i : Instr) (nbits w : Nat), decodeTableWord nbits w = some i →
    step (s.withFetchWord nbits w) = exec i (s.accept (tableWord nbits w)))

/-- Rules R200 to R202: a CMD write is accepted when the block is idle, with the acceptance effects and no other, and dropped
when it is busy, setting DROPPED and nothing else. -/
def Obligations.CommandWriteIsAcceptedOrDropped : Prop :=
  ∀ (s : State) (w : Word) (rest : List Event), s.inReset = false → s.inputs = .write .csr .w32 0x010 w :: rest →
    (s.seq = .idle →
      step s = .next { s with
        inputs := rest, bus := .written, seq := .busy, cmdWord := w, done := false, err := false, errCode := 0#8,
        errOffset := 0#32, errDetail := 0#8, errBit := 0#3,
        outLen := if w ∈ [0x00000001#32, 0x00000002#32, 0x00000015#32, 0x00000023#32] then 0#32 else s.outLen }) ∧
    (s.seq = .busy → step s = .next { s with inputs := rest, bus := .written, dropped := true })

/-- Rule R206: an illegal word written while idle is accepted and, at the engine's turn, ends with IllegalCommand (code 8), the
word as the offset and detail 1 for reserved bits, else 2; no VALID flag, OUT_LEN or buffer changes. -/
def Obligations.IllegalWordEndsWithIllegalCommand : Prop :=
  ∀ (s : State) (w : Word) (rest : List Event), s.inReset = false → s.seq = .idle →
    s.inputs = .write .csr .w32 0x010 w :: .engine :: rest → (256 ≤ w.toNat ∨ w.toNat ∉ hcmdOpcodes) →
    ∃ t, step s = .next t ∧
      step t = .next { s with
        inputs := rest, bus := .written, cmdWord := w, seq := .idle, done := false, err := true, errCode := 8#8,
        errOffset := w, errDetail := if 256 ≤ w.toNat then 1#8 else 2#8, errBit := 0#3 }

/-- Rules R203, R223 and R225: a command that ends does so in one of two ways, each leaving the block idle. -/
def Obligations.EveryCommandFinishesOrRaises : Prop :=
  ∀ (i : Instr) (s t : State), exec i s = .next t → t.seq = .idle ∧
    ((t.done = true ∧ t.err = s.err ∧ t.errCode = s.errCode ∧ t.errOffset = s.errOffset ∧ t.errDetail = s.errDetail ∧
        t.errBit = s.errBit) ∨
     (t.err = true ∧ t.done = s.done ∧ t.errCode.toNat ∈ [1, 2, 3, 4, 5, 6, 9, 10, 11, 12, 13] ∧
        (t.outLen = s.outLen)))

/-- Rules R209 and R263: with the pending events used up and one more step, no command is left running. That the one more step is
the engine's turn, so that it ends the command, is the model's choice (log entry 2); the rules say only that the end step is
eventually taken. -/
def Obligations.NoCommandRunsForEver : Prop :=
  ∀ s t : State, Sys2Proof.core.run (s.inputs.length + 1) s = .next t → t.seq = .idle

/-! ### Frames over all commands -/

/-- Rules R34, R35, R55, R61 and R202: what no command changes. -/
def Obligations.NoCommandChangesTheHostsState : Prop :=
  ∀ (i : Instr) (s t : State), exec i s = .next t →
    t.params = s.params ∧ t.inReset = s.inReset ∧ t.cmdWord = s.cmdWord ∧ t.irqEn = s.irqEn ∧ t.dropped = s.dropped ∧
    t.inLen = s.inLen ∧ (∀ a, t.ibuf.read a = s.ibuf.read a) ∧ t.ibuf = s.ibuf ∧ t.obufLost = s.obufLost ∧
    t.inputs = s.inputs ∧ t.bus = s.bus ∧ t.draws = s.draws

/-- Rules R120 to R122, R137, R160, R204 and R205, however the command ends: the products it does not compute stay, and so do
the VALID flags it neither invalidates nor sets. -/
def Obligations.CommandsWriteOnlyTheirOwnProducts : Prop :=
  ∀ s t : State,
    (exec .nop s = .next t → t.enc = s.enc ∧ t.dec = s.dec ∧ t.valid = s.valid) ∧
    (exec .clear s = .next t → t.enc = s.enc ∧ t.dec = s.dec) ∧
    (exec .freq s = .next t → t.dec = s.dec ∧ t.enc = { s.enc with ft := t.enc.ft, ftLen := t.enc.ftLen } ∧
      t.valid = { s.valid with ft := t.valid.ft, etree := false, ct := false, etab := false, pbuf := false }) ∧
    (exec .buildTree s = .next t → t.dec = s.dec ∧ t.enc = { s.enc with etree := t.enc.etree } ∧
      (s.valid.ft = true →
        t.valid = { s.valid with etree := t.valid.etree, ct := false, etab := false, pbuf := false })) ∧
    (exec .deriveCodes s = .next t → t.dec = s.dec ∧ t.enc = { s.enc with ct := t.enc.ct } ∧
      (s.valid.etree = true → t.valid = { s.valid with ct := t.valid.ct, etab := false, pbuf := false })) ∧
    (exec .encodeTable s = .next t → t.dec = s.dec ∧ t.enc = { s.enc with etab := t.enc.etab } ∧
      t.valid = { s.valid with etab := t.valid.etab }) ∧
    (exec .pack s = .next t →
      t.dec = s.dec ∧ t.enc = { s.enc with pbuf := t.enc.pbuf, totalBits := t.enc.totalBits } ∧
      t.valid = { s.valid with pbuf := t.valid.pbuf }) ∧
    (exec .writeContainer s = .next t → t.dec = s.dec ∧ t.enc = s.enc ∧ t.valid = s.valid) ∧
    (exec .compress s = .next t → t.dec = s.dec ∧ t.valid.hdr = s.valid.hdr ∧ t.valid.dtab = s.valid.dtab ∧
      t.valid.dtree = s.valid.dtree) ∧
    (exec .readContainer s = .next t → t.enc = s.enc ∧
      t.dec = { s.dec with hdrOrig := t.dec.hdrOrig, hdrPlen := t.dec.hdrPlen, hdrTlen := t.dec.hdrTlen } ∧
      t.valid = { s.valid with hdr := t.valid.hdr, dtab := false, dtree := false }) ∧
    (exec .decodeTable s = .next t → t.enc = s.enc ∧
      t.dec = { s.dec with dtab := t.dec.dtab, decl := t.dec.decl } ∧
      (s.valid.hdr = true → t.valid = { s.valid with dtab := t.valid.dtab, dtree := false })) ∧
    (exec .rebuildTree s = .next t → t.enc = s.enc ∧ t.dec = { s.dec with dtree := t.dec.dtree } ∧
      t.valid = { s.valid with dtree := t.valid.dtree }) ∧
    (exec .unpack s = .next t → t.enc = s.enc ∧ t.dec = s.dec ∧ t.valid = s.valid) ∧
    (exec .decompress s = .next t → t.enc = s.enc ∧
      t.valid = { s.valid with hdr := t.valid.hdr, dtab := t.valid.dtab, dtree := t.valid.dtree })

/-- Rules R36, R62, R73 and R205: a command that does not write OBUF leaves every OBUF byte, and all but CLEAR leave OUT_LEN. -/
def Obligations.NonStoringCommandsLeaveObuf : Prop :=
  ∀ (i : Instr) (s t : State),
    i ∈ [Instr.nop, .clear, .freq, .buildTree, .deriveCodes, .encodeTable, .pack, .readContainer, .decodeTable,
      .rebuildTree] →
    exec i s = .next t →
    (∀ a, t.obuf.read a = s.obuf.read a) ∧ (∀ a, t.obufByte a = s.obufByte a) ∧ (i ≠ .clear → t.outLen = s.outLen)

/-- The bytes UNPACK's walk decodes, the ones it stores at OBUF[0..): all of the output, or what came before CorruptBitstream. -/
def decodedBytes (s : State) : List Byte :=
  match walkPayload s s.dec.dtree s.dec.hdrOrig.toNat (16 + s.dec.hdrTlen.toNat) s.dec.hdrPlen.toNat 0 s.dec.dtree [] with
  | .complete out => out
  | .corrupt _ out => out
  | .stopped _ => []

/-- Rules R64, R137, R138, R165, R166 and R228: the storing commands write OBUF from offset 0 only, and no byte past what they
store changes. WRITE_CONTAINER and COMPRESS store a whole container when they finish and nothing when they raise; UNPACK and
DECOMPRESS store the decoded bytes. -/
def Obligations.StoringCommandsLeaveTheRestOfObuf : Prop :=
  ∀ s t : State, s.done = false →
    (∀ i ∈ [Instr.writeContainer, .compress], exec i s = .next t →
      (t.done = true → ∀ a, 16 + t.enc.etab.length + t.enc.pbuf.length ≤ a → t.obuf.read a = s.obuf.read a) ∧
      (t.done = false → ∀ a, t.obuf.read a = s.obuf.read a)) ∧
    (∀ i ∈ [Instr.unpack, .decompress], exec i s = .next t →
      (∀ a, (decodedBytes t).length ≤ a → t.obuf.read a = s.obuf.read a) ∧
      (t.done = false → t.errCode ≠ 6#8 → ∀ a, t.obuf.read a = s.obuf.read a))

/-! ### Control commands and prerequisites -/

/-- Rules R204 and R205: NOP finishes and changes nothing else, and raises the interrupt when it is enabled; CLEAR finishes with
every VALID flag and OUT_LEN at 0, and every register of rules R41 to R44 then reads 0. -/
def Obligations.NopAndClearFinish : Prop :=
  ∀ s : State,
    exec .nop s = .next { s with seq := .idle, done := true } ∧
    (s.irqEn = true → ∃ t, exec .nop s = .next t ∧ t.irq = true) ∧
    ∃ t, exec .clear s = .next t ∧
      t = { s with
        seq := .idle, done := true, outLen := 0#32,
        valid := { ft := false, etree := false, ct := false, etab := false, pbuf := false, hdr := false, dtab := false,
                   dtree := false } } ∧
      ∀ off, 0x028 ≤ off → csrRead t off = 0#32

/-- Rules R121 and R160: the first missing flag raises SequenceError (code 9) with its bit number plus 1 as the detail, and
nothing else changes. -/
def Obligations.MissingFlagRaisesSequenceError : Prop :=
  ∀ (i : Instr) (before after : List ValidBit) (b : ValidBit) (s : State),
    needs i = before ++ b :: after → (∀ p ∈ before, s.valid.get p = true) → s.valid.get b = false →
    exec i s = .next (s.captures 9#8 (BitVec.ofNat 8 (b.number + 1)) 0#32 0#3)

/-! ### FREQ, BUILD_TREE, DERIVE_CODES -/

/-- Rule R123: FREQ counts the input, or raises LengthRange (code 13) or EmptyInput (code 1). -/
def Obligations.FreqCountsTheInput : Prop :=
  ∀ s : State,
    let cleared : Valid := { s.valid with ft := false, etree := false, ct := false, etab := false, pbuf := false }
    (∀ input : List Byte, 1 ≤ s.inLen.toNat → s.inLen.toNat ≤ s.ibufSize →
      s.ibuf.readBytes 0 s.inLen.toNat = some input →
      ∃ counts : FreqTable, (∀ b : Symbol, freqAt counts b = BitVec.ofNat 32 (input.count b)) ∧
        exec .freq s = .next { s with
          seq := .idle, done := true, valid := { cleared with ft := true },
          enc := { s.enc with ft := counts, ftLen := s.inLen } }) ∧
    (s.ibufSize < s.inLen.toNat → exec .freq s = .next ({ s with valid := cleared }.captures 13#8 0#8 0#32 0#3)) ∧
    (s.inLen.toNat = 0 → exec .freq s = .next ({ s with valid := cleared }.captures 1#8 0#8 0#32 0#3))

/-- Rule R124: when FREQ finishes the counts sum to the input's length, and no command but FREQ, COMPRESS which runs it, and
CLEAR changes them afterwards. -/
def Obligations.FreqCountsSumToTheLength : Prop :=
  ∀ s t : State,
    (exec .freq s = .next t → t.valid.ft = true →
      freqSum t.enc.ft = t.enc.ftLen.toNat ∧ t.enc.ftLen = s.inLen) ∧
    (∀ i : Instr, i ≠ .freq → i ≠ .compress → i ≠ .clear → exec i s = .next t → t.enc.ft = s.enc.ft ∧ t.enc.ftLen = s.enc.ftLen)

/-- Rules R127 and R131: with any symbol present BUILD_TREE finishes with the tree built from the counts; a single symbol's
tree is a root with that leaf as its only child. -/
def Obligations.BuildTreeFinishes : Prop :=
  ∀ s : State, s.valid.ft = true → (∃ b : Symbol, freqAt s.enc.ft b ≠ 0#32) →
    ∃ tree : ETree,
      buildTree s.enc.ft = some tree ∧
      (∀ b : Symbol, freqAt s.enc.ft b ≠ 0#32 → (∀ c : Symbol, c ≠ b → freqAt s.enc.ft c = 0#32) →
        tree = .single (freqAt s.enc.ft b) (.leaf b (freqAt s.enc.ft b))) ∧
      exec .buildTree s = .next { s with
        seq := .idle, done := true, enc := { s.enc with etree := tree },
        valid := { s.valid with etree := true, ct := false, etab := false, pbuf := false } }

/-- Rules R125 to R127: BUILD_TREE's collection starts as the leaves of the symbols present; it is in priority order, its keys
stay below 256 + m and its total stays the counts' sum through every merge, so the two nodes a merge takes from its front are the
lowest; a merge joins them with the lowest left. With two symbols or more BUILD_TREE's tree is the loop's on that collection, the
same tree the rule's own removals and insertions give. Sums at 2^32 and more are excluded by a premise (log entry 12). -/
def Obligations.MergesTakeTheTwoLowest : Prop :=
  (∀ t : FreqTable, MergeInv (freqSum t) 0 (initialQueue t) ∧ (initialQueue t).Perm (presentLeaves t)) ∧
  (∀ (x : QNode) (q : List QNode), (enqueue x q).Perm (x :: q) ∧
    (q.Pairwise queueOrder → (∀ y ∈ q, y.key ≠ x.key) → (enqueue x q).Pairwise queueOrder)) ∧
  (∀ (total m : Nat) (x y : QNode) (q : List QNode), total < 2 ^ 32 → MergeInv total m (x :: y :: q) →
    (x.weight + y.weight).toNat = x.weight.toNat + y.weight.toNat ∧ (∀ z ∈ y :: q, queueOrder x z) ∧
    (∀ z ∈ q, queueOrder y z) ∧
    MergeInv total (m + 1) (enqueue ⟨x.weight + y.weight, 256 + m, .node (x.weight + y.weight) x.tree y.tree⟩ q)) ∧
  (∀ (fuel m : Nat) (x y : QNode) (q : List QNode),
    mergeLoop (fuel + 1) m (x :: y :: q) =
      mergeLoop fuel (m + 1)
        (enqueue ⟨x.weight + y.weight, 256 + m, .node (x.weight + y.weight) x.tree y.tree⟩ q)) ∧
  (∀ t : FreqTable, 2 ≤ countPresent t → buildTree t = mergeLoop (initialQueue t).length 0 (initialQueue t)) ∧
  (∀ s : State, s.valid.ft = true → 2 ≤ countPresent s.enc.ft → freqSum s.enc.ft < 2 ^ 32 →
    ∃ tree : ETree, MergesTo 0 (presentLeaves s.enc.ft) tree ∧ buildTree s.enc.ft = some tree ∧
      exec .buildTree s = .next { s with
        seq := .idle, done := true, enc := { s.enc with etree := tree },
        valid := { s.valid with etree := true, ct := false, etab := false, pbuf := false } })

/-- Rule R128: every leaf carries its symbol's count, which is not 0, every internal node the sum below it, and the root the sum
of all counts: FT_LEN, under the invariant `State.ProductInv`. The first clause is about the tables whose counts' sum fits a u32,
as every table FREQ makes does; the second needs no such premise. -/
def Obligations.TreeWeightsAreTheCounts : Prop :=
  (∀ (t : FreqTable) (tree : ETree), freqSum t < 2 ^ 32 → buildTree t = some tree →
    tree.WeightsFrom t ∧ tree.weight.toNat = freqSum t) ∧
  (∀ s : State, s.ProductInv → s.valid.etree = true →
    s.enc.etree.WeightsFrom s.enc.ft ∧ s.enc.etree.weight = s.enc.ftLen)

/-- Rule R129: with N symbols present the tree has N leaves, and N − 1 internal nodes when N ≥ 2; every leaf lies 1 to 255 deep,
at most N − 1 when N ≥ 2 and exactly 1 when N = 1. -/
def Obligations.TreeDepthIsBounded : Prop :=
  ∀ (t : FreqTable) (tree : ETree), buildTree t = some tree →
    tree.leafCount = countPresent t ∧
    (2 ≤ countPresent t → tree.internalCount = countPresent t - 1) ∧
    ∀ (c : Code) (b : Symbol), tree.leafAt c = some b →
      1 ≤ c.length ∧ c.length ≤ 255 ∧ (2 ≤ countPresent t → c.length ≤ countPresent t - 1) ∧
      (countPresent t = 1 → c.length = 1)

/-- Rules R132 and R134: DERIVE_CODES finishes, and a symbol's code is exactly the path of its leaf. The hypothesis is that no
symbol has two leaves, which holds of every tree BUILD_TREE makes. -/
def Obligations.DeriveCodesRecordsThePaths : Prop :=
  ∀ s : State, s.valid.etree = true →
    (∀ (c d : Code) (b : Symbol), s.enc.etree.leafAt c = some b → s.enc.etree.leafAt d = some b → c = d) →
    ∃ codes : CodeTable,
      (∀ (b : Symbol) (c : Code), codeAt codes b = some c ↔ s.enc.etree.leafAt c = some b) ∧
      exec .deriveCodes s = .next { s with
        seq := .idle, done := true, enc := { s.enc with ct := codes },
        valid := { s.valid with ct := true, etab := false, pbuf := false } }

/-- Rule R133: after DERIVE_CODES, exactly the symbols present have codes, no code is a prefix of another, and the lengths
fill the code space (half of it for a single symbol). The hypothesis is the invariant `State.ProductInv`. -/
def Obligations.DerivedCodesAreAPrefixCode : Prop :=
  ∀ s t : State, s.ProductInv → exec .deriveCodes s = .next t → t.valid.ct = true →
    (∀ b : Symbol, (codeAt t.enc.ct b).isSome = true ↔ freqAt t.enc.ft b ≠ 0#32) ∧
    PrefixFree (tableEntries t.enc.ct) ∧
    (∀ (b c : Symbol) (x y : Code), b ≠ c → codeAt t.enc.ct b = some x → codeAt t.enc.ct c = some y → ¬ x <+: y) ∧
    ((tableEntries t.enc.ct).map fun e => (1 / 2 : ℚ) ^ e.2.length).sum = (if countPresent t.enc.ft = 1 then 1 / 2 else 1) ∧
    (∀ (b : Symbol) (c : Code), codeAt t.enc.ct b = some c → 1 ≤ c.length)

/-! ### ENCODE_TABLE, PACK, WRITE_CONTAINER, COMPRESS -/

/-- Rules R101 to R104 and R135: ENCODE_TABLE writes the count byte and one entry per symbol with a code, in ascending order. -/
def Obligations.EncodeTableSerializesTheCodes : Prop :=
  ∀ s : State, s.valid.ct = true → tableEntries s.enc.ct ≠ [] →
    (∀ e ∈ tableEntries s.enc.ct, 1 ≤ e.2.length ∧ e.2.length ≤ 255) →
    (∀ (b : Symbol) (c : Code), (b, c) ∈ tableEntries s.enc.ct ↔ codeAt s.enc.ct b = some c) ∧
    (tableEntries s.enc.ct).Pairwise (fun e f => e.1.toNat < f.1.toNat) ∧
    (tableEntries s.enc.ct).length ≤ 256 ∧
    exec .encodeTable s = .next { s with
      seq := .idle, done := true, valid := { s.valid with etab := true },
      enc := { s.enc with
        etab :=
          (if (tableEntries s.enc.ct).length = 256 then 0#8 else BitVec.ofNat 8 (tableEntries s.enc.ct).length) ::
            (tableEntries s.enc.ct).flatMap fun e => e.1 :: BitVec.ofNat 8 e.2.length :: packMSB e.2 } }

/-- Rule R135's corner cases, under the invariant `State.ProductInv`: with VALID.CT = 1 ENCODE_TABLE always finishes, so
InvalidTableSize and InvalidCodeLength never occur, and the table has 4 to 8705 bytes. -/
def Obligations.EncodeTableNeverRaisesAfterDeriveCodes : Prop :=
  ∀ s : State, s.ProductInv → s.valid.ct = true →
    ∃ table : List Byte, 4 ≤ table.length ∧ table.length ≤ 8705 ∧
      exec .encodeTable s = .next { s with
        seq := .idle, done := true, valid := { s.valid with etab := true }, enc := { s.enc with etab := table } }

/-- Rules R103, R106, R107 and R108: bit j of a packed sequence is bit 7 − (j mod 8) of byte j div 8, every other bit is 0, the
length is ⌈n / 8⌉, and unpacking takes the bits back. -/
def Obligations.BitsArePackedMostSignificantFirst : Prop :=
  (∀ bits : List Bool, (packMSB bits).length = (bits.length + 7) / 8 ∧
    (∀ (k m : Nat) (b : Byte), m < 8 → (packMSB bits)[k]? = some b →
      b.getLsbD (7 - m) = (bits[8 * k + m]?).getD false) ∧
    unpackMSB bits.length (packMSB bits) = bits) ∧
  (∀ (n : Nat) (bytes : List Byte), n ≤ 8 * bytes.length → (unpackMSB n bytes).length = n ∧
    ∀ j, j < n → (unpackMSB n bytes)[j]? = (bytes[j / 8]?).map fun b => b.getLsbD (7 - j % 8))

/-- Rules R106 to R108 and R136: PACK finishes with the packed codes of the input when every byte has a code and the payload
fits. -/
def Obligations.PackEncodesTheInput : Prop :=
  ∀ (s : State) (input : List Byte), s.valid.ct = true → s.enc.ftLen.toNat ≤ s.ibufSize →
    s.ibuf.readBytes 0 s.enc.ftLen.toNat = some input → (∀ b ∈ input, (codeAt s.enc.ct b).isSome = true) →
    ((codeBits s.enc.ct input).length + 7) / 8 ≤ s.obufSize →
    exec .pack s = .next { s with
      seq := .idle, done := true, valid := { s.valid with pbuf := true },
      enc := { s.enc with
        pbuf := packMSB (codeBits s.enc.ct input)
        totalBits := BitVec.ofNat 64 (codeBits s.enc.ct input).length } }

/-- Rules R136 and R224: PACK's errors, each at the input offset the rule names: NoCode (code 12) at the first byte without a
code; OutputOverflow (code 10, detail 1) at the byte whose bits fill a byte too many, or at the last byte for the final partial
one. -/
def Obligations.PackRaisesNoCodeOrOutputOverflow : Prop :=
  ∀ (s : State) (done : List Byte), s.valid.ct = true → s.enc.ftLen.toNat ≤ s.ibufSize →
    done.length ≤ s.enc.ftLen.toNat → s.ibuf.readBytes 0 done.length = some done →
    (∀ b ∈ done, (codeAt s.enc.ct b).isSome = true) → (codeBits s.enc.ct done).length / 8 ≤ s.obufSize →
    let s1 : State := { s with valid := { s.valid with pbuf := false } }
    (∀ b : Byte, done.length < s.enc.ftLen.toNat → s.ibuf.read done.length = some b → codeAt s.enc.ct b = none →
      exec .pack s = .next (s1.captures 12#8 0#8 (BitVec.ofNat 32 done.length) 0#3)) ∧
    (∀ (b : Byte) (c : Code), done.length < s.enc.ftLen.toNat → s.ibuf.read done.length = some b →
      codeAt s.enc.ct b = some c → s.obufSize < (codeBits s.enc.ct (done ++ [b])).length / 8 →
      exec .pack s = .next (s1.captures 10#8 1#8 (BitVec.ofNat 32 done.length) 0#3)) ∧
    (done.length = s.enc.ftLen.toNat → s.obufSize < ((codeBits s.enc.ct done).length + 7) / 8 →
      exec .pack s = .next (s1.captures 10#8 1#8 (BitVec.ofNat 32 (done.length - 1)) 0#3))

/-- Rules R92, R93 and R137: WRITE_CONTAINER stores the container at OBUF[0..) when it fits, and otherwise raises OutputOverflow
(code 10, detail 2) with OBUF unchanged. -/
def Obligations.WriteContainerStoresTheContainer : Prop :=
  ∀ s : State, s.valid.etab = true → s.valid.pbuf = true →
    let total := 16 + s.enc.etab.length + s.enc.pbuf.length
    (total ≤ s.obufSize →
      ∃ t, exec .writeContainer s = .next t ∧
        t = { s with seq := .idle, done := true, obuf := t.obuf, outLen := BitVec.ofNat 32 total } ∧
        ∀ a, t.obuf.read a =
          if a < total then (containerLayout s.enc.ftLen s.enc.etab s.enc.pbuf)[a]? else s.obuf.read a) ∧
    (s.obufSize < total → exec .writeContainer s = .next (s.captures 10#8 2#8 0#32 0#3))

/-- Rule R138: COMPRESS finishes when its container fits: the products are those of its steps and OBUF holds the container. -/
def Obligations.CompressWritesTheContainer : Prop :=
  ∀ (s : State) (input : List Byte), 1 ≤ s.inLen.toNat → s.inLen.toNat ≤ s.ibufSize →
    s.ibuf.readBytes 0 s.inLen.toNat = some input →
    ∃ (tree : ETree) (table : List Byte),
      buildTree (countSymbols input) = some tree ∧ encodeTable (deriveCodes tree) = .ok table ∧
      let bits := codeBits (deriveCodes tree) input
      let total := 16 + table.length + (packMSB bits).length
      (total ≤ s.obufSize →
        ∃ t, exec .compress s = .next t ∧
          t = { s with
            seq := .idle, done := true, outLen := BitVec.ofNat 32 total, obuf := t.obuf,
            valid := { s.valid with ft := true, etree := true, ct := true, etab := true, pbuf := true },
            enc := { ft := countSymbols input, ftLen := s.inLen, etree := tree, ct := deriveCodes tree, etab := table,
                     pbuf := packMSB bits, totalBits := BitVec.ofNat 64 bits.length } } ∧
          ∀ a, t.obuf.read a =
            if a < total then (containerLayout s.inLen table (packMSB bits))[a]? else s.obuf.read a)

/-- Rules R123, R136, R137 and R138: how COMPRESS raises: FREQ's LengthRange and EmptyInput with every encoder flag 0, PACK's
OutputOverflow (detail 1) with all but PBUF valid, WRITE_CONTAINER's (detail 2) with all five valid; OBUF is unchanged. -/
def Obligations.CompressRaisesTheStepsErrors : Prop :=
  ∀ s : State,
    let cleared : Valid := { s.valid with ft := false, etree := false, ct := false, etab := false, pbuf := false }
    (s.ibufSize < s.inLen.toNat → exec .compress s = .next ({ s with valid := cleared }.captures 13#8 0#8 0#32 0#3)) ∧
    (s.inLen.toNat = 0 → exec .compress s = .next ({ s with valid := cleared }.captures 1#8 0#8 0#32 0#3)) ∧
    (∀ input : List Byte, 1 ≤ s.inLen.toNat → s.inLen.toNat ≤ s.ibufSize →
      s.ibuf.readBytes 0 s.inLen.toNat = some input →
      ∃ (tree : ETree) (table : List Byte),
        buildTree (countSymbols input) = some tree ∧ encodeTable (deriveCodes tree) = .ok table ∧
        let payload := packMSB (codeBits (deriveCodes tree) input)
        (s.obufSize < payload.length →
          ∃ t, exec .compress s = .next t ∧ t.err = true ∧ t.errCode = 10#8 ∧ t.errDetail = 1#8 ∧ t.obuf = s.obuf ∧
            t.outLen = s.outLen ∧
            t.valid = { s.valid with ft := true, etree := true, ct := true, etab := true, pbuf := false }) ∧
        (payload.length ≤ s.obufSize → s.obufSize < 16 + table.length + payload.length →
          ∃ t, exec .compress s = .next t ∧ t.err = true ∧ t.errCode = 10#8 ∧ t.errDetail = 2#8 ∧ t.errOffset = 0#32 ∧
            t.obuf = s.obuf ∧ t.outLen = s.outLen ∧
            t.valid = { s.valid with ft := true, etree := true, ct := true, etab := true, pbuf := true }))

/-- Rule R139: the size accounting of a finished COMPRESS, read through the information registers and from OBUF. -/
def Obligations.CompressSizeAccounting : Prop :=
  ∀ s t : State, s.done = false → exec .compress s = .next t → t.done = true →
    (csrRead t 0x01C).toNat = 16 + (csrRead t 0x034).toNat + (csrRead t 0x038).toNat ∧
    t.obuf.readBytes 4 4 = some (bytesLE32 s.inLen) ∧
    t.obuf.readBytes 8 4 = some (bytesLE32 (BitVec.ofNat 32 ((t.enc.totalBits.toNat + 7) / 8))) ∧
    t.enc.totalBits = csrRead t 0x044 ++ csrRead t 0x040 ∧
    (tableEntries t.enc.ct).length = (csrRead t 0x03C).toNat ∧
    t.obuf.read 16 = some (BitVec.ofNat 8 (csrRead t 0x03C).toNat) ∧
    PrefixFree (tableEntries t.enc.ct)

/-- Rules R130 and R139: COMPRESS is a function of the input alone: two blocks with the same sizes and the same input end with
the same report, and, when they finish, the same output. -/
def Obligations.CompressDependsOnTheInputAlone : Prop :=
  ∀ s1 s2 t1 t2 : State, s1.done = false → s2.done = false → s1.params = s2.params → s1.inLen = s2.inLen →
    (∀ a, a < s1.inLen.toNat → s1.ibuf.read a = s2.ibuf.read a) →
    exec .compress s1 = .next t1 → exec .compress s2 = .next t2 →
    t1.done = t2.done ∧
    (t1.done = true → t1.outLen = t2.outLen ∧ t1.enc = t2.enc ∧
      ∀ a, a < t1.outLen.toNat → t1.obuf.read a = t2.obuf.read a) ∧
    (t1.done = false → t1.errCode = t2.errCode ∧ t1.errOffset = t2.errOffset ∧ t1.errDetail = t2.errDetail)

/-! ### The decoder commands -/

/-- Rules R65, R92 and R161: READ_CONTAINER finishes with the three length fields of a header whose declared lengths fit. -/
def Obligations.ReadContainerParsesTheHeader : Prop :=
  ∀ (s : State) (orig plen tlen : Word), s.inLen.toNat ≤ s.ibufSize →
    s.ibuf.readBytes 0 16 = some (headerLayout orig plen tlen) → 16 + tlen.toNat + plen.toNat ≤ s.inLen.toNat →
    exec .readContainer s = .next { s with
      seq := .idle, done := true, dec := { s.dec with hdrOrig := orig, hdrPlen := plen, hdrTlen := tlen },
      valid := { s.valid with hdr := true, dtab := false, dtree := false } }

/-- Rules R98, R161 and R224: READ_CONTAINER's errors in the order of its checks: LengthRange (code 13), InvalidMagic (code 2) at
the first byte missing or different, TruncatedInput (code 5) for the header, the table and the payload, the sums unbounded. -/
def Obligations.ReadContainerRaisesInOrder : Prop :=
  ∀ s : State,
    let s1 : State := { s with valid := { s.valid with hdr := false, dtab := false, dtree := false } }
    (s.ibufSize < s.inLen.toNat → exec .readContainer s = .next (s1.captures 13#8 0#8 0#32 0#3)) ∧
    (∀ k : Nat, k < 4 → s.inLen.toNat ≤ s.ibufSize →
      s.ibuf.readBytes 0 k = some ([0x43#8, 0x43#8, 0x48#8, 0x46#8].take k) →
      (s.inLen.toNat = k ∨
        (k < s.inLen.toNat ∧ ∃ b, s.ibuf.read k = some b ∧ [0x43#8, 0x43#8, 0x48#8, 0x46#8][k]? ≠ some b)) →
      exec .readContainer s = .next (s1.captures 2#8 0#8 (BitVec.ofNat 32 k) 0#3)) ∧
    (s.inLen.toNat ≤ s.ibufSize → 4 ≤ s.inLen.toNat → s.inLen.toNat < 16 →
      s.ibuf.readBytes 0 4 = some [0x43#8, 0x43#8, 0x48#8, 0x46#8] →
      exec .readContainer s = .next (s1.captures 5#8 1#8 s.inLen 0#3)) ∧
    (∀ orig plen tlen : Word, s.inLen.toNat ≤ s.ibufSize → 16 ≤ s.inLen.toNat →
      s.ibuf.readBytes 0 16 = some (headerLayout orig plen tlen) →
      (s.inLen.toNat < 16 + tlen.toNat → exec .readContainer s = .next (s1.captures 5#8 2#8 12#32 0#3)) ∧
      (16 + tlen.toNat ≤ s.inLen.toNat → s.inLen.toNat < 16 + tlen.toNat + plen.toNat →
        exec .readContainer s = .next (s1.captures 5#8 3#8 8#32 0#3)))

/-- The start of a serialized table in IBUF at offset 16: a count byte and whole entries. -/
def TableStartsWith (s : State) (count : Byte) (raw : List RawEntry) : Prop :=
  (∀ e ∈ raw, e.Complete) ∧
  s.ibuf.readBytes 16 (1 + (raw.flatMap RawEntry.bytes).length) = some (count :: raw.flatMap RawEntry.bytes) ∧
  17 + (raw.flatMap RawEntry.bytes).length ≤ s.ibufSize ∧
  1 + (raw.flatMap RawEntry.bytes).length ≤ s.dec.hdrTlen.toNat

/-- The number of entries a count byte declares (rule R101). -/
def declared (count : Byte) : Nat := if count = 0#8 then 256 else count.toNat

/-- Rules R100 to R105 and R162: DECODE_TABLE finishes with the entries in the order they stand when the declared count is used
up or the table ends at an entry's end; what follows the last declared entry is not read. -/
def Obligations.DecodeTableReadsTheEntries : Prop :=
  ∀ (s : State) (count : Byte) (raw : List RawEntry), s.valid.hdr = true → TableStartsWith s count raw →
    (raw.length = declared count ∨
      (raw.length < declared count ∧ 1 + (raw.flatMap RawEntry.bytes).length = s.dec.hdrTlen.toNat)) →
    exec .decodeTable s = .next { s with
      seq := .idle, done := true, dec := { s.dec with dtab := raw.map RawEntry.entry, decl := declared count },
      valid := { s.valid with dtab := true, dtree := false } }

/-- Rules R162 and R224: DECODE_TABLE's errors: no count byte (InvalidTableSize, code 3, detail 2), and, at the first entry that
is not whole, no length byte or not all code bytes inside the table (TruncatedInput, code 5, detail 4, at the entry) or a length
byte of 0 (InvalidCodeLength, code 4, detail 2, at the length byte). -/
def Obligations.DecodeTableRaisesAtTheBrokenEntry : Prop :=
  ∀ s : State, s.valid.hdr = true →
    let s1 : State := { s with valid := { s.valid with dtab := false, dtree := false } }
    (s.dec.hdrTlen.toNat = 0 → exec .decodeTable s = .next (s1.captures 3#8 2#8 16#32 0#3)) ∧
    (∀ (count : Byte) (raw : List RawEntry) (sym : Byte), TableStartsWith s count raw → raw.length < declared count →
      let pos := 17 + (raw.flatMap RawEntry.bytes).length
      let fin := 16 + s.dec.hdrTlen.toNat
      fin ≤ s.ibufSize → pos < fin → s.ibuf.read pos = some sym →
      (pos + 1 = fin → exec .decodeTable s = .next (s1.captures 5#8 4#8 (BitVec.ofNat 32 pos) 0#3)) ∧
      (pos + 1 < fin → s.ibuf.read (pos + 1) = some 0#8 →
        exec .decodeTable s = .next (s1.captures 4#8 2#8 (BitVec.ofNat 32 (pos + 1)) 0#3)) ∧
      (∀ len : Byte, pos + 1 < fin → s.ibuf.read (pos + 1) = some len → len ≠ 0#8 →
        fin < pos + 2 + (len.toNat + 7) / 8 →
        exec .decodeTable s = .next (s1.captures 5#8 4#8 (BitVec.ofNat 32 pos) 0#3)))

/-- Rule R163: decoding what ENCODE_TABLE makes of the codes of a built tree gives each symbol's code back, in ascending order,
with the declared count equal to the number of entries. -/
def Obligations.EncodedTableDecodesToTheCodes : Prop :=
  ∀ (s : State) (t : FreqTable) (tree : ETree) (table : List Byte), buildTree t = some tree →
    encodeTable (deriveCodes tree) = .ok table → s.valid.hdr = true → s.dec.hdrTlen.toNat = table.length →
    16 + table.length ≤ s.ibufSize → s.ibuf.readBytes 16 table.length = some table →
    ∃ entries : List (Symbol × Code),
      (∀ (b : Symbol) (c : Code), (b, c) ∈ entries ↔ codeAt (deriveCodes tree) b = some c) ∧
      entries.Pairwise (fun e f => e.1.toNat < f.1.toNat) ∧ entries.length = countPresent t ∧
      exec .decodeTable s = .next { s with
        seq := .idle, done := true, dec := { s.dec with dtab := entries, decl := entries.length },
        valid := { s.valid with dtab := true, dtree := false } }

/-- Rule R164: for distinct symbols with a prefix code REBUILD_TREE finishes with the tree whose leaves end exactly the entries'
paths and whose nodes are exactly the root and the positions inside those paths. -/
def Obligations.RebuildTreeGrowsTheCodes : Prop :=
  ∀ s : State, s.valid.dtab = true → GoodEntries s.dec.dtab →
    ∃ tree : DTree,
      (∀ (p : Code) (b : Symbol), tree.at p = .leaf b ↔ (b, p) ∈ s.dec.dtab) ∧
      (∀ p : Code, (tree.at p).IsNode ↔ p = [] ∨ ∃ e ∈ s.dec.dtab, p <+: e.2 ∧ p ≠ e.2) ∧
      exec .rebuildTree s = .next { s with
        seq := .idle, done := true, dec := { s.dec with dtree := tree }, valid := { s.valid with dtree := true } }

/-- Rules R164 and R224: the first entry that does not fit the earlier ones raises TableConflict (code 11) at its index: detail 1
for a repeated symbol, else 2 for an equal code, 3 for an earlier code that is a proper prefix, 4 for one it is a proper prefix
of. -/
def Obligations.RebuildTreeRaisesTableConflict : Prop :=
  ∀ (s : State) (earlier later : List (Symbol × Code)) (b : Symbol) (c : Code), s.valid.dtab = true →
    s.dec.dtab = earlier ++ (b, c) :: later → GoodEntries earlier → c ≠ [] →
    let at_ (detail : Byte) : State :=
      { s with valid := { s.valid with dtree := false } }.captures 11#8 detail (BitVec.ofNat 32 earlier.length) 0#3
    (b ∈ earlier.map Prod.fst → exec .rebuildTree s = .next (at_ 1#8)) ∧
    (b ∉ earlier.map Prod.fst → c ∈ earlier.map Prod.snd → exec .rebuildTree s = .next (at_ 2#8)) ∧
    (b ∉ earlier.map Prod.fst → (∃ e ∈ earlier, e.2 <+: c ∧ e.2 ≠ c) → exec .rebuildTree s = .next (at_ 3#8)) ∧
    (b ∉ earlier.map Prod.fst → (∃ e ∈ earlier, c <+: e.2 ∧ c ≠ e.2) → exec .rebuildTree s = .next (at_ 4#8))

/-- The payload's first `m` bytes in IBUF are `payload`, inside the payload the header declares. -/
def PayloadStartsWith (s : State) (payload : List Byte) : Prop :=
  s.ibuf.readBytes (16 + s.dec.hdrTlen.toNat) payload.length = some payload ∧
  16 + s.dec.hdrTlen.toNat + payload.length ≤ s.ibufSize ∧ payload.length ≤ s.dec.hdrPlen.toNat

/-- Rules R66, R107 and R165: when the payload's bits start with the paths of `originalLength` leaves, UNPACK finishes with
their symbols in OBUF and OUT_LEN = originalLength, and reads no byte past the one that holds the last path's last bit. -/
def Obligations.UnpackWalksThePaths : Prop :=
  ∀ (s : State) (steps : List (Symbol × Code)) (payload : List Byte) (padding : List Bool),
    s.valid.hdr = true → s.valid.dtree = true → s.dec.hdrOrig.toNat ≤ s.obufSize → s.dec.dtree.IsNode →
    (∀ e ∈ steps, s.dec.dtree.at e.2 = .leaf e.1) → steps.length = s.dec.hdrOrig.toNat → PayloadStartsWith s payload →
    payload.flatMap bitsOfByte = steps.flatMap Prod.snd ++ padding → padding.length < 8 →
    ∃ t, exec .unpack s = .next t ∧
      t = { s with seq := .idle, done := true, obuf := t.obuf, outLen := s.dec.hdrOrig } ∧
      ∀ a, t.obuf.read a = if a < steps.length then (steps.map Prod.fst)[a]? else s.obuf.read a

/-- Rules R165, R224 and R228: UNPACK's errors: OutputOverflow (code 10, detail 3) when originalLength passes OBUF_SIZE, with OBUF
unchanged; CorruptBitstream (code 6) at the byte and bit that lead to a missing child (detail 1), or at payloadLength when the
payload ends first (detail 2), with the bytes decoded before it in OBUF and the rest of OBUF unchanged. -/
def Obligations.UnpackRaisesWithTheDecodedBytes : Prop :=
  ∀ s : State, s.valid.hdr = true → s.valid.dtree = true →
    (s.obufSize < s.dec.hdrOrig.toNat → exec .unpack s = .next (s.captures 10#8 3#8 4#32 0#3)) ∧
    (∀ (steps : List (Symbol × Code)) (c : Code) (payload : List Byte), s.dec.hdrOrig.toNat ≤ s.obufSize →
      (∀ e ∈ steps, s.dec.dtree.at e.2 = .leaf e.1) → steps.length < s.dec.hdrOrig.toNat → s.dec.dtree.IsNode →
      (s.dec.dtree.at c).IsNode → PayloadStartsWith s payload →
      (∀ (b : Bool) (rest : List Bool), (s.dec.dtree.at c).child b = .absent → rest.length < 8 →
        payload.flatMap bitsOfByte = steps.flatMap Prod.snd ++ c ++ b :: rest →
        let j := (steps.flatMap Prod.snd ++ c).length
        ∃ t, exec .unpack s = .next t ∧
          t = { s with obuf := t.obuf }.captures 6#8 1#8 (BitVec.ofNat 32 (j / 8)) (BitVec.ofNat 3 (7 - j % 8)) ∧
          ∀ a, t.obuf.read a = if a < steps.length then (steps.map Prod.fst)[a]? else s.obuf.read a) ∧
      (payload.length = s.dec.hdrPlen.toNat → payload.flatMap bitsOfByte = steps.flatMap Prod.snd ++ c →
        ∃ t, exec .unpack s = .next t ∧
          t = { s with obuf := t.obuf }.captures 6#8 2#8 s.dec.hdrPlen 0#3 ∧
          ∀ a, t.obuf.read a = if a < steps.length then (steps.map Prod.fst)[a]? else s.obuf.read a))

/-- Rule R169: whenever UNPACK or DECOMPRESS finishes, OUT_LEN is originalLength and that many bytes were stored. -/
def Obligations.FinishedOutputHasTheOriginalLength : Prop :=
  ∀ (i : Instr) (s t : State), i ∈ [Instr.unpack, .decompress] → s.done = false → exec i s = .next t → t.done = true →
    t.outLen = t.dec.hdrOrig ∧ ∀ a, a < t.outLen.toNat → (t.obuf.read a).isSome = true

/-- A step's `finish` inside a composite (rule R207): the composite is still running, and DONE, 0 since its acceptance, still 0. -/
def stepOver (t : State) : State := { t with seq := .busy, done := false }

/-- Rules R166 and R207: DECOMPRESS finishes for a container whose header, table and payload meet the conditions of its steps. Its
steps run in order, each on what the ones before left; it ends as UNPACK does when that is reached, and the first step that raises
ends it with that step's error, one of those the step's rule lists, the VALID flags of the steps before 1 and those from the failing
step on 0 (UNPACK has no flag, so all three are 1). -/
def Obligations.DecompressDecodesTheContainer : Prop :=
  (∀ (s : State) (orig plen tlen : Word) (count : Byte) (raw : List RawEntry) (steps : List (Symbol × Code))
    (payload : List Byte) (padding : List Bool),
    s.inLen.toNat ≤ s.ibufSize → 16 + tlen.toNat + plen.toNat ≤ s.inLen.toNat → orig.toNat ≤ s.obufSize →
    s.ibuf.readBytes 0 16 = some (headerLayout orig plen tlen) →
    TableStartsWith { s with dec := { s.dec with hdrTlen := tlen } } count raw →
    (raw.length = declared count ∨
      (raw.length < declared count ∧ 1 + (raw.flatMap RawEntry.bytes).length = tlen.toNat)) →
    GoodEntries (raw.map RawEntry.entry) →
    PayloadStartsWith { s with dec := { s.dec with hdrTlen := tlen, hdrPlen := plen } } payload →
    (∀ e ∈ steps, e ∈ raw.map RawEntry.entry) → steps.length = orig.toNat →
    payload.flatMap bitsOfByte = steps.flatMap Prod.snd ++ padding → padding.length < 8 →
    ∃ tree t, rebuildTree (raw.map RawEntry.entry) = .ok tree ∧ exec .decompress s = .next t ∧
      t = { s with
        seq := .idle, done := true, outLen := orig, obuf := t.obuf,
        valid := { s.valid with hdr := true, dtab := true, dtree := true },
        dec := { hdrOrig := orig, hdrPlen := plen, hdrTlen := tlen, dtab := raw.map RawEntry.entry,
                 decl := declared count, dtree := tree } } ∧
      ∀ a, t.obuf.read a = if a < steps.length then (steps.map Prod.fst)[a]? else s.obuf.read a) ∧
  (∀ s t1 : State, s.seq = .busy → s.done = false → exec .readContainer s = .next t1 →
    (t1.done = false → exec .decompress s = .next t1 ∧ t1.err = true ∧ t1.errCode ∈ [13#8, 2#8, 5#8] ∧
      t1.valid.hdr = false ∧ t1.valid.dtab = false ∧ t1.valid.dtree = false) ∧
    (t1.done = true → ∀ t2, exec .decodeTable (stepOver t1) = .next t2 →
      (t2.done = false → exec .decompress s = .next t2 ∧ t2.err = true ∧ t2.errCode ∈ [3#8, 4#8, 5#8] ∧
        t2.valid.hdr = true ∧ t2.valid.dtab = false ∧ t2.valid.dtree = false) ∧
      (t2.done = true → ∀ t3, exec .rebuildTree (stepOver t2) = .next t3 →
        (t3.done = false → exec .decompress s = .next t3 ∧ t3.err = true ∧ t3.errCode = 11#8 ∧
          t3.valid.hdr = true ∧ t3.valid.dtab = true ∧ t3.valid.dtree = false) ∧
        (t3.done = true → ∀ t4, exec .unpack (stepOver t3) = .next t4 →
          exec .decompress s = .next t4 ∧ (t4.done = false → t4.err = true ∧ t4.errCode ∈ [10#8, 6#8]) ∧
          t4.valid.hdr = true ∧ t4.valid.dtab = true ∧ t4.valid.dtree = true))))

/-- Rule R167: rebuilding from the entries of a built tree's codes gives that tree without its weights. -/
def Obligations.RebuiltTreeIsTheEncodersTree : Prop :=
  ∀ (t : FreqTable) (tree : ETree), buildTree t = some tree →
    rebuildTree (tableEntries (deriveCodes tree)) = .ok tree.forget

/-- Rule R168: the round trip. A container COMPRESS finished with, copied to the start of the IBUF of a block whose buffers are
large enough, decompresses to the input. -/
def Obligations.DecompressInvertsCompress : Prop :=
  ∀ (s t u : State) (input : List Byte), s.done = false → s.ibuf.readBytes 0 s.inLen.toNat = some input →
    exec .compress s = .next t → t.done = true →
    u.inLen = t.outLen → t.outLen.toNat ≤ u.ibufSize → input.length ≤ u.obufSize →
    (∀ a, a < t.outLen.toNat → u.ibuf.read a = t.obuf.read a) →
    ∃ v, exec .decompress u = .next v ∧ v.done = true ∧ v.err = u.err ∧ v.outLen.toNat = input.length ∧
      v.obuf.readBytes 0 input.length = some input

/-- "never sees frequencies" (spec/41_decoder.md, rule R160): a decoder command does the same whatever the encoder's products and
flags are, and leaves those alone. -/
def Obligations.DecoderIgnoresEncoderProducts : Prop :=
  ∀ (i : Instr) (s t : State) (e : EncProducts) (f1 f2 f3 f4 f5 : Bool),
    i ∈ [Instr.readContainer, .decodeTable, .rebuildTree, .unpack, .decompress] → exec i s = .next t →
    exec i { s with enc := e, valid := { s.valid with ft := f1, etree := f2, ct := f3, etab := f4, pbuf := f5 } } =
      .next { t with enc := e, valid := { t.valid with ft := f1, etree := f2, ct := f3, etab := f4, pbuf := f5 } }

/-- Rule R62: no command's result depends on what OBUF held before. -/
def Obligations.NoCommandReadsObuf : Prop :=
  ∀ (i : Instr) (s t : State) (m : Memory), exec i s = .next t →
    ∃ m', exec i { s with obuf := m } = .next { t with obuf := m' } ∧
      ∀ a, m'.read a = t.obuf.read a ∨ (m'.read a = m.read a ∧ t.obuf.read a = s.obuf.read a)

/-! ### The host's accesses -/

/-- Rules R69, R70 and R231: an access of a width, alignment or offset the block does not take is answered with a bus error and
changes nothing else, busy or not. That a CSR access at or past offset 4096 is such an access is the model's inference (log entry
10, DEDUCED from rules R60 and R70). -/
def Obligations.RefusedAccessesChangeNothing : Prop :=
  ∀ (s : State) (ap : Aperture) (width : Width) (off : Nat) (v : Word) (rest : List Event),
    ((ap = .csr ∧ (width ≠ .w32 ∨ off % 4 ≠ 0 ∨ 4096 ≤ off)) ∨
     (ap ≠ .csr ∧ (width = .w16 ∨ (width = .w32 ∧ off % 4 ≠ 0) ∨
        (if ap = .ibuf then s.ibufSize else s.obufSize) < off + (if width = .w8 then 1 else 4)))) →
    (s.inputs = .read ap width off :: rest → step s = .next { s with inputs := rest, bus := .busError }) ∧
    (s.inputs = .write ap width off v :: rest → step s = .next { s with inputs := rest, bus := .busError })

/-- The CSRs of rule R23's table outside the two windows. -/
def csrOffsets : List Nat :=
  [0x000, 0x004, 0x008, 0x00C, 0x010, 0x014, 0x018, 0x01C, 0x020, 0x024, 0x028, 0x030, 0x034, 0x038, 0x03C, 0x040, 0x044,
   0x050, 0x054, 0x058, 0x05C, 0x060]

/-- Rules R23 to R28, R34 to R44, R54 and R72: what a 32-bit read of each CSR returns while idle, with no other effect. That a
result is read so as soon as the block is idle, before any read of STATUS has returned BUSY = 0, is the model's choice (log entry
19). -/
def Obligations.CsrReadsReturnTheMap : Prop :=
  ∀ s : State,
    (∀ (off : Nat) (rest : List Event), s.inReset = false → s.seq = .idle → off % 4 = 0 → off < 4096 →
      s.inputs = .read .csr .w32 off :: rest → step s = .next { s with inputs := rest, bus := .word (csrRead s off) }) ∧
    csrRead s 0x000 = 0x46484343#32 ∧ csrRead s 0x004 = s.params.ibufSize ∧ csrRead s 0x008 = s.params.obufSize ∧
    (csrRead s 0x00C).toNat = s.irqEn.toNat ∧ csrRead s 0x010 = 0#32 ∧
    (csrRead s 0x014).toNat = (s.seq == .busy).toNat + 2 * s.done.toNat + 4 * s.err.toNat + 8 * s.dropped.toNat +
      256 * s.errCode.toNat ∧
    csrRead s 0x018 = s.inLen ∧ csrRead s 0x01C = s.outLen ∧ csrRead s 0x020 = s.errOffset ∧
    (csrRead s 0x024).toNat = s.errDetail.toNat + 256 * s.errBit.toNat ∧
    (csrRead s 0x028).toNat = s.valid.ft.toNat + 2 * s.valid.etree.toNat + 4 * s.valid.ct.toNat + 8 * s.valid.etab.toNat +
      16 * s.valid.pbuf.toNat + 32 * s.valid.hdr.toNat + 64 * s.valid.dtab.toNat + 128 * s.valid.dtree.toNat ∧
    (s.valid.ft = true → csrRead s 0x030 = s.enc.ftLen ∧
      (csrRead s 0x03C).toNat = (allSymbols.filter fun b => decide (0 < (freqAt s.enc.ft b).toNat)).length) ∧
    (s.valid.etab = true → csrRead s 0x034 = BitVec.ofNat 32 s.enc.etab.length) ∧
    (s.valid.pbuf = true → csrRead s 0x038 = BitVec.ofNat 32 s.enc.pbuf.length ∧
      csrRead s 0x044 ++ csrRead s 0x040 = s.enc.totalBits) ∧
    (s.valid.hdr = true → csrRead s 0x050 = s.dec.hdrOrig ∧ csrRead s 0x054 = s.dec.hdrPlen ∧
      csrRead s 0x058 = s.dec.hdrTlen) ∧
    (s.valid.dtab = true → csrRead s 0x05C = BitVec.ofNat 32 s.dec.decl ∧
      csrRead s 0x060 = BitVec.ofNat 32 s.dec.dtab.length) ∧
    (s.valid.ft = false → csrRead s 0x030 = 0#32 ∧ csrRead s 0x03C = 0#32) ∧
    (s.valid.etab = false → csrRead s 0x034 = 0#32) ∧
    (s.valid.pbuf = false → csrRead s 0x038 = 0#32 ∧ csrRead s 0x040 = 0#32 ∧ csrRead s 0x044 = 0#32) ∧
    (s.valid.hdr = false → csrRead s 0x050 = 0#32 ∧ csrRead s 0x054 = 0#32 ∧ csrRead s 0x058 = 0#32) ∧
    (s.valid.dtab = false → csrRead s 0x05C = 0#32 ∧ csrRead s 0x060 = 0#32) ∧
    (∀ b : Symbol, csrRead s (0x400 + 4 * b.toNat) = if s.valid.ft = true then freqAt s.enc.ft b else 0#32) ∧
    (∀ b : Symbol, csrRead s (0x800 + 4 * b.toNat) =
      if s.valid.ct = true then BitVec.ofNat 32 (((codeAt s.enc.ct b).map List.length).getD 0) else 0#32) ∧
    (∀ off, off < 4096 → off ∉ csrOffsets → (off < 0x400 ∨ 0xC00 ≤ off) → csrRead s off = 0#32)

/-- Rules R23, R28, R34, R35, R54, R55 and R72: what a 32-bit write of each CSR other than CMD does while idle. -/
def Obligations.CsrWritesChangeTheirFieldsOnly : Prop :=
  ∀ (s : State) (off : Nat) (v : Word) (rest : List Event), s.inReset = false → s.seq = .idle → off % 4 = 0 →
    off < 4096 → s.inputs = .write .csr .w32 off v :: rest →
    let s1 : State := { s with inputs := rest, bus := .written }
    (off = 0x00C → step s = .next { s1 with irqEn := v.getLsbD 0 }) ∧
    (off = 0x014 → step s = .next { s1 with
      done := s.done && !v.getLsbD 1, err := s.err && !v.getLsbD 2, dropped := s.dropped && !v.getLsbD 3 }) ∧
    (off = 0x018 → step s = .next { s1 with inLen := v }) ∧
    (off ∉ [0x00C, 0x010, 0x014, 0x018] → step s = .next s1)

/-- Rules R67, R68, R70 and R71: a 32-bit write of a buffer stores its four bytes lowest first, an 8-bit write one byte, no other
byte of the aperture changes, and reads of either width see them. That OBUF is read so as soon as the block is idle, before any
read of STATUS has returned BUSY = 0, is the model's choice (log entry 19). -/
def Obligations.BufferAccessesUseLittleEndianLanes : Prop :=
  ∀ (s : State) (ap : Aperture) (off : Nat) (v : Word) (rest : List Event), s.inReset = false → s.seq = .idle →
    ap ≠ .csr →
    let size := if ap = .ibuf then s.ibufSize else s.obufSize
    let byteOf (t : State) (a : Nat) : Option Byte := if ap = .ibuf then t.ibuf.read a else t.obufByte a
    (s.inputs = .write ap .w32 off v :: rest → off % 4 = 0 → off + 4 ≤ size →
      ∃ t, step s = .next t ∧ t = { s with inputs := rest, bus := .written, ibuf := t.ibuf, obuf := t.obuf } ∧
        (if ap = .ibuf then t.obuf = s.obuf else t.ibuf = s.ibuf) ∧
        (∀ k, k < 4 → byteOf t (off + k) = some (v.extractLsb' (8 * k) 8)) ∧
        ∀ a, (a < off ∨ off + 4 ≤ a) → byteOf t a = byteOf s a) ∧
    (s.inputs = .write ap .w8 off v :: rest → off < size →
      ∃ t, step s = .next t ∧ t = { s with inputs := rest, bus := .written, ibuf := t.ibuf, obuf := t.obuf } ∧
        (if ap = .ibuf then t.obuf = s.obuf else t.ibuf = s.ibuf) ∧
        byteOf t off = some (v.extractLsb' 0 8) ∧ ∀ a, a ≠ off → byteOf t a = byteOf s a) ∧
    (s.inputs = .read ap .w8 off :: rest → off < size → ∀ b, byteOf s off = some b →
      step s = .next { s with inputs := rest, bus := .byte b }) ∧
    (s.inputs = .read ap .w32 off :: rest → off % 4 = 0 → off + 4 ≤ size →
      (∀ k, k < 4 → byteOf s (off + k) = some (v.extractLsb' (8 * k) 8)) →
      step s = .next { s with inputs := rest, bus := .word v })

/-- Rules R73, R75 and R252: a read of a byte never written since power-on stops the model: for the host, an 8-bit read at that byte
and a 32-bit read at the first such byte of its four (while idle, for OBUF; log entries 18 and 19 for while BUSY and for the first read after it, log entry 6 for `obufLost`);
for each command that reads IBUF, at the first such byte in the order of its pseudocode. -/
def Obligations.UnwrittenBytesFault : Prop :=
  (∀ (s : State) (a : Nat) (rest : List Event), s.inReset = false → a < s.ibufSize → s.ibuf.read a = none →
    s.inputs = .read .ibuf .w8 a :: rest → step s = .fault (.unwrittenIbuf a)) ∧
  (∀ (s : State) (off k : Nat) (rest : List Event), s.inReset = false → off % 4 = 0 → off + 4 ≤ s.ibufSize → k < 4 →
    (∀ j, j < k → (s.ibuf.read (off + j)).isSome = true) → s.ibuf.read (off + k) = none →
    s.inputs = .read .ibuf .w32 off :: rest → step s = .fault (.unwrittenIbuf (off + k))) ∧
  (∀ (s : State) (a : Nat) (rest : List Event), s.inReset = false → s.seq = .idle → a < s.obufSize →
    s.obuf.read a = none → s.obufLost = none → s.inputs = .read .obuf .w8 a :: rest →
    step s = .fault (.unwrittenObuf a)) ∧
  (∀ (s : State) (off k : Nat) (rest : List Event), s.inReset = false → s.seq = .idle → off % 4 = 0 →
    off + 4 ≤ s.obufSize → k < 4 → (∀ j, j < k → (s.obuf.read (off + j)).isSome = true) → s.obuf.read (off + k) = none →
    s.obufLost = none → s.inputs = .read .obuf .w32 off :: rest → step s = .fault (.unwrittenObuf (off + k))) ∧
  (∀ i ∈ [Instr.freq, .compress], ∀ (s : State) (a : Nat) (before : List Byte), s.inLen.toNat ≤ s.ibufSize →
    a < s.inLen.toNat → s.ibuf.readBytes 0 a = some before → s.ibuf.read a = none →
    exec i s = .fault (.unwrittenIbuf a)) ∧
  (∀ (s : State) (done : List Byte), s.valid.ct = true → s.enc.ftLen.toNat ≤ s.ibufSize →
    done.length < s.enc.ftLen.toNat → s.ibuf.readBytes 0 done.length = some done →
    (∀ b ∈ done, (codeAt s.enc.ct b).isSome = true) → (codeBits s.enc.ct done).length / 8 ≤ s.obufSize →
    s.ibuf.read done.length = none → exec .pack s = .fault (.unwrittenIbuf done.length)) ∧
  (∀ i ∈ [Instr.readContainer, .decompress], ∀ (s : State) (k : Nat) (before : List Byte), s.inLen.toNat ≤ s.ibufSize →
    k < 16 → k < s.inLen.toNat → (4 ≤ k → 16 ≤ s.inLen.toNat) → s.ibuf.readBytes 0 k = some before →
    before.take 4 = [0x43#8, 0x43#8, 0x48#8, 0x46#8].take k → s.ibuf.read k = none →
    exec i s = .fault (.unwrittenIbuf k)) ∧
  (∀ s : State, s.valid.hdr = true → 0 < s.dec.hdrTlen.toNat → 16 < s.ibufSize → s.ibuf.read 16 = none →
    exec .decodeTable s = .fault (.unwrittenIbuf 16)) ∧
  (∀ (s : State) (count : Byte) (raw : List RawEntry), s.valid.hdr = true → TableStartsWith s count raw →
    raw.length < declared count →
    let pos := 17 + (raw.flatMap RawEntry.bytes).length
    let fin := 16 + s.dec.hdrTlen.toNat
    fin ≤ s.ibufSize → pos < fin →
    (s.ibuf.read pos = none → exec .decodeTable s = .fault (.unwrittenIbuf pos)) ∧
    ((s.ibuf.read pos).isSome = true → pos + 1 < fin → s.ibuf.read (pos + 1) = none →
      exec .decodeTable s = .fault (.unwrittenIbuf (pos + 1))) ∧
    (∀ (len : Byte) (k : Nat) (before : List Byte), (s.ibuf.read pos).isSome = true → s.ibuf.read (pos + 1) = some len →
      len ≠ 0#8 → pos + 2 + (len.toNat + 7) / 8 ≤ fin → k < (len.toNat + 7) / 8 →
      s.ibuf.readBytes (pos + 2) k = some before → s.ibuf.read (pos + 2 + k) = none →
      exec .decodeTable s = .fault (.unwrittenIbuf (pos + 2 + k)))) ∧
  (∀ (s : State) (steps : List (Symbol × Code)) (c : Code) (payload : List Byte), s.valid.hdr = true → s.valid.dtree = true →
    s.dec.hdrOrig.toNat ≤ s.obufSize → (∀ e ∈ steps, s.dec.dtree.at e.2 = .leaf e.1) →
    steps.length < s.dec.hdrOrig.toNat → s.dec.dtree.IsNode → (s.dec.dtree.at c).IsNode → PayloadStartsWith s payload →
    payload.flatMap bitsOfByte = steps.flatMap Prod.snd ++ c → payload.length < s.dec.hdrPlen.toNat →
    16 + s.dec.hdrTlen.toNat + payload.length < s.ibufSize →
    s.ibuf.read (16 + s.dec.hdrTlen.toNat + payload.length) = none →
    exec .unpack s = .fault (.unwrittenIbuf (16 + s.dec.hdrTlen.toNat + payload.length)))

/-- Rule R72: reads never have side effects, in any aperture; only the bus's answer, and the count of draws, move. -/
def Obligations.ReadsHaveNoSideEffects : Prop :=
  ∀ (s t : State) (ap : Aperture) (width : Width) (off : Nat) (rest : List Event),
    s.inputs = .read ap width off :: rest → step s = .next t →
    t = { s with inputs := rest, bus := t.bus, draws := t.draws }

/-- Rules R27, R54, R55, R256 and R257: while BUSY, reads of STATUS, CTRL, IN_LEN, ID, the sizes and IBUF return their values, CMD
and reserved offsets read 0, and reads of results return a free value (log entry 5; log entry 18 for an OBUF byte never written);
writes of CTRL and STATUS take effect, writes of read-only and reserved offsets are ignored, and a write of IN_LEN, IBUF or OBUF
is refused by the model, as R256 asks (log entry 11). A CMD write is in `CommandWriteIsAcceptedOrDropped`. -/
def Obligations.AccessesWhileBusy : Prop :=
  ∀ (s : State) (rest : List Event), s.inReset = false → s.seq = .busy →
    (∀ off ∈ [0x000, 0x004, 0x008, 0x00C, 0x014, 0x018], s.inputs = .read .csr .w32 off :: rest →
      step s = .next { s with inputs := rest, bus := .word (csrRead s off) }) ∧
    (∀ off, off % 4 = 0 → off < 4096 → (off = 0x010 ∨ (off ∉ csrOffsets ∧ (off < 0x400 ∨ 0xC00 ≤ off))) →
      s.inputs = .read .csr .w32 off :: rest → step s = .next { s with inputs := rest, bus := .word 0#32 }) ∧
    (∀ (a : Nat) (b : Byte), a < s.ibufSize → s.ibuf.read a = some b → s.inputs = .read .ibuf .w8 a :: rest →
      step s = .next { s with inputs := rest, bus := .byte b }) ∧
    (∀ (off : Nat) (v : Word), off % 4 = 0 → off + 4 ≤ s.ibufSize →
      (∀ k, k < 4 → s.ibuf.read (off + k) = some (v.extractLsb' (8 * k) 8)) → s.inputs = .read .ibuf .w32 off :: rest →
      step s = .next { s with inputs := rest, bus := .word v }) ∧
    (∀ off, (off ∈ csrOffsets ∧ 0x01C ≤ off) ∨ (off % 4 = 0 ∧ 0x400 ≤ off ∧ off < 0xC00) →
      s.inputs = .read .csr .w32 off :: rest →
      step s = .next { s with inputs := rest, bus := .word (Config.freeWord s.draws), draws := s.draws + 1 }) ∧
    (∀ a, a < s.obufSize → s.inputs = .read .obuf .w8 a :: rest →
      step s = .next { s with
        inputs := rest, bus := .byte ((Config.freeWord s.draws).extractLsb' 0 8), draws := s.draws + 1 }) ∧
    (∀ off, off % 4 = 0 → off + 4 ≤ s.obufSize → s.inputs = .read .obuf .w32 off :: rest →
      step s = .next { s with inputs := rest, bus := .word (Config.freeWord s.draws), draws := s.draws + 1 }) ∧
    (∀ v : Word, s.inputs = .write .csr .w32 0x00C v :: rest →
      step s = .next { s with inputs := rest, bus := .written, irqEn := v.getLsbD 0 }) ∧
    (∀ v : Word, s.inputs = .write .csr .w32 0x014 v :: rest →
      step s = .next { s with
        inputs := rest, bus := .written, done := s.done && !v.getLsbD 1, err := s.err && !v.getLsbD 2,
        dropped := s.dropped && !v.getLsbD 3 }) ∧
    (∀ (off : Nat) (v : Word), off % 4 = 0 → off < 4096 → off ∉ [0x00C, 0x010, 0x014, 0x018] →
      s.inputs = .write .csr .w32 off v :: rest → step s = .next { s with inputs := rest, bus := .written }) ∧
    (∀ v : Word, s.inputs = .write .csr .w32 0x018 v :: rest → step s = .refused (.hostWriteWhileBusy .csr 0x018)) ∧
    (∀ (a : Nat) (v : Word), a < s.ibufSize → s.inputs = .write .ibuf .w8 a v :: rest →
      step s = .refused (.hostWriteWhileBusy .ibuf a)) ∧
    (∀ (off : Nat) (v : Word), off % 4 = 0 → off + 4 ≤ s.ibufSize → s.inputs = .write .ibuf .w32 off v :: rest →
      step s = .refused (.hostWriteWhileBusy .ibuf off)) ∧
    (∀ (a : Nat) (v : Word), a < s.obufSize → s.inputs = .write .obuf .w8 a v :: rest →
      step s = .refused (.hostWriteWhileBusy .obuf a)) ∧
    (∀ (off : Nat) (v : Word), off % 4 = 0 → off + 4 ≤ s.obufSize → s.inputs = .write .obuf .w32 off v :: rest →
      step s = .refused (.hostWriteWhileBusy .obuf off))

/-- Rules R57 and R227: the interrupt is CTRL.IRQ_EN and (STATUS.DONE or STATUS.ERR), as the host reads those bits; acceptance
and reset lower it. -/
def Obligations.InterruptFollowsEnableAndStatus : Prop :=
  (∀ s : State, s.irq =
    ((csrRead s 0x00C).getLsbD 0 && ((csrRead s 0x014).getLsbD 1 || (csrRead s 0x014).getLsbD 2))) ∧
  (∀ (s : State) (w : Word), (s.accept w).irq = false) ∧
  (∀ p : Params, (State.resetWith p).irq = false)

/-! ### Reset -/

/-- Rules R58 and R251: the state after reset as the host reads it, for every pair of sizes. -/
def Obligations.ResetValuesOfTheRegisters : Prop :=
  ∀ p : Params,
    (State.resetWith p).seq = .idle ∧ (State.resetWith p).inReset = false ∧ (State.resetWith p).irq = false ∧
    (∀ off, csrRead (State.resetWith p) off =
      if off = 0x000 then 0x46484343#32 else if off = 0x004 then p.ibufSize
      else if off = 0x008 then p.obufSize else 0#32) ∧
    (∀ a, (State.resetWith p).ibuf.read a = none ∧ (State.resetWith p).obufByte a = none)

/-- Rules R250, R252 and R253: asserting reset keeps IBUF, abandons a running command without DONE, ERR or capture, leaves OBUF
unspecified exactly when that command writes OBUF, and refuses every host access until release; release leaves the values of
rule R58. The model's choices: that the registers and the interrupt output have their reset values from the assertion on, and not
only at release, and that a power-on is the assertion too (log entry 9); and the form of the unspecified bytes (log entry 6). -/
def Obligations.ResetAbandonsTheCommand : Prop :=
  (∀ (s : State) (rest : List Event), s.inputs = .resetAssert :: rest →
    ∃ t, step s = .next t ∧ t.inReset = true ∧ t.inputs = rest ∧ t.params = s.params ∧ t.ibuf = s.ibuf ∧
      t.seq = .idle ∧
      (∀ off, csrRead t off =
        if off = 0x000 then 0x46484343#32 else if off = 0x004 then s.params.ibufSize
        else if off = 0x008 then s.params.obufSize else 0#32) ∧
      (s.seq = .busy → s.cmdWord ∈ [0x00000001#32, 0x00000002#32, 0x00000015#32, 0x00000023#32] →
        ∀ a, t.obufByte a = some (Config.freeObufByte s.draws a)) ∧
      ((s.seq = .idle ∨ s.cmdWord ∉ [0x00000001#32, 0x00000002#32, 0x00000015#32, 0x00000023#32]) →
        ∀ a, t.obufByte a = s.obufByte a)) ∧
  (∀ (s : State) (ap : Aperture) (width : Width) (off : Nat) (v : Word) (rest : List Event), s.inReset = true →
    (s.inputs = .read ap width off :: rest ∨ s.inputs = .write ap width off v :: rest) →
    step s = .next { s with inputs := rest, bus := .busError }) ∧
  (∀ (s : State) (rest : List Event), s.inReset = true → s.inputs = .resetRelease :: rest →
    ∃ t, step s = .next t ∧ t.inReset = false ∧ t.seq = .idle ∧ t.params = s.params ∧ t.ibuf = s.ibuf ∧
      (∀ a, t.obufByte a = s.obufByte a) ∧
      ∀ off, csrRead t off = csrRead (State.resetWith s.params) off) ∧
  (∀ (s : State) (rest : List Event), s.inputs = .powerOn :: rest →
    ∃ t, step s = .next t ∧ t.inReset = true ∧ t.params = s.params ∧
      ∀ a, t.ibuf.read a = none ∧ t.obufByte a = none)

/-! ### Invariants -/

/-- Rules R60, R63, R64 and R70: every step keeps both buffers in canonical form and inside their apertures. -/
def Obligations.EveryStepKeepsTheBuffersInOrder : Prop :=
  ∀ s t : State, s.MemoryInv → step s = .next t → t.MemoryInv

/-- Rules R29 to R33, R36, R220 and R253: every step keeps STATUS, the capture registers and OUT_LEN as their rules say. -/
def Obligations.EveryStepKeepsTheStatusRules : Prop :=
  ∀ s t : State, s.StatusInv → step s = .next t → t.StatusInv

/-- Rules R40 and R46 to R53: every step keeps the meaning of the VALID flags. -/
def Obligations.EveryStepKeepsTheProductsValid : Prop :=
  ∀ s t : State, s.ProductInv → step s = .next t → t.ProductInv

/-- Rule R58: the state after reset meets the three invariants, for every pair of sizes. -/
def Obligations.ResetMeetsTheInvariants : Prop :=
  ∀ p : Params, (State.resetWith p).MemoryInv ∧ (State.resetWith p).StatusInv ∧ (State.resetWith p).ProductInv
end

