-- ==== Sys2Proof/Laws/State.lean ====
section
/-! SUPPORT. One lemma per field per update of the state, so that no later proof unfolds a record update. -/

namespace Sys2Proof.Machine

@[simp] theorem State.finish_params (s : State) : s.finish.params = s.params := rfl
@[simp] theorem State.finish_seq (s : State) : s.finish.seq = .idle := rfl
@[simp] theorem State.finish_cmdWord (s : State) : s.finish.cmdWord = s.cmdWord := rfl
@[simp] theorem State.finish_inReset (s : State) : s.finish.inReset = s.inReset := rfl
@[simp] theorem State.finish_irqEn (s : State) : s.finish.irqEn = s.irqEn := rfl
@[simp] theorem State.finish_done (s : State) : s.finish.done = true := rfl
@[simp] theorem State.finish_err (s : State) : s.finish.err = s.err := rfl
@[simp] theorem State.finish_dropped (s : State) : s.finish.dropped = s.dropped := rfl
@[simp] theorem State.finish_errCode (s : State) : s.finish.errCode = s.errCode := rfl
@[simp] theorem State.finish_inLen (s : State) : s.finish.inLen = s.inLen := rfl
@[simp] theorem State.finish_outLen (s : State) : s.finish.outLen = s.outLen := rfl
@[simp] theorem State.finish_errOffset (s : State) : s.finish.errOffset = s.errOffset := rfl
@[simp] theorem State.finish_errDetail (s : State) : s.finish.errDetail = s.errDetail := rfl
@[simp] theorem State.finish_errBit (s : State) : s.finish.errBit = s.errBit := rfl
@[simp] theorem State.finish_valid (s : State) : s.finish.valid = s.valid := rfl
@[simp] theorem State.finish_enc (s : State) : s.finish.enc = s.enc := rfl
@[simp] theorem State.finish_dec (s : State) : s.finish.dec = s.dec := rfl
@[simp] theorem State.finish_ibuf (s : State) : s.finish.ibuf = s.ibuf := rfl
@[simp] theorem State.finish_obuf (s : State) : s.finish.obuf = s.obuf := rfl
@[simp] theorem State.finish_obufLost (s : State) : s.finish.obufLost = s.obufLost := rfl
@[simp] theorem State.finish_inputs (s : State) : s.finish.inputs = s.inputs := rfl
@[simp] theorem State.finish_bus (s : State) : s.finish.bus = s.bus := rfl
@[simp] theorem State.finish_draws (s : State) : s.finish.draws = s.draws := rfl

@[simp] theorem State.raise_params (s : State) (r : Report) : (s.raise r).params = s.params := rfl
@[simp] theorem State.raise_seq (s : State) (r : Report) : (s.raise r).seq = .idle := rfl
@[simp] theorem State.raise_cmdWord (s : State) (r : Report) : (s.raise r).cmdWord = s.cmdWord := rfl
@[simp] theorem State.raise_inReset (s : State) (r : Report) : (s.raise r).inReset = s.inReset := rfl
@[simp] theorem State.raise_irqEn (s : State) (r : Report) : (s.raise r).irqEn = s.irqEn := rfl
@[simp] theorem State.raise_done (s : State) (r : Report) : (s.raise r).done = s.done := rfl
@[simp] theorem State.raise_err (s : State) (r : Report) : (s.raise r).err = true := rfl
@[simp] theorem State.raise_dropped (s : State) (r : Report) : (s.raise r).dropped = s.dropped := rfl
@[simp] theorem State.raise_errCode (s : State) (r : Report) : (s.raise r).errCode = r.kind.code := rfl
@[simp] theorem State.raise_inLen (s : State) (r : Report) : (s.raise r).inLen = s.inLen := rfl
@[simp] theorem State.raise_outLen (s : State) (r : Report) : (s.raise r).outLen = s.outLen := rfl
@[simp] theorem State.raise_errOffset (s : State) (r : Report) : (s.raise r).errOffset = BitVec.ofNat 32 r.offset := rfl
@[simp] theorem State.raise_errDetail (s : State) (r : Report) : (s.raise r).errDetail = r.detail := rfl
@[simp] theorem State.raise_errBit (s : State) (r : Report) : (s.raise r).errBit = r.bit := rfl
@[simp] theorem State.raise_valid (s : State) (r : Report) : (s.raise r).valid = s.valid := rfl
@[simp] theorem State.raise_enc (s : State) (r : Report) : (s.raise r).enc = s.enc := rfl
@[simp] theorem State.raise_dec (s : State) (r : Report) : (s.raise r).dec = s.dec := rfl
@[simp] theorem State.raise_ibuf (s : State) (r : Report) : (s.raise r).ibuf = s.ibuf := rfl
@[simp] theorem State.raise_obuf (s : State) (r : Report) : (s.raise r).obuf = s.obuf := rfl
@[simp] theorem State.raise_obufLost (s : State) (r : Report) : (s.raise r).obufLost = s.obufLost := rfl
@[simp] theorem State.raise_inputs (s : State) (r : Report) : (s.raise r).inputs = s.inputs := rfl
@[simp] theorem State.raise_bus (s : State) (r : Report) : (s.raise r).bus = s.bus := rfl
@[simp] theorem State.raise_draws (s : State) (r : Report) : (s.raise r).draws = s.draws := rfl

@[simp] theorem State.accept_params (s : State) (w : Word) : (s.accept w).params = s.params := rfl
@[simp] theorem State.accept_seq (s : State) (w : Word) : (s.accept w).seq = .busy := rfl
@[simp] theorem State.accept_cmdWord (s : State) (w : Word) : (s.accept w).cmdWord = w := rfl
@[simp] theorem State.accept_inReset (s : State) (w : Word) : (s.accept w).inReset = s.inReset := rfl
@[simp] theorem State.accept_irqEn (s : State) (w : Word) : (s.accept w).irqEn = s.irqEn := rfl
@[simp] theorem State.accept_done (s : State) (w : Word) : (s.accept w).done = false := rfl
@[simp] theorem State.accept_err (s : State) (w : Word) : (s.accept w).err = false := rfl
@[simp] theorem State.accept_dropped (s : State) (w : Word) : (s.accept w).dropped = s.dropped := rfl
@[simp] theorem State.accept_errCode (s : State) (w : Word) : (s.accept w).errCode = 0#8 := rfl
@[simp] theorem State.accept_inLen (s : State) (w : Word) : (s.accept w).inLen = s.inLen := rfl
@[simp] theorem State.accept_outLen (s : State) (w : Word) : (s.accept w).outLen = if commandWritesObuf w then 0#32 else s.outLen := rfl
@[simp] theorem State.accept_errOffset (s : State) (w : Word) : (s.accept w).errOffset = 0#32 := rfl
@[simp] theorem State.accept_errDetail (s : State) (w : Word) : (s.accept w).errDetail = 0#8 := rfl
@[simp] theorem State.accept_errBit (s : State) (w : Word) : (s.accept w).errBit = 0#3 := rfl
@[simp] theorem State.accept_valid (s : State) (w : Word) : (s.accept w).valid = s.valid := rfl
@[simp] theorem State.accept_enc (s : State) (w : Word) : (s.accept w).enc = s.enc := rfl
@[simp] theorem State.accept_dec (s : State) (w : Word) : (s.accept w).dec = s.dec := rfl
@[simp] theorem State.accept_ibuf (s : State) (w : Word) : (s.accept w).ibuf = s.ibuf := rfl
@[simp] theorem State.accept_obuf (s : State) (w : Word) : (s.accept w).obuf = s.obuf := rfl
@[simp] theorem State.accept_obufLost (s : State) (w : Word) : (s.accept w).obufLost = s.obufLost := rfl
@[simp] theorem State.accept_inputs (s : State) (w : Word) : (s.accept w).inputs = s.inputs := rfl
@[simp] theorem State.accept_bus (s : State) (w : Word) : (s.accept w).bus = s.bus := rfl
@[simp] theorem State.accept_draws (s : State) (w : Word) : (s.accept w).draws = s.draws := rfl

@[simp] theorem State.answer_params (s : State) (r : BusResponse) : (s.answer r).params = s.params := rfl
@[simp] theorem State.answer_seq (s : State) (r : BusResponse) : (s.answer r).seq = s.seq := rfl
@[simp] theorem State.answer_cmdWord (s : State) (r : BusResponse) : (s.answer r).cmdWord = s.cmdWord := rfl
@[simp] theorem State.answer_inReset (s : State) (r : BusResponse) : (s.answer r).inReset = s.inReset := rfl
@[simp] theorem State.answer_irqEn (s : State) (r : BusResponse) : (s.answer r).irqEn = s.irqEn := rfl
@[simp] theorem State.answer_done (s : State) (r : BusResponse) : (s.answer r).done = s.done := rfl
@[simp] theorem State.answer_err (s : State) (r : BusResponse) : (s.answer r).err = s.err := rfl
@[simp] theorem State.answer_dropped (s : State) (r : BusResponse) : (s.answer r).dropped = s.dropped := rfl
@[simp] theorem State.answer_errCode (s : State) (r : BusResponse) : (s.answer r).errCode = s.errCode := rfl
@[simp] theorem State.answer_inLen (s : State) (r : BusResponse) : (s.answer r).inLen = s.inLen := rfl
@[simp] theorem State.answer_outLen (s : State) (r : BusResponse) : (s.answer r).outLen = s.outLen := rfl
@[simp] theorem State.answer_errOffset (s : State) (r : BusResponse) : (s.answer r).errOffset = s.errOffset := rfl
@[simp] theorem State.answer_errDetail (s : State) (r : BusResponse) : (s.answer r).errDetail = s.errDetail := rfl
@[simp] theorem State.answer_errBit (s : State) (r : BusResponse) : (s.answer r).errBit = s.errBit := rfl
@[simp] theorem State.answer_valid (s : State) (r : BusResponse) : (s.answer r).valid = s.valid := rfl
@[simp] theorem State.answer_enc (s : State) (r : BusResponse) : (s.answer r).enc = s.enc := rfl
@[simp] theorem State.answer_dec (s : State) (r : BusResponse) : (s.answer r).dec = s.dec := rfl
@[simp] theorem State.answer_ibuf (s : State) (r : BusResponse) : (s.answer r).ibuf = s.ibuf := rfl
@[simp] theorem State.answer_obuf (s : State) (r : BusResponse) : (s.answer r).obuf = s.obuf := rfl
@[simp] theorem State.answer_obufLost (s : State) (r : BusResponse) : (s.answer r).obufLost = s.obufLost := rfl
@[simp] theorem State.answer_inputs (s : State) (r : BusResponse) : (s.answer r).inputs = s.inputs := rfl
@[simp] theorem State.answer_bus (s : State) (r : BusResponse) : (s.answer r).bus = r := rfl
@[simp] theorem State.answer_draws (s : State) (r : BusResponse) : (s.answer r).draws = s.draws := rfl

@[simp] theorem State.writeCtrl_params (s : State) (v : Word) : (s.writeCtrl v).params = s.params := rfl
@[simp] theorem State.writeCtrl_seq (s : State) (v : Word) : (s.writeCtrl v).seq = s.seq := rfl
@[simp] theorem State.writeCtrl_cmdWord (s : State) (v : Word) : (s.writeCtrl v).cmdWord = s.cmdWord := rfl
@[simp] theorem State.writeCtrl_inReset (s : State) (v : Word) : (s.writeCtrl v).inReset = s.inReset := rfl
@[simp] theorem State.writeCtrl_irqEn (s : State) (v : Word) : (s.writeCtrl v).irqEn = v.getLsbD 0 := rfl
@[simp] theorem State.writeCtrl_done (s : State) (v : Word) : (s.writeCtrl v).done = s.done := rfl
@[simp] theorem State.writeCtrl_err (s : State) (v : Word) : (s.writeCtrl v).err = s.err := rfl
@[simp] theorem State.writeCtrl_dropped (s : State) (v : Word) : (s.writeCtrl v).dropped = s.dropped := rfl
@[simp] theorem State.writeCtrl_errCode (s : State) (v : Word) : (s.writeCtrl v).errCode = s.errCode := rfl
@[simp] theorem State.writeCtrl_inLen (s : State) (v : Word) : (s.writeCtrl v).inLen = s.inLen := rfl
@[simp] theorem State.writeCtrl_outLen (s : State) (v : Word) : (s.writeCtrl v).outLen = s.outLen := rfl
@[simp] theorem State.writeCtrl_errOffset (s : State) (v : Word) : (s.writeCtrl v).errOffset = s.errOffset := rfl
@[simp] theorem State.writeCtrl_errDetail (s : State) (v : Word) : (s.writeCtrl v).errDetail = s.errDetail := rfl
@[simp] theorem State.writeCtrl_errBit (s : State) (v : Word) : (s.writeCtrl v).errBit = s.errBit := rfl
@[simp] theorem State.writeCtrl_valid (s : State) (v : Word) : (s.writeCtrl v).valid = s.valid := rfl
@[simp] theorem State.writeCtrl_enc (s : State) (v : Word) : (s.writeCtrl v).enc = s.enc := rfl
@[simp] theorem State.writeCtrl_dec (s : State) (v : Word) : (s.writeCtrl v).dec = s.dec := rfl
@[simp] theorem State.writeCtrl_ibuf (s : State) (v : Word) : (s.writeCtrl v).ibuf = s.ibuf := rfl
@[simp] theorem State.writeCtrl_obuf (s : State) (v : Word) : (s.writeCtrl v).obuf = s.obuf := rfl
@[simp] theorem State.writeCtrl_obufLost (s : State) (v : Word) : (s.writeCtrl v).obufLost = s.obufLost := rfl
@[simp] theorem State.writeCtrl_inputs (s : State) (v : Word) : (s.writeCtrl v).inputs = s.inputs := rfl
@[simp] theorem State.writeCtrl_bus (s : State) (v : Word) : (s.writeCtrl v).bus = s.bus := rfl
@[simp] theorem State.writeCtrl_draws (s : State) (v : Word) : (s.writeCtrl v).draws = s.draws := rfl

@[simp] theorem State.writeStatus_params (s : State) (v : Word) : (s.writeStatus v).params = s.params := rfl
@[simp] theorem State.writeStatus_seq (s : State) (v : Word) : (s.writeStatus v).seq = s.seq := rfl
@[simp] theorem State.writeStatus_cmdWord (s : State) (v : Word) : (s.writeStatus v).cmdWord = s.cmdWord := rfl
@[simp] theorem State.writeStatus_inReset (s : State) (v : Word) : (s.writeStatus v).inReset = s.inReset := rfl
@[simp] theorem State.writeStatus_irqEn (s : State) (v : Word) : (s.writeStatus v).irqEn = s.irqEn := rfl
@[simp] theorem State.writeStatus_done (s : State) (v : Word) : (s.writeStatus v).done = (s.done && !v.getLsbD 1) := rfl
@[simp] theorem State.writeStatus_err (s : State) (v : Word) : (s.writeStatus v).err = (s.err && !v.getLsbD 2) := rfl
@[simp] theorem State.writeStatus_dropped (s : State) (v : Word) : (s.writeStatus v).dropped = (s.dropped && !v.getLsbD 3) := rfl
@[simp] theorem State.writeStatus_errCode (s : State) (v : Word) : (s.writeStatus v).errCode = s.errCode := rfl
@[simp] theorem State.writeStatus_inLen (s : State) (v : Word) : (s.writeStatus v).inLen = s.inLen := rfl
@[simp] theorem State.writeStatus_outLen (s : State) (v : Word) : (s.writeStatus v).outLen = s.outLen := rfl
@[simp] theorem State.writeStatus_errOffset (s : State) (v : Word) : (s.writeStatus v).errOffset = s.errOffset := rfl
@[simp] theorem State.writeStatus_errDetail (s : State) (v : Word) : (s.writeStatus v).errDetail = s.errDetail := rfl
@[simp] theorem State.writeStatus_errBit (s : State) (v : Word) : (s.writeStatus v).errBit = s.errBit := rfl
@[simp] theorem State.writeStatus_valid (s : State) (v : Word) : (s.writeStatus v).valid = s.valid := rfl
@[simp] theorem State.writeStatus_enc (s : State) (v : Word) : (s.writeStatus v).enc = s.enc := rfl
@[simp] theorem State.writeStatus_dec (s : State) (v : Word) : (s.writeStatus v).dec = s.dec := rfl
@[simp] theorem State.writeStatus_ibuf (s : State) (v : Word) : (s.writeStatus v).ibuf = s.ibuf := rfl
@[simp] theorem State.writeStatus_obuf (s : State) (v : Word) : (s.writeStatus v).obuf = s.obuf := rfl
@[simp] theorem State.writeStatus_obufLost (s : State) (v : Word) : (s.writeStatus v).obufLost = s.obufLost := rfl
@[simp] theorem State.writeStatus_inputs (s : State) (v : Word) : (s.writeStatus v).inputs = s.inputs := rfl
@[simp] theorem State.writeStatus_bus (s : State) (v : Word) : (s.writeStatus v).bus = s.bus := rfl
@[simp] theorem State.writeStatus_draws (s : State) (v : Word) : (s.writeStatus v).draws = s.draws := rfl

@[simp] theorem State.resetRegisters_params (s : State) : s.resetRegisters.params = s.params := rfl
@[simp] theorem State.resetRegisters_seq (s : State) : s.resetRegisters.seq = .idle := rfl
@[simp] theorem State.resetRegisters_cmdWord (s : State) : s.resetRegisters.cmdWord = 0#32 := rfl
@[simp] theorem State.resetRegisters_inReset (s : State) : s.resetRegisters.inReset = s.inReset := rfl
@[simp] theorem State.resetRegisters_irqEn (s : State) : s.resetRegisters.irqEn = false := rfl
@[simp] theorem State.resetRegisters_done (s : State) : s.resetRegisters.done = false := rfl
@[simp] theorem State.resetRegisters_err (s : State) : s.resetRegisters.err = false := rfl
@[simp] theorem State.resetRegisters_dropped (s : State) : s.resetRegisters.dropped = false := rfl
@[simp] theorem State.resetRegisters_errCode (s : State) : s.resetRegisters.errCode = 0#8 := rfl
@[simp] theorem State.resetRegisters_inLen (s : State) : s.resetRegisters.inLen = 0#32 := rfl
@[simp] theorem State.resetRegisters_outLen (s : State) : s.resetRegisters.outLen = 0#32 := rfl
@[simp] theorem State.resetRegisters_errOffset (s : State) : s.resetRegisters.errOffset = 0#32 := rfl
@[simp] theorem State.resetRegisters_errDetail (s : State) : s.resetRegisters.errDetail = 0#8 := rfl
@[simp] theorem State.resetRegisters_errBit (s : State) : s.resetRegisters.errBit = 0#3 := rfl
@[simp] theorem State.resetRegisters_valid (s : State) : s.resetRegisters.valid = Valid.reset := rfl
@[simp] theorem State.resetRegisters_enc (s : State) : s.resetRegisters.enc = EncProducts.reset := rfl
@[simp] theorem State.resetRegisters_dec (s : State) : s.resetRegisters.dec = DecProducts.reset := rfl
@[simp] theorem State.resetRegisters_ibuf (s : State) : s.resetRegisters.ibuf = s.ibuf := rfl
@[simp] theorem State.resetRegisters_obuf (s : State) : s.resetRegisters.obuf = s.obuf := rfl
@[simp] theorem State.resetRegisters_obufLost (s : State) : s.resetRegisters.obufLost = s.obufLost := rfl
@[simp] theorem State.resetRegisters_inputs (s : State) : s.resetRegisters.inputs = s.inputs := rfl
@[simp] theorem State.resetRegisters_bus (s : State) : s.resetRegisters.bus = s.bus := rfl
@[simp] theorem State.resetRegisters_draws (s : State) : s.resetRegisters.draws = s.draws := rfl

@[simp] theorem State.applyPower_params (s : State) : s.applyPower.params = s.params := rfl
@[simp] theorem State.applyPower_seq (s : State) : s.applyPower.seq = .idle := rfl
@[simp] theorem State.applyPower_cmdWord (s : State) : s.applyPower.cmdWord = 0#32 := rfl
@[simp] theorem State.applyPower_inReset (s : State) : s.applyPower.inReset = true := rfl
@[simp] theorem State.applyPower_irqEn (s : State) : s.applyPower.irqEn = false := rfl
@[simp] theorem State.applyPower_done (s : State) : s.applyPower.done = false := rfl
@[simp] theorem State.applyPower_err (s : State) : s.applyPower.err = false := rfl
@[simp] theorem State.applyPower_dropped (s : State) : s.applyPower.dropped = false := rfl
@[simp] theorem State.applyPower_errCode (s : State) : s.applyPower.errCode = 0#8 := rfl
@[simp] theorem State.applyPower_inLen (s : State) : s.applyPower.inLen = 0#32 := rfl
@[simp] theorem State.applyPower_outLen (s : State) : s.applyPower.outLen = 0#32 := rfl
@[simp] theorem State.applyPower_errOffset (s : State) : s.applyPower.errOffset = 0#32 := rfl
@[simp] theorem State.applyPower_errDetail (s : State) : s.applyPower.errDetail = 0#8 := rfl
@[simp] theorem State.applyPower_errBit (s : State) : s.applyPower.errBit = 0#3 := rfl
@[simp] theorem State.applyPower_valid (s : State) : s.applyPower.valid = Valid.reset := rfl
@[simp] theorem State.applyPower_enc (s : State) : s.applyPower.enc = EncProducts.reset := rfl
@[simp] theorem State.applyPower_dec (s : State) : s.applyPower.dec = DecProducts.reset := rfl
@[simp] theorem State.applyPower_ibuf (s : State) : s.applyPower.ibuf = [] := rfl
@[simp] theorem State.applyPower_obuf (s : State) : s.applyPower.obuf = [] := rfl
@[simp] theorem State.applyPower_obufLost (s : State) : s.applyPower.obufLost = none := rfl
@[simp] theorem State.applyPower_inputs (s : State) : s.applyPower.inputs = s.inputs := rfl
@[simp] theorem State.applyPower_bus (s : State) : s.applyPower.bus = s.bus := rfl
@[simp] theorem State.applyPower_draws (s : State) : s.applyPower.draws = s.draws := rfl

@[simp] theorem storeDecoded_eq (s : State) (out : List Byte) :
    storeDecoded s out = { s with obuf := s.obuf.writeBytes 0 out } := rfl

/-! ### VALID -/

@[simp] theorem Valid.beforeFreq_ft (v : Valid) : v.beforeFreq.ft = false := rfl
@[simp] theorem Valid.beforeFreq_etree (v : Valid) : v.beforeFreq.etree = false := rfl
@[simp] theorem Valid.beforeFreq_ct (v : Valid) : v.beforeFreq.ct = false := rfl
@[simp] theorem Valid.beforeFreq_etab (v : Valid) : v.beforeFreq.etab = false := rfl
@[simp] theorem Valid.beforeFreq_pbuf (v : Valid) : v.beforeFreq.pbuf = false := rfl
@[simp] theorem Valid.beforeFreq_hdr (v : Valid) : v.beforeFreq.hdr = v.hdr := rfl
@[simp] theorem Valid.beforeFreq_dtab (v : Valid) : v.beforeFreq.dtab = v.dtab := rfl
@[simp] theorem Valid.beforeFreq_dtree (v : Valid) : v.beforeFreq.dtree = v.dtree := rfl

@[simp] theorem Valid.beforeBuildTree_ft (v : Valid) : v.beforeBuildTree.ft = v.ft := rfl
@[simp] theorem Valid.beforeBuildTree_etree (v : Valid) : v.beforeBuildTree.etree = false := rfl
@[simp] theorem Valid.beforeBuildTree_ct (v : Valid) : v.beforeBuildTree.ct = false := rfl
@[simp] theorem Valid.beforeBuildTree_etab (v : Valid) : v.beforeBuildTree.etab = false := rfl
@[simp] theorem Valid.beforeBuildTree_pbuf (v : Valid) : v.beforeBuildTree.pbuf = false := rfl
@[simp] theorem Valid.beforeBuildTree_hdr (v : Valid) : v.beforeBuildTree.hdr = v.hdr := rfl
@[simp] theorem Valid.beforeBuildTree_dtab (v : Valid) : v.beforeBuildTree.dtab = v.dtab := rfl
@[simp] theorem Valid.beforeBuildTree_dtree (v : Valid) : v.beforeBuildTree.dtree = v.dtree := rfl

@[simp] theorem Valid.beforeDeriveCodes_ft (v : Valid) : v.beforeDeriveCodes.ft = v.ft := rfl
@[simp] theorem Valid.beforeDeriveCodes_etree (v : Valid) : v.beforeDeriveCodes.etree = v.etree := rfl
@[simp] theorem Valid.beforeDeriveCodes_ct (v : Valid) : v.beforeDeriveCodes.ct = false := rfl
@[simp] theorem Valid.beforeDeriveCodes_etab (v : Valid) : v.beforeDeriveCodes.etab = false := rfl
@[simp] theorem Valid.beforeDeriveCodes_pbuf (v : Valid) : v.beforeDeriveCodes.pbuf = false := rfl
@[simp] theorem Valid.beforeDeriveCodes_hdr (v : Valid) : v.beforeDeriveCodes.hdr = v.hdr := rfl
@[simp] theorem Valid.beforeDeriveCodes_dtab (v : Valid) : v.beforeDeriveCodes.dtab = v.dtab := rfl
@[simp] theorem Valid.beforeDeriveCodes_dtree (v : Valid) : v.beforeDeriveCodes.dtree = v.dtree := rfl

@[simp] theorem Valid.beforeEncodeTable_ft (v : Valid) : v.beforeEncodeTable.ft = v.ft := rfl
@[simp] theorem Valid.beforeEncodeTable_etree (v : Valid) : v.beforeEncodeTable.etree = v.etree := rfl
@[simp] theorem Valid.beforeEncodeTable_ct (v : Valid) : v.beforeEncodeTable.ct = v.ct := rfl
@[simp] theorem Valid.beforeEncodeTable_etab (v : Valid) : v.beforeEncodeTable.etab = false := rfl
@[simp] theorem Valid.beforeEncodeTable_pbuf (v : Valid) : v.beforeEncodeTable.pbuf = v.pbuf := rfl
@[simp] theorem Valid.beforeEncodeTable_hdr (v : Valid) : v.beforeEncodeTable.hdr = v.hdr := rfl
@[simp] theorem Valid.beforeEncodeTable_dtab (v : Valid) : v.beforeEncodeTable.dtab = v.dtab := rfl
@[simp] theorem Valid.beforeEncodeTable_dtree (v : Valid) : v.beforeEncodeTable.dtree = v.dtree := rfl

@[simp] theorem Valid.beforePack_ft (v : Valid) : v.beforePack.ft = v.ft := rfl
@[simp] theorem Valid.beforePack_etree (v : Valid) : v.beforePack.etree = v.etree := rfl
@[simp] theorem Valid.beforePack_ct (v : Valid) : v.beforePack.ct = v.ct := rfl
@[simp] theorem Valid.beforePack_etab (v : Valid) : v.beforePack.etab = v.etab := rfl
@[simp] theorem Valid.beforePack_pbuf (v : Valid) : v.beforePack.pbuf = false := rfl
@[simp] theorem Valid.beforePack_hdr (v : Valid) : v.beforePack.hdr = v.hdr := rfl
@[simp] theorem Valid.beforePack_dtab (v : Valid) : v.beforePack.dtab = v.dtab := rfl
@[simp] theorem Valid.beforePack_dtree (v : Valid) : v.beforePack.dtree = v.dtree := rfl

@[simp] theorem Valid.beforeReadContainer_ft (v : Valid) : v.beforeReadContainer.ft = v.ft := rfl
@[simp] theorem Valid.beforeReadContainer_etree (v : Valid) : v.beforeReadContainer.etree = v.etree := rfl
@[simp] theorem Valid.beforeReadContainer_ct (v : Valid) : v.beforeReadContainer.ct = v.ct := rfl
@[simp] theorem Valid.beforeReadContainer_etab (v : Valid) : v.beforeReadContainer.etab = v.etab := rfl
@[simp] theorem Valid.beforeReadContainer_pbuf (v : Valid) : v.beforeReadContainer.pbuf = v.pbuf := rfl
@[simp] theorem Valid.beforeReadContainer_hdr (v : Valid) : v.beforeReadContainer.hdr = false := rfl
@[simp] theorem Valid.beforeReadContainer_dtab (v : Valid) : v.beforeReadContainer.dtab = false := rfl
@[simp] theorem Valid.beforeReadContainer_dtree (v : Valid) : v.beforeReadContainer.dtree = false := rfl

@[simp] theorem Valid.beforeDecodeTable_ft (v : Valid) : v.beforeDecodeTable.ft = v.ft := rfl
@[simp] theorem Valid.beforeDecodeTable_etree (v : Valid) : v.beforeDecodeTable.etree = v.etree := rfl
@[simp] theorem Valid.beforeDecodeTable_ct (v : Valid) : v.beforeDecodeTable.ct = v.ct := rfl
@[simp] theorem Valid.beforeDecodeTable_etab (v : Valid) : v.beforeDecodeTable.etab = v.etab := rfl
@[simp] theorem Valid.beforeDecodeTable_pbuf (v : Valid) : v.beforeDecodeTable.pbuf = v.pbuf := rfl
@[simp] theorem Valid.beforeDecodeTable_hdr (v : Valid) : v.beforeDecodeTable.hdr = v.hdr := rfl
@[simp] theorem Valid.beforeDecodeTable_dtab (v : Valid) : v.beforeDecodeTable.dtab = false := rfl
@[simp] theorem Valid.beforeDecodeTable_dtree (v : Valid) : v.beforeDecodeTable.dtree = false := rfl

@[simp] theorem Valid.beforeRebuildTree_ft (v : Valid) : v.beforeRebuildTree.ft = v.ft := rfl
@[simp] theorem Valid.beforeRebuildTree_etree (v : Valid) : v.beforeRebuildTree.etree = v.etree := rfl
@[simp] theorem Valid.beforeRebuildTree_ct (v : Valid) : v.beforeRebuildTree.ct = v.ct := rfl
@[simp] theorem Valid.beforeRebuildTree_etab (v : Valid) : v.beforeRebuildTree.etab = v.etab := rfl
@[simp] theorem Valid.beforeRebuildTree_pbuf (v : Valid) : v.beforeRebuildTree.pbuf = v.pbuf := rfl
@[simp] theorem Valid.beforeRebuildTree_hdr (v : Valid) : v.beforeRebuildTree.hdr = v.hdr := rfl
@[simp] theorem Valid.beforeRebuildTree_dtab (v : Valid) : v.beforeRebuildTree.dtab = v.dtab := rfl
@[simp] theorem Valid.beforeRebuildTree_dtree (v : Valid) : v.beforeRebuildTree.dtree = false := rfl

@[simp] theorem Valid.get_ft (v : Valid) : v.get .ft = v.ft := rfl
@[simp] theorem Valid.get_etree (v : Valid) : v.get .etree = v.etree := rfl
@[simp] theorem Valid.get_ct (v : Valid) : v.get .ct = v.ct := rfl
@[simp] theorem Valid.get_etab (v : Valid) : v.get .etab = v.etab := rfl
@[simp] theorem Valid.get_pbuf (v : Valid) : v.get .pbuf = v.pbuf := rfl
@[simp] theorem Valid.get_hdr (v : Valid) : v.get .hdr = v.hdr := rfl
@[simp] theorem Valid.get_dtab (v : Valid) : v.get .dtab = v.dtab := rfl
@[simp] theorem Valid.get_dtree (v : Valid) : v.get .dtree = v.dtree := rfl

@[simp] theorem Valid.reset_ft : Valid.reset.ft = false := rfl
@[simp] theorem Valid.reset_etree : Valid.reset.etree = false := rfl
@[simp] theorem Valid.reset_ct : Valid.reset.ct = false := rfl
@[simp] theorem Valid.reset_etab : Valid.reset.etab = false := rfl
@[simp] theorem Valid.reset_pbuf : Valid.reset.pbuf = false := rfl
@[simp] theorem Valid.reset_hdr : Valid.reset.hdr = false := rfl
@[simp] theorem Valid.reset_dtab : Valid.reset.dtab = false := rfl
@[simp] theorem Valid.reset_dtree : Valid.reset.dtree = false := rfl

/-! ### Sizes and views -/

@[simp] theorem State.isBusy_idle (s : State) (h : s.seq = .idle) : s.isBusy = false := by simp [State.isBusy, h]

@[simp] theorem State.isBusy_busy (s : State) (h : s.seq = .busy) : s.isBusy = true := by simp [State.isBusy, h]

theorem State.isBusy_iff (s : State) : s.isBusy = true ↔ s.seq = .busy := by simp [State.isBusy]

/-- Acceptance made twice is acceptance made once (rule R202). -/
theorem State.accept_accept (s : State) (w : Word) : (s.accept w).accept w = s.accept w := by
  unfold State.accept
  split <;> rfl

end Sys2Proof.Machine
end

