-- ==== Sys2Proof/Laws/Memory.lean ====
section
/-! SUPPORT. The laws of a buffer's memory: a read after a write, the canonical form, the bounds, runs of bytes. -/

namespace Sys2Proof.Machine.Memory

/-! ### One byte -/

theorem read_write_same (m : Memory) (a : Nat) (v : Byte) : (m.write a v).read a = some v := by
  induction m with
  | nil => simp [write, read]
  | cons c m ih =>
    obtain ⟨k, b⟩ := c
    by_cases h1 : a < k
    · simp [write, read, h1]
    · by_cases h2 : a = k
      · simp [write, read, h2]
      · simp [write, read, h1, h2, ih]

theorem read_write_other (m : Memory) {a x : Nat} (v : Byte) (h : x ≠ a) : (m.write a v).read x = m.read x := by
  induction m with
  | nil => simp [write, read, h]
  | cons c m ih =>
    obtain ⟨k, b⟩ := c
    by_cases h1 : a < k
    · simp [write, read, h1, h]
    · by_cases h2 : a = k
      · subst h2; simp [write, read, h]
      · simp [write, read, h1, h2, ih]

theorem read_write (m : Memory) (a x : Nat) (v : Byte) :
    (m.write a v).read x = if x = a then some v else m.read x := by
  split
  · next h => subst h; exact read_write_same m x v
  · next h => exact read_write_other m v h

/-! ### The canonical form -/

theorem wf_cons (a : Nat) (v : Byte) (m : Memory) :
    wf ((a, v) :: m) = true ↔ (∀ c ∈ m, a < c.1) ∧ m.wf = true := by
  induction m generalizing a v with
  | nil => simp [wf]
  | cons c m ih =>
    obtain ⟨k, b⟩ := c
    simp only [wf, Bool.and_eq_true, decide_eq_true_eq, ih, List.mem_cons, forall_eq_or_imp]
    constructor
    · rintro ⟨h1, h2, h3⟩
      exact ⟨⟨h1, fun x hx => Nat.lt_trans h1 (h2 x hx)⟩, h2, h3⟩
    · rintro ⟨⟨h1, _⟩, h2, h3⟩
      exact ⟨h1, h2, h3⟩

theorem mem_write {m : Memory} {a : Nat} {v : Byte} {c : Host.Cell} (h : c ∈ m.write a v) : c = (a, v) ∨ c ∈ m := by
  induction m with
  | nil => simpa [write] using h
  | cons d m ih =>
    obtain ⟨k, b⟩ := d
    by_cases h1 : a < k
    · simpa [write, h1] using h
    · by_cases h2 : a = k
      · rw [write, if_neg h1, if_pos h2] at h
        rcases List.mem_cons.mp h with h | h
        · exact .inl h
        · exact .inr (List.mem_cons_of_mem _ h)
      · rw [write, if_neg h1, if_neg h2] at h
        rcases List.mem_cons.mp h with h | h
        · exact .inr (h ▸ List.mem_cons_self ..)
        · exact (ih h).imp id (List.mem_cons_of_mem _)

theorem wf_write {m : Memory} (a : Nat) (v : Byte) (h : m.wf = true) : (m.write a v).wf = true := by
  induction m with
  | nil => rfl
  | cons d m ih =>
    obtain ⟨k, b⟩ := d
    obtain ⟨hk, hm⟩ := (wf_cons k b m).mp h
    by_cases h1 : a < k
    · rw [write, if_pos h1]
      refine (wf_cons _ _ _).mpr ⟨fun c hc => ?_, h⟩
      rcases List.mem_cons.mp hc with rfl | hc
      · exact h1
      · exact Nat.lt_trans h1 (hk c hc)
    · by_cases h2 : a = k
      · rw [write, if_neg h1, if_pos h2]
        exact (wf_cons _ _ _).mpr ⟨h2 ▸ hk, hm⟩
      · rw [write, if_neg h1, if_neg h2]
        refine (wf_cons _ _ _).mpr ⟨fun c hc => ?_, ih hm⟩
        rcases mem_write hc with rfl | hc
        · exact Nat.lt_of_le_of_ne (Nat.le_of_not_lt h1) (Ne.symm h2)
        · exact hk c hc

theorem below_write {m : Memory} {a n : Nat} (v : Byte) (ha : a < n) (h : m.below n = true) :
    (m.write a v).below n = true := by
  simp only [below, List.all_eq_true, decide_eq_true_eq] at h ⊢
  intro c hc
  rcases mem_write hc with rfl | hc
  · exact ha
  · exact h c hc

/-! ### Runs of bytes -/

theorem read_writeBytes (m : Memory) (a x : Nat) (vs : List Byte) :
    (m.writeBytes a vs).read x = if a ≤ x ∧ x < a + vs.length then vs[x - a]? else m.read x := by
  induction vs generalizing m a with
  | nil => simp [writeBytes]
  | cons v vs ih =>
    rw [writeBytes, ih, read_write]
    simp only [List.length_cons]
    by_cases h1 : x = a
    · subst h1; simp
    · by_cases h2 : a + 1 ≤ x ∧ x < a + 1 + vs.length
      · rw [if_pos h2, if_pos (by omega), List.getElem?_cons, if_neg (by omega)]
        congr 1
      · rw [if_neg h2, if_neg h1, if_neg (by omega)]

theorem wf_writeBytes {m : Memory} (a : Nat) (vs : List Byte) (h : m.wf = true) : (m.writeBytes a vs).wf = true := by
  induction vs generalizing m a with
  | nil => exact h
  | cons v vs ih => exact ih _ (wf_write a v h)

theorem below_writeBytes {m : Memory} {a n : Nat} (vs : List Byte) (ha : a + vs.length ≤ n) (h : m.below n = true) :
    (m.writeBytes a vs).below n = true := by
  induction vs generalizing m a with
  | nil => exact h
  | cons v vs ih =>
    rw [List.length_cons] at ha
    exact ih (by omega) (below_write v (by omega) h)

theorem readBytes_length {m : Memory} {a n : Nat} {bs : List Byte} (h : m.readBytes a n = some bs) : bs.length = n := by
  induction n generalizing a bs with
  | zero => simp [readBytes] at h; simp [h]
  | succ n ih =>
    simp only [readBytes] at h
    split at h
    · next h1 h2 => cases h; simp [ih h2]
    · cases h

theorem readBytes_get {m : Memory} {a n : Nat} {bs : List Byte} (h : m.readBytes a n = some bs) {k : Nat} (hk : k < n) :
    m.read (a + k) = bs[k]? := by
  induction n generalizing a bs k with
  | zero => omega
  | succ n ih =>
    simp only [readBytes] at h
    split at h
    · next b cs h1 h2 =>
      cases h
      cases k with
      | zero => simp [h1]
      | succ k => simpa [Nat.add_comm, Nat.add_left_comm] using ih h2 (k := k) (by omega)
    · cases h

theorem readBytes_eq_some_iff (m : Memory) (a n : Nat) (bs : List Byte) :
    m.readBytes a n = some bs ↔ bs.length = n ∧ ∀ k, k < n → m.read (a + k) = bs[k]? := by
  constructor
  · exact fun h => ⟨readBytes_length h, fun k hk => readBytes_get h hk⟩
  · rintro ⟨hl, h⟩
    induction n generalizing a bs with
    | zero => simp [readBytes, List.length_eq_zero_iff.mp hl]
    | succ n ih =>
      cases bs with
      | nil => simp at hl
      | cons b bs =>
        have h0 : m.read a = some b := by simpa using h 0 (by omega)
        have h1 : m.readBytes (a + 1) n = some bs := by
          refine ih (a + 1) bs (by simpa using hl) fun k hk => ?_
          simpa [Nat.add_comm, Nat.add_left_comm] using h (k + 1) (by omega)
        simp [readBytes, h0, h1]

theorem readBytes_writeBytes (m : Memory) (a : Nat) (vs : List Byte) :
    (m.writeBytes a vs).readBytes a vs.length = some vs := by
  rw [readBytes_eq_some_iff]
  refine ⟨rfl, fun k hk => ?_⟩
  rw [read_writeBytes, if_pos (by omega)]
  congr 1
  omega

/-- A run of bytes is there exactly when its two parts are. -/
theorem readBytes_append (m : Memory) (a : Nat) (xs ys : List Byte) :
    m.readBytes a (xs ++ ys).length = some (xs ++ ys) ↔
      m.readBytes a xs.length = some xs ∧ m.readBytes (a + xs.length) ys.length = some ys := by
  simp only [readBytes_eq_some_iff, true_and, List.length_append]
  constructor
  · refine fun h => ⟨fun k hk => ?_, fun k hk => ?_⟩
    · rw [h k (by omega), List.getElem?_append_left hk]
    · rw [Nat.add_assoc, h (xs.length + k) (by omega), List.getElem?_append_right (by omega)]
      congr 1
      omega
  · rintro ⟨h1, h2⟩ k hk
    by_cases h : k < xs.length
    · rw [h1 k h, List.getElem?_append_left h]
    · rw [List.getElem?_append_right (by omega), ← h2 (k - xs.length) (by omega)]
      congr 1
      omega

theorem readBytes_cons (m : Memory) (a : Nat) (x : Byte) (xs : List Byte) :
    m.readBytes a (x :: xs).length = some (x :: xs) ↔ m.read a = some x ∧ m.readBytes (a + 1) xs.length = some xs := by
  have h := readBytes_append m a [x] xs
  rw [List.singleton_append, List.length_singleton] at h
  rw [h]
  refine and_congr_left fun _ => ?_
  cases hx : m.read a <;> simp [readBytes, hx]

/-- Two memories in canonical form that read alike are the same list. -/
theorem eq_of_read_eq {m n : Memory} (hm : m.wf = true) (hn : n.wf = true) (h : ∀ a, m.read a = n.read a) : m = n := by
  have lt_read : ∀ {k : Nat} {p : Memory} {x : Nat}, (∀ c ∈ p, k < c.1) → x ≤ k → p.read x = none := by
    intro k p x hp hx
    induction p with
    | nil => rfl
    | cons c p ih =>
      have := hp c (List.mem_cons_self ..)
      rw [read, if_neg (by omega)]
      exact ih fun d hd => hp d (List.mem_cons_of_mem _ hd)
  induction m generalizing n with
  | nil =>
    cases n with
    | nil => rfl
    | cons d n => have := h d.1; simp [read] at this
  | cons c m ih =>
    obtain ⟨k, b⟩ := c
    obtain ⟨hk, hm'⟩ := (wf_cons k b m).mp hm
    cases n with
    | nil => have := h k; simp [read] at this
    | cons d n =>
      obtain ⟨j, e⟩ := d
      obtain ⟨hj, hn'⟩ := (wf_cons j e n).mp hn
      have hkj : k = j := by
        by_contra hne
        rcases Nat.lt_or_gt_of_ne hne with hlt | hlt
        · have := h k
          rw [read, if_pos rfl, read, if_neg hne, lt_read hj (by omega)] at this
          cases this
        · have := h j
          rw [read, if_neg (Ne.symm hne), lt_read hk (by omega), read, if_pos rfl] at this
          cases this
      subst hkj
      have hb : b = e := by simpa [read] using h k
      subst hb
      congr 1
      refine ih hm' hn' fun x => ?_
      by_cases hx : x = k
      · subst hx; rw [lt_read hk (Nat.le_refl _), lt_read hj (Nat.le_refl _)]
      · simpa [read, hx] using h x

end Sys2Proof.Machine.Memory

namespace Sys2Proof.Machine

/-- Reset's buffers are in canonical form. -/
theorem reset_memory_wf : State.reset.ibuf.wf = true ∧ State.reset.obuf.wf = true := ⟨rfl, rfl⟩

end Sys2Proof.Machine
end

