-- ==== Sys2Proof/Laws/Ops.lean ====
section
/-! SUPPORT. What each shared operation of a command can do, said once: how a command ends, the prerequisite check, the loops'
early stops and the engine's reads. -/

namespace Sys2Proof.Machine

/-! ### Ends -/

@[simp] theorem Result.outcome_finish (s : State) : (Result.finish s).outcome = .next s.finish := rfl
@[simp] theorem Result.outcome_raise (r : Report) (s : State) : (Result.raise r s).outcome = .next (s.raise r) := rfl
@[simp] theorem Result.outcome_fault (f : Fault) : (Result.fault f).outcome = .fault f := rfl

/-- A command that answers a next state has finished or raised. -/
theorem Result.outcome_eq_next {x : Result} {t : State} (h : x.outcome = .next t) :
    (∃ s, x = .finish s ∧ t = s.finish) ∨ ∃ r s, x = .raise r s ∧ t = s.raise r := by
  cases x with
  | finish s => cases h; exact .inl ⟨s, rfl, rfl⟩
  | raise r s => cases h; exact .inr ⟨r, s, rfl, rfl⟩
  | fault f => cases h

@[simp] theorem Result.andThen_finish (s : State) (k : State → Result) : (Result.finish s).andThen k = k s := rfl
@[simp] theorem Result.andThen_raise (r : Report) (s : State) (k : State → Result) :
    (Result.raise r s).andThen k = .raise r s := rfl
@[simp] theorem Result.andThen_fault (f : Fault) (k : State → Result) : (Result.fault f).andThen k = .fault f := rfl

theorem Result.andThen_eq_finish {x : Result} {k : State → Result} {t : State} (h : x.andThen k = .finish t) :
    ∃ s, x = .finish s ∧ k s = .finish t := by
  cases x with
  | finish s => exact ⟨s, rfl, h⟩
  | raise r s => cases h
  | fault f => cases h

theorem Result.andThen_eq_raise {x : Result} {k : State → Result} {r : Report} {t : State}
    (h : x.andThen k = .raise r t) : x = .raise r t ∨ ∃ s, x = .finish s ∧ k s = .raise r t := by
  cases x with
  | finish s => exact .inr ⟨s, rfl, h⟩
  | raise r' s => exact .inl h
  | fault f => cases h

/-! ### Loops -/

@[simp] theorem Result.afterLoop_ok {α : Type} (a : α) (s : State) (k : α → Result) :
    Result.afterLoop (.ok a) s k = k a := rfl
@[simp] theorem Result.afterLoop_raise {α : Type} (r : Report) (s : State) (k : α → Result) :
    Result.afterLoop (.error (.raise r)) s k = .raise r s := rfl
@[simp] theorem Result.afterLoop_fault {α : Type} (f : Fault) (s : State) (k : α → Result) :
    Result.afterLoop (.error (.fault f)) s k = .fault f := rfl

theorem Result.afterLoop_eq_finish {α : Type} {x : Except Stop α} {s t : State} {k : α → Result}
    (h : Result.afterLoop x s k = .finish t) : ∃ a, x = .ok a ∧ k a = .finish t := by
  rcases x with (r | f) | a
  · cases h
  · cases h
  · exact ⟨a, rfl, h⟩

theorem Result.afterLoop_eq_raise {α : Type} {x : Except Stop α} {s t : State} {r : Report} {k : α → Result}
    (h : Result.afterLoop x s k = .raise r t) :
    (x = .error (.raise r) ∧ t = s) ∨ ∃ a, x = .ok a ∧ k a = .raise r t := by
  rcases x with (r' | f) | a
  · cases h; exact .inl ⟨rfl, rfl⟩
  · cases h
  · exact .inr ⟨a, rfl, h⟩

/-- A computation in two parts stops in the first or, when that gives a value, in the second. -/
theorem except_bind_eq_error {ε α β : Type} {x : Except ε α} {k : α → Except ε β} {e : ε} :
    (x >>= k) = .error e ↔ x = .error e ∨ ∃ a, x = .ok a ∧ k a = .error e := by
  cases x <;> simp [bind, Except.bind]

/-- Every report a computation can raise has a kind of the list; it may also stop with a fault. -/
def RaisesOnly (kinds : List ErrorKind) {α : Type} (x : Except Stop α) : Prop :=
  ∀ r : Report, x = .error (.raise r) → r.kind ∈ kinds

theorem RaisesOnly.ok {kinds : List ErrorKind} {α : Type} {a : α} : RaisesOnly kinds (.ok a : Except Stop α) := nofun

theorem RaisesOnly.raise {kinds : List ErrorKind} {α : Type} {r : Report} (h : r.kind ∈ kinds) :
    RaisesOnly kinds (.error (.raise r) : Except Stop α) := by rintro _ ⟨⟩; exact h

theorem RaisesOnly.bind {kinds : List ErrorKind} {α β : Type} {x : Except Stop α} {k : α → Except Stop β}
    (hx : RaisesOnly kinds x) (hk : ∀ a, RaisesOnly kinds (k a)) : RaisesOnly kinds (x >>= k) := fun r h =>
  (except_bind_eq_error.mp h).elim (hx r) fun ⟨a, _, h⟩ => hk a r h

theorem RaisesOnly.ite {kinds : List ErrorKind} {α : Type} {p : Prop} [Decidable p] {x y : Except Stop α}
    (hx : RaisesOnly kinds x) (hy : RaisesOnly kinds y) : RaisesOnly kinds (if p then x else y) := by
  split
  · exact hx
  · exact hy

/-! ### Prerequisites -/

theorem firstMissing_none {v : Valid} {need : List ValidBit} :
    firstMissing v need = none ↔ ∀ b ∈ need, v.get b = true := by
  induction need with
  | nil => simp [firstMissing]
  | cons b bs ih =>
    cases h : v.get b <;> simp [firstMissing, h, ih]

theorem firstMissing_some {v : Valid} {before after : List ValidBit} {b : ValidBit}
    (hb : ∀ p ∈ before, v.get p = true) (h : v.get b = false) :
    firstMissing v (before ++ b :: after) = some b := by
  induction before with
  | nil => simp [firstMissing, h]
  | cons p ps ih =>
    simp only [List.mem_cons, forall_eq_or_imp] at hb
    simp [firstMissing, hb.1, ih hb.2]

theorem requireFlags_met {need : List ValidBit} {s : State} (k : State → Result)
    (h : ∀ b ∈ need, s.valid.get b = true) : requireFlags need s k = k s := by
  simp [requireFlags, firstMissing_none.mpr h]

theorem requireFlags_missing {need : List ValidBit} {s : State} {b : ValidBit} (k : State → Result)
    (h : firstMissing s.valid need = some b) :
    requireFlags need s k = .raise { kind := .sequenceError, detail := BitVec.ofNat 8 (b.number + 1) } s := by
  simp [requireFlags, h]

/-- The prerequisite check either lets the command go on or raises SequenceError with nothing changed. -/
theorem requireFlags_cases (need : List ValidBit) (s : State) (k : State → Result) :
    ((∀ b ∈ need, s.valid.get b = true) ∧ requireFlags need s k = k s) ∨
    ∃ b ∈ need, s.valid.get b = false ∧
      requireFlags need s k = .raise { kind := .sequenceError, detail := BitVec.ofNat 8 (b.number + 1) } s := by
  cases h : firstMissing s.valid need with
  | none => exact .inl ⟨firstMissing_none.mp h, requireFlags_met k (firstMissing_none.mp h)⟩
  | some b =>
    refine .inr ⟨b, ?_, ?_, requireFlags_missing k h⟩ <;>
    · clear k
      induction need with
      | nil => simp [firstMissing] at h
      | cons c cs ih =>
        cases hc : s.valid.get c <;> simp_all [firstMissing]

@[simp] theorem requireFlags_ft (s : State) (k : State → Result) (h : s.valid.ft = true) :
    requireFlags [.ft] s k = k s := requireFlags_met k (by simp [h])
@[simp] theorem requireFlags_etree (s : State) (k : State → Result) (h : s.valid.etree = true) :
    requireFlags [.etree] s k = k s := requireFlags_met k (by simp [h])
@[simp] theorem requireFlags_ct (s : State) (k : State → Result) (h : s.valid.ct = true) :
    requireFlags [.ct] s k = k s := requireFlags_met k (by simp [h])
@[simp] theorem requireFlags_etab_pbuf (s : State) (k : State → Result) (h : s.valid.etab = true)
    (h' : s.valid.pbuf = true) : requireFlags [.etab, .pbuf] s k = k s := requireFlags_met k (by simp [h, h'])
@[simp] theorem requireFlags_hdr (s : State) (k : State → Result) (h : s.valid.hdr = true) :
    requireFlags [.hdr] s k = k s := requireFlags_met k (by simp [h])
@[simp] theorem requireFlags_dtab (s : State) (k : State → Result) (h : s.valid.dtab = true) :
    requireFlags [.dtab] s k = k s := requireFlags_met k (by simp [h])
@[simp] theorem requireFlags_hdr_dtree (s : State) (k : State → Result) (h : s.valid.hdr = true)
    (h' : s.valid.dtree = true) : requireFlags [.hdr, .dtree] s k = k s := requireFlags_met k (by simp [h, h'])

/-! ### The engine's reads -/

theorem readIbuf_ok {s : State} {a : Nat} {b : Byte} (ha : a < s.ibufSize) (h : s.ibuf.read a = some b) :
    readIbuf s a = .ok b := by simp [readIbuf, ha, h]

theorem readIbuf_eq_ok_iff {s : State} {a : Nat} {b : Byte} :
    readIbuf s a = .ok b ↔ a < s.ibufSize ∧ s.ibuf.read a = some b := by
  constructor
  · intro h
    unfold readIbuf at h
    split at h
    · next ha =>
      split at h
      · next hb => cases h; exact ⟨ha, hb⟩
      · cases h
    · cases h
  · exact fun h => readIbuf_ok h.1 h.2

/-- A read stops with a fault only, never with a raise. -/
theorem readIbuf_error {s : State} {a : Nat} {e : Stop} (h : readIbuf s a = .error e) : ∃ f, e = .fault f := by
  unfold readIbuf at h
  split at h
  · split at h
    · cases h
    · cases h; exact ⟨_, rfl⟩
  · cases h; exact ⟨_, rfl⟩

/-- A read of a byte never written stops at it (rule R75). -/
theorem readIbuf_unwritten {s : State} {a : Nat} (ha : a < s.ibufSize) (h : s.ibuf.read a = none) :
    readIbuf s a = .error (.fault (.unwrittenIbuf a)) := by simp [readIbuf, ha, h]

/-- A read depends on IBUF and its size alone. -/
theorem readIbuf_congr {s t : State} {a : Nat} (hp : s.params = t.params) (h : s.ibuf.read a = t.ibuf.read a) :
    readIbuf s a = readIbuf t a := by
  unfold readIbuf State.ibufSize
  rw [hp, h]

theorem readIbufBytes_ok {s : State} {a n : Nat} {bs : List Byte} (ha : a + n ≤ s.ibufSize)
    (h : s.ibuf.readBytes a n = some bs) : readIbufBytes s a n = .ok bs := by
  induction n generalizing a bs with
  | zero => simp [Memory.readBytes] at h; simp [readIbufBytes, h]
  | succ n ih =>
    simp only [Memory.readBytes] at h
    split at h
    · next b cs h1 h2 =>
      cases h
      rw [readIbufBytes, readIbuf_ok (by omega) h1, ih (by omega) h2]
    · cases h

theorem readIbufBytes_eq_ok {s : State} {a n : Nat} {bs : List Byte} (h : readIbufBytes s a n = .ok bs) :
    s.ibuf.readBytes a n = some bs ∧ bs.length = n ∧ (n = 0 ∨ a + n ≤ s.ibufSize) := by
  induction n generalizing a bs with
  | zero => simp [readIbufBytes] at h; subst h; exact ⟨rfl, rfl, .inl rfl⟩
  | succ n ih =>
    rw [readIbufBytes] at h
    split at h
    · cases h
    · next b hb =>
      split at h
      · cases h
      · next cs hcs =>
        cases h
        obtain ⟨h1, h2, h3⟩ := ih hcs
        obtain ⟨h4, h5⟩ := readIbuf_eq_ok_iff.mp hb
        refine ⟨by simp [Memory.readBytes, h5, h1], by simp [h2], .inr ?_⟩
        rcases h3 with h3 | h3 <;> omega

theorem readIbufBytes_error {s : State} {a n : Nat} {e : Stop} (h : readIbufBytes s a n = .error e) :
    ∃ f, e = .fault f := by
  induction n generalizing a with
  | zero => cases h
  | succ n ih =>
    rw [readIbufBytes] at h
    split at h
    · next he => cases h; exact readIbuf_error he
    · split at h
      · next he => cases h; exact ih he
      · cases h

/-- A run of reads stops at its first byte never written (rules R73 and R75). -/
theorem readIbufBytes_unwritten {s : State} {a n k : Nat} {before : List Byte} (hk : k < n) (ha : a + k < s.ibufSize)
    (hb : s.ibuf.readBytes a k = some before) (h : s.ibuf.read (a + k) = none) :
    readIbufBytes s a n = .error (.fault (.unwrittenIbuf (a + k))) := by
  induction k generalizing a n before with
  | zero =>
    obtain ⟨n, rfl⟩ := Nat.exists_eq_add_one.mpr hk
    rw [readIbufBytes, readIbuf_unwritten (s := s) (a := a) (by omega) h]
    rfl
  | succ k ih =>
    obtain ⟨n, rfl⟩ := Nat.exists_eq_add_one.mpr (Nat.zero_lt_of_lt hk)
    simp only [Memory.readBytes] at hb
    split at hb
    · next b bs h1 h2 =>
      rw [readIbufBytes, readIbuf_ok (by omega) h1,
        ih (by omega) (by omega) h2 (by rw [show a + 1 + k = a + (k + 1) by omega]; exact h),
        show a + 1 + k = a + (k + 1) by omega]
    · cases hb

theorem readIbuf_raisesOnly {kinds : List ErrorKind} {s : State} {a : Nat} : RaisesOnly kinds (readIbuf s a) := fun r h => by
  obtain ⟨f, hf⟩ := readIbuf_error h
  cases hf

theorem readIbufBytes_raisesOnly {kinds : List ErrorKind} {s : State} {a n : Nat} :
    RaisesOnly kinds (readIbufBytes s a n) := fun r h => by
  obtain ⟨f, hf⟩ := readIbufBytes_error h
  cases hf

end Sys2Proof.Machine
end

