-- ==== Sys2Proof/Laws/Packing.lean ====
section
/-! SUPPORT. Bits packed into bytes and back (spec/30_encoding.md rules R103 and R106 to R108), and what PACK's loops do
(spec/40_encoder.md rule R136). -/

namespace Sys2Proof.Machine

/-- The accumulator holds exactly the bits `bits`, from bit 7 down, and zeros below. -/
def Holds (acc : Byte) (bits : List Bool) : Prop := ∀ m, m < 8 → acc.getLsbD (7 - m) = (bits[m]?).getD false

theorem holds_zero : Holds 0#8 [] := by intro m _; simp

theorem holds_placeBit {acc : Byte} {bits : List Bool} {b : Bool} (h : Holds acc bits) (hn : bits.length < 8) :
    Holds (placeBit acc bits.length b) (bits ++ [b]) := by
  intro m hm
  have hacc := h m hm
  simp only [placeBit, BitVec.getLsbD_or, hacc, BitVec.getLsbD_shiftLeft, BitVec.getLsbD_setWidth, BitVec.getLsbD_ofBool]
  rcases Nat.lt_trichotomy m bits.length with hlt | heq | hgt
  · rw [List.getElem?_append_left hlt]
    have : ¬ (7 - m < 7 - bits.length) := by omega
    have h2 : ¬ (7 - m - (7 - bits.length) = 0) := by omega
    simp [h2]
  · subst heq
    simp
    omega
  · rw [List.getElem?_eq_none (by omega), List.getElem?_eq_none (by simp; omega)]
    have : 7 - m < 7 - bits.length := by omega
    simp [this]

/-- What `packFrom` makes of the bits held and the bits to come. -/
theorem packFrom_spec {acc : Byte} {held bits : List Bool} (h : Holds acc held) (hn : held.length < 8) :
    (packFrom acc held.length bits).length = (held.length + bits.length + 7) / 8 ∧
    ∀ (k m : Nat) (b : Byte), m < 8 → (packFrom acc held.length bits)[k]? = some b →
      b.getLsbD (7 - m) = ((held ++ bits)[8 * k + m]?).getD false := by
  induction bits generalizing acc held with
  | nil =>
    unfold packFrom
    split
    · next h0 => simp [h0]
    · next h0 =>
      refine ⟨by simp; omega, fun k m b hm hb => ?_⟩
      cases k with
      | zero => simp at hb; subst hb; simpa using h m hm
      | succ k => simp at hb
  | cons b bs ih =>
    have hp := holds_placeBit (b := b) h hn
    unfold packFrom
    split
    · next h8 =>
      obtain ⟨hl, hb⟩ := ih holds_zero (by simp)
      simp only [List.length_nil, Nat.zero_add, List.nil_append] at hl hb
      refine ⟨by simp only [List.length_cons, hl]; omega, fun k m c hm hc => ?_⟩
      cases k with
      | zero =>
        simp at hc
        subst hc
        rw [hp m hm, show held ++ b :: bs = (held ++ [b]) ++ bs by simp, Nat.mul_zero, Nat.zero_add,
          List.getElem?_append_left (l₁ := held ++ [b]) (by simp; omega)]
      | succ k =>
        rw [List.getElem?_cons_succ] at hc
        rw [hb k m c hm hc, show held ++ b :: bs = (held ++ [b]) ++ bs by simp,
          List.getElem?_append_right (by simp; omega)]
        congr 2
        simp
        omega
    · next h8 =>
      have := ih (held := held ++ [b]) hp (by simp; omega)
      simp only [List.length_append, List.length_cons, List.length_nil, Nat.zero_add, List.append_assoc,
        List.cons_append, List.nil_append] at this
      refine ⟨by rw [this.1, List.length_cons]; omega, this.2⟩

theorem packMSB_length (bits : List Bool) : (packMSB bits).length = (bits.length + 7) / 8 := by
  simpa [packMSB] using (packFrom_spec (bits := bits) holds_zero (by simp)).1

theorem packMSB_bit {bits : List Bool} {k m : Nat} {b : Byte} (hm : m < 8) (h : (packMSB bits)[k]? = some b) :
    b.getLsbD (7 - m) = (bits[8 * k + m]?).getD false := by
  simpa using (packFrom_spec (bits := bits) holds_zero (by simp)).2 k m b hm h

/-! ### Back to bits -/

@[simp] theorem bitsOfByte_length (b : Byte) : (bitsOfByte b).length = 8 := by simp [bitsOfByte]

theorem bitsOfByte_get (b : Byte) {m : Nat} (hm : m < 8) : (bitsOfByte b)[m]? = some (b.getLsbD (7 - m)) := by
  simp [bitsOfByte, hm]

theorem flatMap_bitsOfByte_length (bytes : List Byte) : (bytes.flatMap bitsOfByte).length = 8 * bytes.length := by
  induction bytes with
  | nil => rfl
  | cons b bs ih => simp [ih]; omega

theorem flatMap_bitsOfByte_get (bytes : List Byte) (j : Nat) :
    (bytes.flatMap bitsOfByte)[j]? = (bytes[j / 8]?).map fun b => b.getLsbD (7 - j % 8) := by
  induction bytes generalizing j with
  | nil => simp
  | cons b bs ih =>
    rw [List.flatMap_cons]
    by_cases h : j < 8
    · rw [List.getElem?_append_left (by simpa using h), bitsOfByte_get b h, Nat.div_eq_of_lt h, Nat.mod_eq_of_lt h]
      simp
    · rw [List.getElem?_append_right (by simpa using h), bitsOfByte_length, ih,
        show j / 8 = (j - 8) / 8 + 1 by omega, show (j - 8) % 8 = j % 8 by omega]
      simp

theorem unpackMSB_length {n : Nat} {bytes : List Byte} (h : n ≤ 8 * bytes.length) : (unpackMSB n bytes).length = n := by
  rw [unpackMSB, List.length_take, flatMap_bitsOfByte_length]
  omega

/-- Unpacking takes packed bits back. -/
theorem unpackMSB_packMSB (bits : List Bool) : unpackMSB bits.length (packMSB bits) = bits := by
  apply List.ext_getElem?
  intro j
  by_cases hj : j < bits.length
  · rw [unpackMSB, List.getElem?_take_of_lt hj, flatMap_bitsOfByte_get]
    have hk : j / 8 < (packMSB bits).length := by rw [packMSB_length]; omega
    rw [List.getElem?_eq_getElem hk, Option.map_some,
      packMSB_bit (Nat.mod_lt _ (by omega)) (List.getElem?_eq_getElem hk),
      Nat.div_add_mod, List.getElem?_eq_getElem hj]
    rfl
  · have hl : (unpackMSB bits.length (packMSB bits)).length = bits.length :=
      unpackMSB_length (by rw [packMSB_length]; omega)
    rw [List.getElem?_eq_none (by omega), List.getElem?_eq_none (by omega)]

/-- The bits of packed bits are those bits and fewer than eight zeros. -/
theorem flatMap_packMSB (bits : List Bool) :
    ∃ padding : List Bool, (packMSB bits).flatMap bitsOfByte = bits ++ padding ∧ padding.length < 8 := by
  refine ⟨((packMSB bits).flatMap bitsOfByte).drop bits.length, ?_, ?_⟩
  · conv => lhs; rw [← List.take_append_drop bits.length ((packMSB bits).flatMap bitsOfByte)]
    congr 1
    exact unpackMSB_packMSB bits
  · rw [List.length_drop, flatMap_bitsOfByte_length, packMSB_length]
    omega

/-! ### PACK's loops -/

/-- The accumulators after `bits` have been placed: the full bytes and the byte begun. -/
def PackState.After (p : PackState) (bits : List Bool) : Prop :=
  p.bits = bits.length ∧ p.nacc = bits.length % 8 ∧ p.bytes.length = bits.length / 8 ∧
  p.bytes = (packMSB bits).take (bits.length / 8) ∧ Holds p.acc (bits.drop (8 * (bits.length / 8)))

theorem packStart_after : PackState.start.After [] := ⟨rfl, rfl, rfl, rfl, holds_zero⟩

/-- A byte is determined by its bits from 7 down. -/
theorem byte_ext {a b : Byte} (h : ∀ m, m < 8 → a.getLsbD (7 - m) = b.getLsbD (7 - m)) : a = b := by
  apply BitVec.eq_of_getLsbD_eq
  intro i hi
  have := h (7 - i) (by omega)
  rwa [show 7 - (7 - i) = i by omega] at this

theorem take_packMSB_append (bits : List Bool) (b : Bool) :
    (packMSB (bits ++ [b])).take (bits.length / 8) = (packMSB bits).take (bits.length / 8) := by
  apply List.ext_getElem?
  intro k
  by_cases hk : k < bits.length / 8
  · rw [List.getElem?_take_of_lt hk, List.getElem?_take_of_lt hk]
    have h1 : k < (packMSB (bits ++ [b])).length := by rw [packMSB_length]; simp; omega
    have h2 : k < (packMSB bits).length := by rw [packMSB_length]; omega
    rw [List.getElem?_eq_getElem h1, List.getElem?_eq_getElem h2]
    congr 1
    apply byte_ext
    intro m hm
    rw [packMSB_bit hm (List.getElem?_eq_getElem h1), packMSB_bit hm (List.getElem?_eq_getElem h2),
      List.getElem?_append_left (by omega)]
  · rw [List.getElem?_eq_none (by simp; omega), List.getElem?_eq_none (by simp; omega)]

/-- One more bit: it goes in when the byte it fills has room, and overflows exactly when it has none. -/
theorem packBit_after {p : PackState} {bits : List Bool} (cap i : Nat) (b : Bool) (h : p.After bits) :
    if cap < (bits.length + 1) / 8 ∧ (bits.length + 1) % 8 = 0 then
      packBit cap i p b = .error (.raise (packOverflow i))
    else ∃ p', packBit cap i p b = .ok p' ∧ p'.After (bits ++ [b]) := by
  obtain ⟨h1, h2, h3, h4, h5⟩ := h
  have hdrop : (bits.drop (8 * (bits.length / 8))).length = bits.length % 8 := by simp; omega
  have hp : Holds (placeBit p.acc p.nacc b) ((bits ++ [b]).drop (8 * (bits.length / 8))) := by
    rw [List.drop_append_of_le_length (by omega), h2, ← hdrop]
    exact holds_placeBit h5 (by omega)
  unfold packBit
  by_cases h8 : p.nacc + 1 = 8
  · rw [if_pos h8]
    by_cases hcap : cap < p.bytes.length + 1
    · rw [if_pos hcap, if_pos ⟨by omega, by omega⟩]
    · rw [if_neg hcap, if_neg (by omega)]
      refine ⟨_, rfl, by simp [h1], by simp; omega, by simp; omega, ?_, ?_⟩
      · have hlen : (bits ++ [b]).length / 8 = bits.length / 8 + 1 := by simp; omega
        have hk : bits.length / 8 < (packMSB (bits ++ [b])).length := by rw [packMSB_length]; simp; omega
        simp only [hlen]
        rw [List.take_add_one, take_packMSB_append, h4, List.getElem?_eq_getElem hk]
        congr 1
        simp only [Option.toList_some, List.cons.injEq, and_true]
        apply byte_ext
        intro m hm
        rw [packMSB_bit hm (List.getElem?_eq_getElem hk), hp m hm, List.getElem?_drop]
      · simp only
        rw [List.drop_eq_nil_of_le (by simp; omega)]
        exact holds_zero
  · rw [if_neg h8, if_neg (by omega)]
    have hlen : (bits ++ [b]).length / 8 = bits.length / 8 := by simp; omega
    refine ⟨_, rfl, by simp [h1], by simp; omega, by simp only [hlen, h3], ?_, ?_⟩
    · simp only [hlen, take_packMSB_append, h4]
    · simp only [hlen]; exact hp

/-- One code: it goes in when its full bytes have room, and overflows exactly when they have none. -/
theorem packCode_after {p : PackState} {bits : List Bool} (cap i : Nat) (c : Code) (h : p.After bits)
    (hb : bits.length / 8 ≤ cap) :
    if (bits ++ c).length / 8 ≤ cap then ∃ p', packCode cap i p c = .ok p' ∧ p'.After (bits ++ c)
    else packCode cap i p c = .error (.raise (packOverflow i)) := by
  induction c generalizing p bits with
  | nil => simpa [packCode, hb] using h
  | cons b c ih =>
    have hb1 := packBit_after cap i b h
    by_cases hfit : (bits.length + 1) / 8 ≤ cap
    · rw [if_neg (by omega)] at hb1
      obtain ⟨p', hp', ha⟩ := hb1
      have := ih ha (by simpa using hfit)
      simpa [packCode, hp', List.append_assoc] using this
    · rw [if_pos (by omega)] at hb1
      rw [if_neg (by simp; omega), packCode, hb1]

/-- The last byte begun is flushed when it has room; what PACK stores is then the packed bits. -/
theorem packFlush_after {p : PackState} {bits : List Bool} (cap n : Nat) (h : p.After bits) (hb : bits.length / 8 ≤ cap) :
    if (bits.length + 7) / 8 ≤ cap then
      packFlush cap n p = .ok { p with bytes := packMSB bits }
    else packFlush cap n p = .error (.raise (packOverflow (n - 1))) := by
  obtain ⟨h1, h2, h3, h4, h5⟩ := h
  unfold packFlush
  by_cases h0 : p.nacc = 0
  · rw [if_pos h0, if_pos (by omega)]
    have : p.bytes = packMSB bits := by
      rw [h4, List.take_of_length_le]
      rw [packMSB_length]
      omega
    simp [← this]
  · rw [if_neg h0]
    by_cases hcap : cap < p.bytes.length + 1
    · rw [if_pos hcap, if_neg (by omega)]
    · rw [if_neg hcap, if_pos (by omega)]
      have hk : bits.length / 8 < (packMSB bits).length := by rw [packMSB_length]; omega
      have hall : packMSB bits = (packMSB bits).take (bits.length / 8) ++ [(packMSB bits)[bits.length / 8]] := by
        rw [List.take_append_getElem hk, List.take_of_length_le]
        rw [packMSB_length]
        omega
      have hacc : p.acc = (packMSB bits)[bits.length / 8] := by
        apply byte_ext
        intro m hm
        rw [packMSB_bit hm (List.getElem?_eq_getElem hk), h5 m hm, List.getElem?_drop]
      rw [h4, hacc, ← hall]

end Sys2Proof.Machine
end

