-- ==== Sys2Proof/Laws/Tree.lean ====
section
/-! SUPPORT. What the encoder's tree operations do (spec/40_encoder.md rules R123 to R134): the symbol-indexed tables, the
collection, the merge loop and the walk. -/

namespace Sys2Proof.Machine

/-! ### Symbols and tables -/

theorem mem_allSymbols (b : Symbol) : b ∈ allSymbols :=
  List.mem_map.mpr ⟨b.toNat, List.mem_range.mpr b.isLt, BitVec.ofNat_toNat ..|>.trans (BitVec.setWidth_eq b)⟩

theorem allSymbols_pairwise : allSymbols.Pairwise fun b c => b.toNat < c.toNat := by
  rw [allSymbols, List.pairwise_map]
  refine List.pairwise_lt_range.imp_of_mem fun {a b} ha hb h => ?_
  have := List.mem_range.mp ha
  have := List.mem_range.mp hb
  rw [BitVec.toNat_ofNat, BitVec.toNat_ofNat]
  omega

theorem allSymbols_nodup : allSymbols.Nodup :=
  allSymbols_pairwise.imp fun {a b} h => fun hab => by subst hab; exact Nat.lt_irrefl _ h

theorem codeAt_setCode (t : CodeTable) (b d : Symbol) (c : Code) :
    codeAt (setCode t b c) d = if d = b then some c else codeAt t d := by
  unfold codeAt setCode
  rw [Vector.getElem_set]
  by_cases h : d = b
  · subst h; simp
  · rw [if_neg h, if_neg fun hn => h (BitVec.eq_of_toNat_eq hn.symm)]

theorem codeAt_empty (b : Symbol) : codeAt (Vector.replicate 256 none) b = none := by simp [codeAt]

theorem freqAt_bumpFreq (t : FreqTable) (b d : Symbol) :
    freqAt (bumpFreq t b) d = if d = b then freqAt t d + 1#32 else freqAt t d := by
  unfold bumpFreq
  conv => lhs; unfold freqAt
  rw [Vector.getElem_set]
  by_cases h : d = b
  · subst h; simp [freqAt]
  · rw [if_neg h, if_neg fun hn => h (BitVec.eq_of_toNat_eq hn.symm)]
    rfl

/-- The counts of a buffer, modulo 2^32. -/
theorem freqAt_countSymbols (bytes : List Byte) (b : Symbol) :
    freqAt (countSymbols bytes) b = BitVec.ofNat 32 (bytes.count b) := by
  have key : ∀ (t : FreqTable), freqAt (bytes.foldl bumpFreq t) b = freqAt t b + BitVec.ofNat 32 (bytes.count b) := by
    induction bytes with
    | nil => simp
    | cons x xs ih =>
      intro t
      rw [List.foldl_cons, ih, freqAt_bumpFreq, List.count_cons]
      by_cases h : b = x
      · subst h
        simp only [if_true, beq_self_eq_true]
        rw [Nat.add_comm, ← BitVec.ofNat_add_ofNat, BitVec.add_assoc]
      · have : (x == b) = false := by simpa using fun h' => h h'.symm
        simp [h, this]
  rw [countSymbols, key]
  simp [freqAt]

/-! ### The collection and the merge loop -/

theorem enqueue_perm (x : QNode) (q : List QNode) : (enqueue x q).Perm (x :: q) := by
  induction q with
  | nil => exact .refl _
  | cons y q ih =>
    unfold enqueue
    split
    · exact .refl _
    · exact (ih.cons y).trans (.swap ..)

@[simp] theorem enqueue_length (x : QNode) (q : List QNode) : (enqueue x q).length = q.length + 1 := by
  simpa using (enqueue_perm x q).length_eq

theorem enqueue_ne_nil (x : QNode) (q : List QNode) : enqueue x q ≠ [] :=
  List.ne_nil_of_length_pos (by simp)

/-- The nodes BUILD_TREE starts from are the leaves of the symbols present, in some order. -/
theorem initialQueue_perm (t : FreqTable) :
    (initialQueue t).Perm ((allSymbols.filter fun b => freqAt t b != 0#32).map (leafNode t)) := by
  have key : ∀ (l q : List QNode), (l.foldl (fun q x => enqueue x q) q).Perm (l ++ q) := by
    intro l
    induction l with
    | nil => exact fun q => .refl _
    | cons x l ih =>
      intro q
      refine (ih (enqueue x q)).trans ?_
      exact ((enqueue_perm x q).append_left l).trans List.perm_middle
  simpa [initialQueue] using key _ []

theorem initialQueue_length (t : FreqTable) : (initialQueue t).length = countPresent t := by
  simpa [countPresent] using (initialQueue_perm t).length_eq

theorem mem_initialQueue {t : FreqTable} {x : QNode} :
    x ∈ initialQueue t ↔ ∃ b : Symbol, freqAt t b ≠ 0#32 ∧ x = leafNode t b := by
  rw [(initialQueue_perm t).mem_iff, List.mem_map]
  simp only [List.mem_filter, mem_allSymbols, true_and, bne_iff_ne, ne_eq]
  exact exists_congr fun b => and_congr_right fun _ => eq_comm

theorem queueOrder_trans {x y z : QNode} (h : queueOrder x y) (h' : queueOrder y z) : queueOrder x z := by
  rcases h with h | ⟨h, hk⟩ <;> rcases h' with h' | ⟨h', hk'⟩
  · exact .inl (h.trans h')
  · exact .inl (h' ▸ h)
  · exact .inl (h ▸ h')
  · exact .inr ⟨h.trans h', hk.trans hk'⟩

theorem QNode.before_iff (x y : QNode) : x.before y = true ↔ queueOrder x y := by simp [before, queueOrder]

/-- Two nodes of different keys stand in one order or the other (rule R125). -/
theorem queueOrder_of_not {x y : QNode} (hk : y.key ≠ x.key) (h : ¬ queueOrder x y) : queueOrder y x := by
  simp only [queueOrder, not_or, not_and, Nat.not_lt] at h ⊢
  by_cases hw : x.weight = y.weight
  · have := h.2 hw
    exact .inr ⟨hw.symm, by omega⟩
  · have : x.weight.toNat ≠ y.weight.toNat := fun hn => hw (BitVec.eq_of_toNat_eq hn)
    exact .inl (by omega)

/-- A node with a new key keeps the collection in order. -/
theorem enqueue_pairwise {x : QNode} {q : List QNode} (hq : q.Pairwise queueOrder) (hk : ∀ y ∈ q, y.key ≠ x.key) :
    (enqueue x q).Pairwise queueOrder := by
  induction q with
  | nil => exact List.pairwise_singleton ..
  | cons y q ih =>
    obtain ⟨hy, hq'⟩ := List.pairwise_cons.mp hq
    unfold enqueue
    split
    · next h =>
      have hxy := (QNode.before_iff x y).mp h
      refine List.pairwise_cons.mpr ⟨fun z hz => ?_, hq⟩
      rcases List.mem_cons.mp hz with rfl | hz
      · exact hxy
      · exact queueOrder_trans hxy (hy z hz)
    · next h =>
      refine List.pairwise_cons.mpr ⟨fun z hz => ?_, ih hq' fun z hz => hk z (.tail _ hz)⟩
      rcases List.mem_cons.mp ((enqueue_perm x q).mem_iff.mp hz) with rfl | hz
      · exact queueOrder_of_not (hk y (.head _)) fun h' => h ((QNode.before_iff ..).mpr h')
      · exact hy z hz

/-- What BUILD_TREE starts from is in order. -/
theorem initialQueue_pairwise (t : FreqTable) : (initialQueue t).Pairwise queueOrder := by
  have key : ∀ (l q : List QNode), q.Pairwise queueOrder → (l ++ q).Pairwise (fun x y => x.key ≠ y.key) →
      (l.foldl (fun q x => enqueue x q) q).Pairwise queueOrder := by
    intro l
    induction l with
    | nil => exact fun q hq _ => hq
    | cons x l ih =>
      intro q hq hk
      obtain ⟨hx, hk'⟩ := List.pairwise_cons.mp hk
      refine ih _ (enqueue_pairwise hq fun y hy => (hx y (List.mem_append_right l hy)).symm) ?_
      exact (((enqueue_perm x q).append_left l).trans List.perm_middle).symm.pairwise hk fun h => Ne.symm h
  refine key _ [] .nil ?_
  rw [List.append_nil, List.pairwise_map]
  exact (allSymbols_pairwise.filter _).imp fun h => Nat.ne_of_lt h

/-- The invariant of the merge loop holds at its start. -/
theorem initialQueue_mergeInv (t : FreqTable) : MergeInv (freqSum t) 0 (initialQueue t) where
  sorted := initialQueue_pairwise t
  keys x hx := by
    obtain ⟨b, -, rfl⟩ := mem_initialQueue.mp hx
    exact b.isLt
  total := by
    rw [((initialQueue_perm t).map _).sum_eq, List.map_map, freqSum]
    generalize allSymbols = l
    induction l with
    | nil => rfl
    | cons b l ih =>
      rw [List.filter_cons]
      split
      · simpa [leafNode] using ih
      · next h => simp_all

/-- One merge keeps the invariant, and its sum does not wrap. -/
theorem MergeInv.merge {total m : Nat} {x y : QNode} {q : List QNode} (ht : total < 2 ^ 32)
    (h : MergeInv total m (x :: y :: q)) :
    (x.weight + y.weight).toNat = x.weight.toNat + y.weight.toNat ∧
    MergeInv total (m + 1) (enqueue (mergeNodes m x y) q) := by
  have hs : x.weight.toNat + (y.weight.toNat + (q.map fun x => x.weight.toNat).sum) = total := by simpa using h.total
  have hw : (x.weight + y.weight).toNat = x.weight.toNat + y.weight.toNat :=
    (BitVec.toNat_add ..).trans (Nat.mod_eq_of_lt (by omega))
  refine ⟨hw, ?_, fun z hz => ?_, ?_⟩
  · refine enqueue_pairwise (List.pairwise_cons.mp (List.pairwise_cons.mp h.sorted).2).2 fun z hz => ?_
    exact Nat.ne_of_lt (h.keys z (.tail _ (.tail _ hz)))
  · rcases List.mem_cons.mp ((enqueue_perm _ q).mem_iff.mp hz) with rfl | hz
    · exact Nat.lt_succ_self _
    · have := h.keys z (.tail _ (.tail _ hz))
      omega
  · rw [((enqueue_perm _ q).map _).sum_eq, List.map_cons, List.sum_cons]
    simp only [mergeNodes, hw]
    omega

/-- The loop ends with a tree when it has enough fuel for its nodes. -/
theorem mergeLoop_isSome {fuel m : Nat} {q : List QNode} (h : q ≠ []) (hf : q.length ≤ fuel + 1) :
    ∃ t, mergeLoop fuel m q = some t := by
  induction fuel generalizing m q with
  | zero =>
    match q, h, hf with
    | [x], _, _ => exact ⟨_, rfl⟩
  | succ fuel ih =>
    match q, h, hf with
    | [x], _, _ => exact ⟨_, rfl⟩
    | x :: y :: q, _, hf => exact ih (m := m + 1) (enqueue_ne_nil _ _) (by simp at hf ⊢; omega)

/-- What holds of the collection at the start and is kept by every merge holds of the node the loop ends with. -/
theorem mergeLoop_result {P : Nat → List QNode → Prop}
    (step : ∀ (m : Nat) (x y : QNode) (q : List QNode), P m (x :: y :: q) → P (m + 1) (enqueue (mergeNodes m x y) q))
    {fuel m : Nat} {q : List QNode} {t : ETree} (h : P m q) (ht : mergeLoop fuel m q = some t) :
    ∃ n x, P n [x] ∧ t = x.tree := by
  induction fuel generalizing m q with
  | zero =>
    match q, ht with
    | [x], ht => cases ht; exact ⟨m, x, h, rfl⟩
  | succ fuel ih =>
    match q, ht with
    | [x], ht => cases ht; exact ⟨m, x, h, rfl⟩
    | x :: y :: q, ht => exact ih (step m x y q h) ht

theorem MergesTo.of_perm {m : Nat} {q q' : List QNode} {tree : ETree} (h : MergesTo m q tree) (hp : q'.Perm q) :
    MergesTo m q' tree := by
  cases h with
  | done x =>
    rw [List.perm_singleton.mp hp]
    exact .done ..
  | merge h1 h2 h3 h4 h5 => exact .merge (hp.trans h1) h2 h3 h4 h5

/-- The loop's tree is one the rule's removals and insertions give. -/
theorem mergeLoop_mergesTo {total fuel m : Nat} {q : List QNode} {tree : ETree} (ht : total < 2 ^ 32)
    (hq : MergeInv total m q) (h : mergeLoop fuel m q = some tree) : MergesTo m q tree := by
  induction fuel generalizing m q with
  | zero =>
    match q, h with
    | [x], h => cases h; exact .done m x
  | succ fuel ih =>
    match q, h with
    | [x], h => cases h; exact .done m x
    | x :: y :: q, h =>
      obtain ⟨hw, hi⟩ := hq.merge ht
      have hx := List.pairwise_cons.mp hq.sorted
      exact .merge (.refl _) (hx.1 y (.head _)) (List.pairwise_cons.mp hx.2).1 hw
        ((ih hi h).of_perm (enqueue_perm _ q).symm)

/-- The loop's tree has the weights of its leaves, and their total at the root. -/
theorem mergeLoop_weights {t : FreqTable} {total fuel m : Nat} {q : List QNode} {tree : ETree} (ht : total < 2 ^ 32)
    (hq : MergeInv total m q) (hw : ∀ x ∈ q, x.tree.weight = x.weight ∧ x.tree.WeightsFrom t)
    (h : mergeLoop fuel m q = some tree) : tree.WeightsFrom t ∧ tree.weight.toNat = total := by
  obtain ⟨n, x, ⟨hi, hx⟩, rfl⟩ := mergeLoop_result
    (P := fun m q => MergeInv total m q ∧ ∀ x ∈ q, x.tree.weight = x.weight ∧ x.tree.WeightsFrom t)
    (fun m x y q ⟨hi, hw⟩ => ⟨(hi.merge ht).2, fun z hz => by
      rcases List.mem_cons.mp ((enqueue_perm _ q).mem_iff.mp hz) with rfl | hz
      · have h1 := hw x (.head _)
        have h2 := hw y (.tail _ (.head _))
        refine ⟨rfl, ?_, h1.2, h2.2⟩
        rw [h1.1, h2.1]
        exact (hi.merge ht).1
      · exact hw z (.tail _ (.tail _ hz))⟩) ⟨hq, hw⟩ h
  have hx := hx x (.head _)
  exact ⟨hx.2, by rw [hx.1]; simpa using hi.total⟩

/-- The three cases of BUILD_TREE: no symbol, one, or the merge loop. -/
theorem buildTree_cases (t : FreqTable) :
    (initialQueue t = [] ∧ buildTree t = none) ∨
    (∃ x, initialQueue t = [x] ∧ buildTree t = some (.single x.weight x.tree)) ∨
    ∃ tree, 2 ≤ (initialQueue t).length ∧ mergeLoop (initialQueue t).length 0 (initialQueue t) = some tree ∧
      buildTree t = some tree := by
  unfold buildTree
  match h : initialQueue t with
  | [] => exact .inl ⟨rfl, rfl⟩
  | [x] => exact .inr (.inl ⟨x, rfl, rfl⟩)
  | x :: y :: q =>
    obtain ⟨tree, ht⟩ := mergeLoop_isSome (fuel := (x :: y :: q).length) (m := 0) (q := x :: y :: q) (by simp) (by simp)
    exact .inr (.inr ⟨tree, by simp, ht, ht⟩)

/-- BUILD_TREE has a tree exactly when some symbol is present. -/
theorem buildTree_isSome_iff (t : FreqTable) : (∃ tree, buildTree t = some tree) ↔ ∃ b : Symbol, freqAt t b ≠ 0#32 := by
  have hq : (∃ b : Symbol, freqAt t b ≠ 0#32) ↔ initialQueue t ≠ [] := by
    constructor
    · rintro ⟨b, hb⟩ hn
      exact List.ne_nil_of_mem (mem_initialQueue.mpr ⟨b, hb, rfl⟩) hn
    · intro hn
      obtain ⟨x, hx⟩ := List.exists_mem_of_ne_nil _ hn
      obtain ⟨b, hb, -⟩ := mem_initialQueue.mp hx
      exact ⟨b, hb⟩
  rw [hq]
  rcases buildTree_cases t with ⟨h, h'⟩ | ⟨x, h, h'⟩ | ⟨tree, h, -, h'⟩
  · simp [h, h']
  · simp [h, h']
  · exact ⟨fun _ => List.ne_nil_of_length_pos (by omega), fun _ => ⟨tree, h'⟩⟩

/-! ### The walk -/

/-- A symbol without a leaf keeps its place in the table. -/
theorem walkCodes_absent (e : ETree) (path : Code) (t : CodeTable) (b : Symbol) (h : ∀ c, e.leafAt c ≠ some b) :
    codeAt (walkCodes e path t) b = codeAt t b := by
  induction e generalizing path t with
  | leaf s w =>
    rw [walkCodes, codeAt_setCode, if_neg]
    rintro rfl
    exact h [] rfl
  | node w l r ihl ihr =>
    rw [walkCodes, ihr _ _ fun c => h (true :: c), ihl _ _ fun c => h (false :: c)]
  | single w l ih => rw [walkCodes, ih _ _ fun c => h (false :: c)]

/-- A symbol with one leaf gets that leaf's path after the path so far. -/
theorem walkCodes_present {e : ETree} {b : Symbol} {c : Code} (path : Code) (t : CodeTable) (hc : e.leafAt c = some b)
    (hu : ∀ d, e.leafAt d = some b → d = c) : codeAt (walkCodes e path t) b = some (path ++ c) := by
  induction e generalizing path t c with
  | leaf s w =>
    cases c with
    | nil => cases hc; simp [walkCodes, codeAt_setCode]
    | cons x c => cases hc
  | node w l r ihl ihr =>
    match c, hc, hu with
    | false :: c, hc, hu =>
      rw [walkCodes, walkCodes_absent r _ _ _ fun d hd => by simpa using hu (true :: d) hd,
        ihl _ _ hc fun d hd => by simpa using hu (false :: d) hd]
      simp
    | true :: c, hc, hu =>
      rw [walkCodes, ihr _ _ hc fun d hd => by simpa using hu (true :: d) hd]
      simp
  | single w l ih =>
    match c, hc, hu with
    | false :: c, hc, hu =>
      rw [walkCodes, ih _ _ hc fun d hd => by simpa using hu (false :: d) hd]
      simp

/-- The codes of a tree in which no symbol has two leaves are the paths of its leaves. -/
theorem codeAt_deriveCodes {e : ETree} (hu : ∀ (c d : Code) (b : Symbol), e.leafAt c = some b → e.leafAt d = some b → c = d)
    (b : Symbol) (c : Code) : codeAt (deriveCodes e) b = some c ↔ e.leafAt c = some b := by
  constructor
  · intro h
    by_cases hb : ∃ d, e.leafAt d = some b
    · obtain ⟨d, hd⟩ := hb
      rw [deriveCodes, walkCodes_present [] _ hd fun d' hd' => hu _ _ _ hd' hd, List.nil_append] at h
      cases h
      exact hd
    · rw [deriveCodes, walkCodes_absent _ _ _ _ fun d hd => hb ⟨d, hd⟩, codeAt_empty] at h
      cases h
  · intro h
    rw [deriveCodes, walkCodes_present [] _ h fun d hd => hu _ _ _ hd h, List.nil_append]

/-! ### The symbols of a tree -/

/-- The symbols at a tree's leaves, from left to right. -/
def ETree.symbols : ETree → List Symbol
  | .leaf s _ => [s]
  | .node _ l r => l.symbols ++ r.symbols
  | .single _ l => l.symbols

theorem ETree.mem_symbols (e : ETree) (b : Symbol) : b ∈ e.symbols ↔ ∃ c, e.leafAt c = some b := by
  induction e with
  | leaf s w =>
    rw [symbols, List.mem_singleton]
    constructor
    · rintro rfl; exact ⟨[], rfl⟩
    · rintro ⟨c, hc⟩
      cases c with
      | nil => cases hc; rfl
      | cons x c => cases hc
  | node w l r ihl ihr =>
    rw [symbols, List.mem_append, ihl, ihr]
    constructor
    · rintro (⟨c, hc⟩ | ⟨c, hc⟩)
      · exact ⟨false :: c, hc⟩
      · exact ⟨true :: c, hc⟩
    · rintro ⟨c, hc⟩
      match c, hc with
      | false :: c, hc => exact .inl ⟨c, hc⟩
      | true :: c, hc => exact .inr ⟨c, hc⟩
  | single w l ih =>
    rw [symbols, ih]
    constructor
    · rintro ⟨c, hc⟩; exact ⟨false :: c, hc⟩
    · rintro ⟨c, hc⟩
      match c, hc with
      | false :: c, hc => exact ⟨c, hc⟩

/-- When no symbol stands twice, each has one path. -/
theorem ETree.leafAt_unique {e : ETree} (hn : e.symbols.Nodup) {c d : Code} {b : Symbol} (hc : e.leafAt c = some b)
    (hd : e.leafAt d = some b) : c = d := by
  induction e generalizing c d with
  | leaf s w =>
    match c, d, hc, hd with
    | [], [], _, _ => rfl
  | node w l r ihl ihr =>
    rw [symbols, List.nodup_append] at hn
    obtain ⟨hl, hr, hlr⟩ := hn
    have hx : ∀ {c d : Code}, l.leafAt c = some b → r.leafAt d = some b → False := fun h1 h2 =>
      hlr b ((l.mem_symbols b).mpr ⟨_, h1⟩) b ((r.mem_symbols b).mpr ⟨_, h2⟩) rfl
    match c, d, hc, hd with
    | false :: c, false :: d, hc, hd => rw [ihl hl hc hd]
    | true :: c, true :: d, hc, hd => rw [ihr hr hc hd]
    | false :: c, true :: d, hc, hd => exact (hx hc hd).elim
    | true :: c, false :: d, hc, hd => exact (hx hd hc).elim
  | single w l ih =>
    match c, d, hc, hd with
    | false :: c, false :: d, hc, hd => rw [ih hn hc hd]

/-- A built tree has a leaf for each symbol present and no other. -/
theorem buildTree_symbols {t : FreqTable} {tree : ETree} (h : buildTree t = some tree) :
    tree.symbols.Perm (allSymbols.filter fun b => freqAt t b != 0#32) := by
  have hq : ((initialQueue t).flatMap fun x => x.tree.symbols).Perm (allSymbols.filter fun b => freqAt t b != 0#32) := by
    refine ((initialQueue_perm t).flatMap_right _).trans (.of_eq ?_)
    rw [List.flatMap_map]
    exact List.flatMap_singleton' _
  rcases buildTree_cases t with ⟨-, h'⟩ | ⟨x, hx, h'⟩ | ⟨tree', -, hm, h'⟩
  · rw [h'] at h; cases h
  · rw [h'] at h; cases h
    simpa [hx, ETree.symbols] using hq
  · rw [h'] at h; cases h
    obtain ⟨n, x, hP, rfl⟩ := mergeLoop_result
      (P := fun _ q => (q.flatMap fun x => x.tree.symbols).Perm (allSymbols.filter fun b => freqAt t b != 0#32))
      (fun m x y q hP => ((enqueue_perm _ q).flatMap_right _).trans (.trans (.of_eq (by simp [mergeNodes, ETree.symbols])) hP))
      hq hm
    simpa using hP

theorem buildTree_symbols_nodup {t : FreqTable} {tree : ETree} (h : buildTree t = some tree) : tree.symbols.Nodup :=
  (buildTree_symbols h).nodup_iff.mpr (allSymbols_nodup.filter _)

theorem buildTree_leafAt_iff {t : FreqTable} {tree : ETree} (h : buildTree t = some tree) (b : Symbol) :
    (∃ c, tree.leafAt c = some b) ↔ freqAt t b ≠ 0#32 := by
  rw [← ETree.mem_symbols, (buildTree_symbols h).mem_iff]
  simp [mem_allSymbols]

/-- The root of a built tree is never a leaf (rule R127), so no code is empty. -/
theorem buildTree_root {t : FreqTable} {tree : ETree} (h : buildTree t = some tree) : tree.leafAt [] = none := by
  rcases buildTree_cases t with ⟨-, h'⟩ | ⟨x, -, h'⟩ | ⟨tree', hl, hm, h'⟩
  · rw [h'] at h; cases h
  · rw [h'] at h; cases h; rfl
  · rw [h'] at h; cases h
    match hq : initialQueue t, hl, hm with
    | x :: y :: q, _, hm =>
      rw [List.length_cons, mergeLoop] at hm
      obtain ⟨n, z, hz, rfl⟩ := mergeLoop_result (P := fun _ q => ∃ z ∈ q, z.tree.leafAt [] = none)
        (fun m x y q _ => ⟨mergeNodes m x y, (enqueue_perm _ _).mem_iff.mpr (List.mem_cons_self ..), rfl⟩)
        ⟨mergeNodes 0 x y, (enqueue_perm _ _).mem_iff.mpr (List.mem_cons_self ..), rfl⟩ hm
      simpa using hz

end Sys2Proof.Machine
end

