-- ==== Sys2Proof/Laws/Table.lean ====
section
/-! SUPPORT. The serialized code table both ways (spec/30_encoding.md rules R100 to R105, spec/40_encoder.md rule R135,
spec/41_decoder.md rule R162). -/

namespace Sys2Proof.Machine

/-! ### The entries of a code table -/

theorem mem_tableEntries (t : CodeTable) (b : Symbol) (c : Code) : (b, c) ∈ tableEntries t ↔ codeAt t b = some c := by
  simp only [tableEntries, List.mem_filterMap, Option.map_eq_some_iff, Prod.mk.injEq]
  constructor
  · rintro ⟨b', -, c', h, rfl, rfl⟩
    exact h
  · exact fun h => ⟨b, mem_allSymbols b, c, h, rfl, rfl⟩

theorem tableEntries_pairwise (t : CodeTable) : (tableEntries t).Pairwise fun e f => e.1.toNat < f.1.toNat := by
  refine List.pairwise_filterMap.mpr (allSymbols_pairwise.imp fun {a b} h x hx y hy => ?_)
  obtain ⟨c, -, rfl⟩ := Option.map_eq_some_iff.mp hx
  obtain ⟨d, -, rfl⟩ := Option.map_eq_some_iff.mp hy
  exact h

theorem tableEntries_nodup (t : CodeTable) : ((tableEntries t).map Prod.fst).Nodup := by
  refine List.pairwise_map.mpr ((tableEntries_pairwise t).imp fun {e f} h => ?_)
  exact fun he => Nat.lt_irrefl _ (he ▸ h)

theorem tableEntries_length_le (t : CodeTable) : (tableEntries t).length ≤ 256 :=
  (List.length_filterMap_le ..).trans (by simp [allSymbols])

/-! ### Writing -/

theorem encodeEntries_ok {es : List (Symbol × Code)} (h : ∀ e ∈ es, 1 ≤ e.2.length ∧ e.2.length ≤ 255) :
    encodeEntries es = .ok (es.flatMap entryBytes) := by
  induction es with
  | nil => rfl
  | cons e es ih =>
    obtain ⟨h1, h2⟩ := h e (List.mem_cons_self ..)
    rw [encodeEntries, if_neg (by omega), ih fun f hf => h f (List.mem_cons_of_mem _ hf)]
    rfl

/-- A table of at least one code, all of legal length, is written; these are the only ways it is not. -/
theorem encodeTable_ok {t : CodeTable} (hn : tableEntries t ≠ [])
    (h : ∀ e ∈ tableEntries t, 1 ≤ e.2.length ∧ e.2.length ≤ 255) :
    encodeTable t = .ok (BitVec.ofNat 8 ((tableEntries t).length % 256) :: (tableEntries t).flatMap entryBytes) := by
  have := tableEntries_length_le t
  have := List.length_pos_iff.mpr hn
  rw [encodeTable, if_neg (by omega), encodeEntries_ok h]

/-- What ENCODE_TABLE can raise. -/
theorem encodeTable_error {t : CodeTable} {r : Report} (h : encodeTable t = .error r) :
    r.kind = .invalidTableSize ∨ r.kind = .invalidCodeLength := by
  have key : ∀ {es : List (Symbol × Code)}, encodeEntries es = .error r → r.kind = .invalidCodeLength := by
    intro es
    induction es with
    | nil => intro h; cases h
    | cons e es ih =>
      intro h
      rw [encodeEntries] at h
      split at h
      · cases h; rfl
      · split at h
        · cases h
        · next h1 => cases h; exact ih h1
  rw [encodeTable] at h
  split at h
  · cases h; exact .inl rfl
  · split at h
    · cases h
    · next h1 => cases h; exact .inr (key h1)

/-! ### Reading -/

/-- The bytes of an entry as ENCODE_TABLE writes them. -/
def RawEntry.ofEntry (e : Symbol × Code) : RawEntry := ⟨e.1, BitVec.ofNat 8 e.2.length, packMSB e.2⟩

@[simp] theorem RawEntry.ofEntry_bytes (e : Symbol × Code) : (RawEntry.ofEntry e).bytes = entryBytes e := rfl

theorem RawEntry.ofEntry_complete {e : Symbol × Code} (h : 1 ≤ e.2.length ∧ e.2.length ≤ 255) :
    (RawEntry.ofEntry e).Complete := by
  have : (BitVec.ofNat 8 e.2.length).toNat = e.2.length := by rw [BitVec.toNat_ofNat]; omega
  exact ⟨by simp only [ofEntry, this]; exact h.1, by simp only [ofEntry, this]; exact packMSB_length e.2⟩

/-- Reading an entry ENCODE_TABLE wrote gives it back. -/
theorem RawEntry.ofEntry_entry {e : Symbol × Code} (h : e.2.length ≤ 255) : (RawEntry.ofEntry e).entry = e := by
  have : (BitVec.ofNat 8 e.2.length).toNat = e.2.length := by rw [BitVec.toNat_ofNat]; omega
  rw [entry, ofEntry]
  simp only [this, unpackMSB_packMSB]

theorem declaredCount_ofNat {n : Nat} (h1 : 1 ≤ n) (h2 : n ≤ 256) : declaredCount (BitVec.ofNat 8 (n % 256)) = n := by
  rw [declaredCount, BitVec.toNat_ofNat]
  split <;> omega

/-- The loop stops at the table's end or when the declared count is used up. -/
theorem decodeEntries_stop (s : State) {fin left pos : Nat} (h : left = 0 ∨ fin ≤ pos) :
    decodeEntries s fin left pos = .ok [] := by
  cases left with
  | zero => rfl
  | succ left => rw [decodeEntries, if_neg (by omega)]

/-- One whole entry is read, and the loop goes on after it. -/
theorem decodeEntries_entry {s : State} {fin left pos : Nat} {e : RawEntry} (hc : e.Complete)
    (hr : s.ibuf.readBytes pos e.bytes.length = some e.bytes) (hs : pos + e.bytes.length ≤ s.ibufSize)
    (hf : pos + e.bytes.length ≤ fin) :
    decodeEntries s fin (left + 1) pos = (decodeEntries s fin left (pos + e.bytes.length)).map (e.entry :: ·) := by
  obtain ⟨h1, h2⟩ := hc
  have hlen : e.bytes.length = 2 + ceilDiv8 e.len.toNat := by simp [RawEntry.bytes, ceilDiv8, h2]; omega
  rw [RawEntry.bytes, Memory.readBytes_cons, Memory.readBytes_cons] at hr
  obtain ⟨hsym, hl, hcode⟩ := hr
  rw [h2] at hcode
  have hcode' : readIbufBytes s (pos + 2) (ceilDiv8 e.len.toNat) = .ok e.code :=
    readIbufBytes_ok (by omega) (by rw [← hcode]; rfl)
  rw [decodeEntries, if_pos (by omega), readIbuf_ok (by omega) hsym, readIbuf_ok (by omega) hl]
  simp only [bind, Except.bind, pure, Except.pure]
  rw [if_neg (by omega), if_neg (by omega), if_neg (by omega), hcode']
  simp only [hlen, ← Nat.add_assoc]
  cases decodeEntries s fin left (pos + 2 + ceilDiv8 e.len.toNat) <;> rfl

/-- A run of whole entries is read in order, and the loop goes on after them. -/
theorem decodeEntries_raw {s : State} {fin left pos : Nat} {raw : List RawEntry} (hc : ∀ e ∈ raw, e.Complete)
    (hr : s.ibuf.readBytes pos (raw.flatMap RawEntry.bytes).length = some (raw.flatMap RawEntry.bytes))
    (hs : pos + (raw.flatMap RawEntry.bytes).length ≤ s.ibufSize) (hf : pos + (raw.flatMap RawEntry.bytes).length ≤ fin) :
    decodeEntries s fin (raw.length + left) pos =
      (decodeEntries s fin left (pos + (raw.flatMap RawEntry.bytes).length)).map (raw.map RawEntry.entry ++ ·) := by
  induction raw generalizing pos with
  | nil =>
    simp only [List.length_nil, List.flatMap_nil, Nat.zero_add, Nat.add_zero, List.map_nil, List.nil_append]
    cases decodeEntries s fin left pos <;> rfl
  | cons e raw ih =>
    rw [List.flatMap_cons, Memory.readBytes_append] at hr
    rw [List.flatMap_cons, List.length_append] at hs hf ⊢
    rw [List.length_cons, show raw.length + 1 + left = (raw.length + left) + 1 by omega,
      decodeEntries_entry (hc e (List.mem_cons_self ..)) hr.1 (by omega) (by omega),
      ih (fun f hf => hc f (List.mem_cons_of_mem _ hf)) hr.2 (by omega) (by omega), Nat.add_assoc]
    cases decodeEntries s fin left (pos + (e.bytes.length + (raw.flatMap RawEntry.bytes).length)) <;> rfl

/-- What the loop gives when it ends: at most the declared number of entries, each with a code of 1 to 255 bits. -/
theorem decodeEntries_eq_ok {s : State} {fin left pos : Nat} {es : List (Symbol × Code)}
    (h : decodeEntries s fin left pos = .ok es) :
    es.length ≤ left ∧ ∀ e ∈ es, 1 ≤ e.2.length ∧ e.2.length ≤ 255 := by
  induction left generalizing pos es with
  | zero => cases h; simp
  | succ left ih =>
    rw [decodeEntries] at h
    split at h
    · cases h1 : readIbuf s pos with
      | error e => rw [h1] at h; cases h
      | ok sym =>
        rw [h1] at h
        simp only [bind, Except.bind] at h
        split at h
        · cases h
        · cases h2 : readIbuf s (pos + 1) with
          | error e => rw [h2] at h; cases h
          | ok len =>
            rw [h2] at h
            simp only at h
            split at h
            · cases h
            · next h0 =>
              split at h
              · cases h
              · cases h3 : readIbufBytes s (pos + 2) (ceilDiv8 len.toNat) with
                | error e => rw [h3] at h; cases h
                | ok code =>
                  rw [h3] at h
                  simp only at h
                  cases h4 : decodeEntries s fin left (pos + 2 + ceilDiv8 len.toNat) with
                  | error e => rw [h4] at h; cases h
                  | ok rest =>
                    rw [h4] at h
                    simp only [pure, Except.pure, Except.ok.injEq] at h
                    subst h
                    obtain ⟨hl, hc⟩ := ih h4
                    have hcode := (readIbufBytes_eq_ok h3).2.1
                    have hul : (unpackMSB len.toNat code).length = len.toNat :=
                      unpackMSB_length (by rw [hcode, ceilDiv8]; omega)
                    refine ⟨by simpa using hl, fun e he => ?_⟩
                    rcases List.mem_cons.mp he with rfl | he
                    · simp only [hul]; have := len.isLt; omega
                    · exact hc e he
    · cases h; simp

end Sys2Proof.Machine
end

