-- ==== Sys2Proof/Laws/Rebuild.lean ====
section
/-! SUPPORT. What the decoder's tree operations do (spec/41_decoder.md rule R164): positions, one entry grafted, the loop over
the entries. -/

namespace Sys2Proof.Machine

/-! ### Positions -/

@[simp] theorem DTree.at_nil (t : DTree) : t.at [] = t := rfl
@[simp] theorem DTree.at_cons (t : DTree) (b : Bool) (c : Code) : t.at (b :: c) = (t.child b).at c := rfl
@[simp] theorem DTree.child_absent (b : Bool) : DTree.absent.child b = .absent := by cases b <;> rfl
@[simp] theorem DTree.child_leaf (s : Symbol) (b : Bool) : (DTree.leaf s).child b = .absent := by cases b <;> rfl

@[simp] theorem DTree.not_isNode_absent : ¬ DTree.absent.IsNode := id
@[simp] theorem DTree.not_isNode_leaf (s : Symbol) : ¬ (DTree.leaf s).IsNode := id
@[simp] theorem DTree.isNode_node (l r : DTree) : (DTree.node l r).IsNode := trivial

@[simp] theorem DTree.at_absent (c : Code) : DTree.absent.at c = .absent := by
  induction c with
  | nil => rfl
  | cons b c ih => simpa using ih

theorem DTree.at_append (t : DTree) (c d : Code) : t.at (c ++ d) = (t.at c).at d := by
  induction c generalizing t with
  | nil => rfl
  | cons b c ih => exact ih (t.child b)

/-- Nothing stands below a leaf. -/
theorem DTree.at_below_leaf {t : DTree} {c d : Code} {s : Symbol} (h : t.at c = .leaf s) (hp : c <+: d) (hne : c ≠ d) :
    t.at d = .absent := by
  obtain ⟨e, rfl⟩ := hp
  cases e with
  | nil => simp at hne
  | cons b e => rw [DTree.at_append, h]; simp

/-- A position on the way to one that is there is a node. -/
theorem DTree.isNode_of_prefix {t : DTree} {c d : Code} (h : t.at d ≠ .absent) (hp : c <+: d) (hne : c ≠ d) :
    (t.at c).IsNode := by
  obtain ⟨e, rfl⟩ := hp
  cases e with
  | nil => simp at hne
  | cons b e =>
    rw [DTree.at_append] at h
    cases hc : t.at c with
    | absent => rw [hc] at h; simp at h
    | leaf s => rw [hc] at h; simp at h
    | node l r => trivial

/-! ### One entry -/

/-- The child at a bit replaced. -/
theorem DTree.graft_cons_node (sym : Symbol) (b : Bool) (c : Code) (l r : DTree) :
    DTree.graft sym (b :: c) (.node l r) =
      match DTree.graft sym c (DTree.child (.node l r) b) with
      | .ok t => .ok (if b then .node l t else .node t r)
      | .error d => .error d := by
  cases b
  · rw [graft, if_neg (by simp)]
    simp only [child]
    cases graft sym c l <;> rfl
  · rw [graft, if_pos rfl]
    simp only [child]
    cases graft sym c r <;> rfl

/-- An absent position can take any code: the leaf at its end, nodes on the way, nothing else. -/
theorem DTree.graft_absent (sym : Symbol) (c : Code) :
    ∃ t, DTree.graft sym c .absent = .ok t ∧ (∀ p b, t.at p = .leaf b ↔ p = c ∧ b = sym) ∧
      ∀ p, (t.at p).IsNode ↔ p <+: c ∧ p ≠ c := by
  induction c with
  | nil =>
    refine ⟨.leaf sym, rfl, fun p b => ?_, fun p => ?_⟩
    · cases p with
      | nil => simp [eq_comm]
      | cons x p => simp
    · cases p with
      | nil => simp
      | cons x p => simp
  | cons x c ih =>
    obtain ⟨t, ht, hl, hn⟩ := ih
    refine ⟨if x then .node .absent t else .node t .absent, ?_, fun p b => ?_, fun p => ?_⟩
    · rw [graft, ht]; cases x <;> rfl
    · cases p with
      | nil => cases x <;> simp
      | cons y p =>
        cases x <;> cases y <;> simp [child, hl]
    · cases p with
      | nil => cases x <;> simp
      | cons y p =>
        cases x <;> cases y <;> simp [child, hn]

/-- What grafting one code onto a tree does: an earlier leaf on the way is conflict 3; at its end a leaf is conflict 2 and a node
conflict 4; and where nothing is in the way the new leaf and the nodes on the way to it are all that is added. -/
theorem DTree.graft_cases (sym : Symbol) (c : Code) (t : DTree) :
    ((∃ p b, p <+: c ∧ p ≠ c ∧ t.at p = .leaf b) ∧ DTree.graft sym c t = .error 3#8) ∨
    ((∃ b, t.at c = .leaf b) ∧ DTree.graft sym c t = .error 2#8) ∨
    ((t.at c).IsNode ∧ DTree.graft sym c t = .error 4#8) ∨
    (t.at c = .absent ∧ (∀ p b, p <+: c → t.at p ≠ .leaf b) ∧
      ∃ t', DTree.graft sym c t = .ok t' ∧
        (∀ p b, t'.at p = .leaf b ↔ t.at p = .leaf b ∨ (p = c ∧ b = sym)) ∧
        ∀ p, (t'.at p).IsNode ↔ (t.at p).IsNode ∨ (p <+: c ∧ p ≠ c)) := by
  induction c generalizing t with
  | nil =>
    cases t with
    | absent =>
      obtain ⟨t', h, hl, hn⟩ := graft_absent sym []
      refine .inr (.inr (.inr ⟨rfl, fun p b _ => by simp, t', h, fun p b => ?_, fun p => ?_⟩))
      · simp [hl]
      · simp [hn]
    | leaf s => exact .inr (.inl ⟨⟨s, rfl⟩, rfl⟩)
    | node l r => exact .inr (.inr (.inl ⟨trivial, rfl⟩))
  | cons x c ih =>
    cases t with
    | absent =>
      obtain ⟨t', h, hl, hn⟩ := graft_absent sym (x :: c)
      refine .inr (.inr (.inr ⟨by simp, fun p b _ => by simp, t', h, fun p b => ?_, fun p => ?_⟩))
      · simp [hl]
      · simp [hn]
    | leaf s => exact .inl ⟨⟨[], s, List.nil_prefix, by simp, rfl⟩, rfl⟩
    | node l r =>
      rw [graft_cons_node]
      rcases ih (child (.node l r) x) with ⟨⟨p, b, hp, hne, hb⟩, h⟩ | ⟨hb, h⟩ | ⟨hb, h⟩ | ⟨hb, hpre, t', h, hl, hn⟩
      · exact .inl ⟨⟨x :: p, b, (List.prefix_cons_inj x).mpr hp, by simpa using hne, hb⟩, by rw [h]⟩
      · exact .inr (.inl ⟨hb, by rw [h]⟩)
      · exact .inr (.inr (.inl ⟨hb, by rw [h]⟩))
      · refine .inr (.inr (.inr ⟨hb, fun p b hp => ?_, if x then .node l t' else .node t' r, by rw [h], fun p b => ?_,
          fun p => ?_⟩))
        · cases p with
          | nil => simp
          | cons y p =>
            obtain ⟨rfl, hp'⟩ := List.cons_prefix_cons.mp hp
            exact hpre p b hp'
        · cases p with
          | nil => cases x <;> simp
          | cons y p =>
            cases x <;> cases y <;> simp [child, hl] at hl ⊢
        · cases p with
          | nil => cases x <;> simp
          | cons y p =>
            cases x <;> cases y <;> simp [child, hn] at hn ⊢

/-! ### The loop -/

theorem rebuildLoop_append (e : Nat) (seen : List Symbol) (t t' : DTree) (xs ys : List (Symbol × Code))
    (h : rebuildLoop e seen t xs = .ok t') :
    rebuildLoop e seen t (xs ++ ys) = rebuildLoop (e + xs.length) ((xs.map Prod.fst).reverse ++ seen) t' ys := by
  induction xs generalizing e seen t with
  | nil => cases h; simp
  | cons x xs ih =>
    obtain ⟨s, c⟩ := x
    rw [rebuildLoop] at h
    rw [List.cons_append, rebuildLoop]
    split at h
    · cases h
    · next hs =>
      rw [if_neg hs]
      split at h
      · cases h
      · next t1 h1 =>
        rw [ih _ _ _ h]
        simp [Nat.add_assoc, Nat.add_comm 1]

/-- A loop that ends has grafted every entry: its leaves are the entries' and the start's, its nodes the positions inside the
entries' codes and the start's. -/
theorem rebuildLoop_ok {e : Nat} {seen : List Symbol} {t t' : DTree} {xs : List (Symbol × Code)}
    (h : rebuildLoop e seen t xs = .ok t') :
    (∀ p b, t'.at p = .leaf b ↔ t.at p = .leaf b ∨ (b, p) ∈ xs) ∧
    (∀ p, (t'.at p).IsNode ↔ (t.at p).IsNode ∨ ∃ x ∈ xs, p <+: x.2 ∧ p ≠ x.2) ∧
    (xs.map Prod.fst).Nodup ∧ ∀ s ∈ xs.map Prod.fst, s ∉ seen := by
  induction xs generalizing e seen t with
  | nil => cases h; simp
  | cons x xs ih =>
    obtain ⟨s, c⟩ := x
    rw [rebuildLoop] at h
    split at h
    · cases h
    · next hs =>
      split at h
      · cases h
      · next t1 h1 =>
        obtain ⟨hl, hn, hd, hs'⟩ := ih h
        rcases DTree.graft_cases s c t with ⟨-, h2⟩ | ⟨-, h2⟩ | ⟨-, h2⟩ | ⟨-, -, t2, h2, hl2, hn2⟩ <;>
          (rw [h2] at h1; cases h1)
        refine ⟨fun p b => ?_, fun p => ?_, ?_, ?_⟩
        · rw [hl, hl2, List.mem_cons, Prod.mk.injEq]
          tauto
        · rw [hn, hn2]
          simp only [List.mem_cons, exists_eq_or_imp]
          tauto
        · rw [List.map_cons, List.nodup_cons]
          exact ⟨fun hm => hs' s hm (List.mem_cons_self ..), hd⟩
        · intro y hy
          rcases List.mem_cons.mp hy with rfl | hy
          · simpa using hs
          · exact fun hm => hs' y hy (List.mem_cons_of_mem _ hm)

/-- The loop goes on past an entry with a new symbol whose code meets no leaf on its way and nothing at its end. -/
theorem rebuildLoop_cons_ok {e : Nat} {seen : List Symbol} {t : DTree} {s : Symbol} {c : Code} {xs : List (Symbol × Code)}
    (hs : s ∉ seen) (ha : t.at c = .absent) (hp : ∀ p b, p <+: c → t.at p ≠ .leaf b) :
    ∃ t', DTree.graft s c t = .ok t' ∧ rebuildLoop e seen t ((s, c) :: xs) = rebuildLoop (e + 1) (s :: seen) t' xs := by
  rcases DTree.graft_cases s c t with ⟨⟨p, b, h1, -, h2⟩, -⟩ | ⟨⟨b, h1⟩, -⟩ | ⟨h1, -⟩ | ⟨-, -, t', h, -, -⟩
  · exact (hp p b h1 h2).elim
  · rw [ha] at h1; cases h1
  · rw [ha] at h1; cases h1
  · refine ⟨t', h, ?_⟩
    rw [rebuildLoop, if_neg (by simpa using hs), h]

/-- A repeated symbol, or the detail grafting raises, ends the loop at the entry's index. -/
theorem rebuildLoop_cons_error {e : Nat} {seen : List Symbol} {t : DTree} {s : Symbol} {c : Code}
    {xs : List (Symbol × Code)} :
    (s ∈ seen → rebuildLoop e seen t ((s, c) :: xs) = .error { kind := .tableConflict, detail := 1#8, offset := e }) ∧
    (∀ d, s ∉ seen → DTree.graft s c t = .error d →
      rebuildLoop e seen t ((s, c) :: xs) = .error { kind := .tableConflict, detail := d, offset := e }) := by
  refine ⟨fun hs => ?_, fun d hs h => ?_⟩
  · rw [rebuildLoop, if_pos (by simpa using hs)]
  · rw [rebuildLoop, if_neg (by simpa using hs), h]

end Sys2Proof.Machine
end

