-- ==== Sys2Proof/Laws/Walk.lean ====
section
/-! SUPPORT. The walk over the payload (spec/41_decoder.md rule R165): along a path, along many, and over whole bytes. -/

namespace Sys2Proof.Machine

/-! ### Bits along a path -/

/-- A path to a node moves the walk there and emits nothing. -/
theorem walkBits_to_node (root : DTree) (orig : Nat) {xs ys : List (Nat × Bool)} {node : DTree} {out : List Byte} {c : Code}
    (hx : xs.map Prod.snd = c) (hn : (node.at c).IsNode) :
    walkBits root orig (xs ++ ys) node out = walkBits root orig ys (node.at c) out := by
  induction c generalizing xs node with
  | nil => rw [List.map_eq_nil_iff.mp hx]; rfl
  | cons b c ih =>
    match xs, hx with
    | (k, b') :: xs, hx =>
      obtain ⟨hb, hx'⟩ := List.cons_eq_cons.mp hx
      change b' = b at hb
      subst hb
      have h : ∃ l r, node.child b' = .node l r := by
        cases hc : node.child b' with
        | absent => rw [DTree.at_cons, hc] at hn; simp at hn
        | leaf s =>
          rw [DTree.at_cons, hc] at hn
          cases c with
          | nil => exact hn.elim
          | cons y c => simp at hn
        | node l r => exact ⟨l, r, rfl⟩
      obtain ⟨l, r, h⟩ := h
      rw [List.cons_append, walkBits, h]
      simp only [DTree.at_cons, h] at hn ⊢
      exact ih hx' hn

/-- A path to a leaf emits its symbol, and ends the walk when that is the last one. -/
theorem walkBits_to_leaf (root : DTree) (orig : Nat) {xs ys : List (Nat × Bool)} {node : DTree} {out : List Byte} {c : Code}
    {sym : Symbol} (hx : xs.map Prod.snd = c) (hc : c ≠ []) (hl : node.at c = .leaf sym) :
    walkBits root orig (xs ++ ys) node out =
      if (out ++ [sym]).length = orig then .complete (out ++ [sym]) else walkBits root orig ys root (out ++ [sym]) := by
  obtain ⟨d, b, rfl⟩ : ∃ d b, c = d ++ [b] := ⟨c.dropLast, c.getLast hc, (List.dropLast_append_getLast hc).symm⟩
  obtain ⟨x1, x2, rfl, h1, h2⟩ := List.map_eq_append_iff.mp hx
  match x2, h2 with
  | [(k, _)], h2 =>
    obtain rfl := List.singleton_inj.mp h2
    have hd : (node.at d).IsNode := DTree.isNode_of_prefix (by rw [hl]; simp) (List.prefix_append ..) (by simp)
    rw [DTree.at_append] at hl
    simp only [DTree.at_cons, DTree.at_nil] at hl
    rw [List.append_assoc, walkBits_to_node root orig h1 hd, List.singleton_append, walkBits, hl]

/-- A bit that leads from a node to a missing child stops the walk at that bit. -/
theorem walkBits_to_missing (root : DTree) (orig : Nat) {xs ys : List (Nat × Bool)} {node : DTree} {out : List Byte}
    {c : Code} {k : Nat} {b : Bool} (hx : xs.map Prod.snd = c) (hn : (node.at c).IsNode)
    (hb : (node.at c).child b = .absent) :
    walkBits root orig (xs ++ (k, b) :: ys) node out = .missing k out := by
  rw [walkBits_to_node root orig hx hn, walkBits, hb]

/-- The paths of several leaves, one after another from the root, emit their symbols while the output is not complete. -/
theorem walkBits_steps {root : DTree} {orig : Nat} (hroot : root.IsNode) {steps : List (Symbol × Code)}
    {xs ys : List (Nat × Bool)} {out : List Byte} (hx : xs.map Prod.snd = steps.flatMap Prod.snd)
    (hl : ∀ e ∈ steps, root.at e.2 = .leaf e.1) (hlen : out.length + steps.length < orig) :
    walkBits root orig (xs ++ ys) root out = walkBits root orig ys root (out ++ steps.map Prod.fst) := by
  induction steps generalizing xs out with
  | nil => rw [List.map_eq_nil_iff.mp hx]; simp
  | cons e steps ih =>
    rw [List.flatMap_cons] at hx
    obtain ⟨x1, x2, rfl, h1, h2⟩ := List.map_eq_append_iff.mp hx
    have he := hl e (List.mem_cons_self ..)
    have hne : e.2 ≠ [] := by
      intro h
      rw [h, DTree.at_nil] at he
      rw [he] at hroot
      exact hroot
    rw [List.length_cons] at hlen
    rw [List.append_assoc, walkBits_to_leaf root orig h1 hne he, if_neg (by simp; omega),
      ih h2 (fun f hf => hl f (List.mem_cons_of_mem _ hf)) (by simp; omega)]
    simp

/-- The paths of as many leaves as the output has bytes left complete it, whatever follows. -/
theorem walkBits_steps_complete {root : DTree} {orig : Nat} (hroot : root.IsNode) {steps : List (Symbol × Code)}
    {xs ys : List (Nat × Bool)} {out : List Byte} (hx : xs.map Prod.snd = steps.flatMap Prod.snd) (hn : steps ≠ [])
    (hl : ∀ e ∈ steps, root.at e.2 = .leaf e.1) (hlen : out.length + steps.length = orig) :
    walkBits root orig (xs ++ ys) root out = .complete (out ++ steps.map Prod.fst) := by
  obtain ⟨init, e, rfl⟩ : ∃ init e, steps = init ++ [e] :=
    ⟨steps.dropLast, steps.getLast hn, (List.dropLast_append_getLast hn).symm⟩
  rw [List.flatMap_append] at hx
  obtain ⟨x1, x2, rfl, h1, h2⟩ := List.map_eq_append_iff.mp hx
  have he := hl e (by simp)
  have hne : e.2 ≠ [] := by
    intro h
    rw [h, DTree.at_nil] at he
    rw [he] at hroot
    exact hroot
  simp only [List.length_append, List.length_singleton] at hlen
  rw [List.append_assoc, walkBits_steps hroot h1 (fun f hf => hl f (by simp [hf])) (by omega),
    walkBits_to_leaf root orig (by simpa using h2) hne he, if_pos (by simp; omega)]
  simp

/-- The walk over two runs of bits. -/
theorem walkBits_append (root : DTree) (orig : Nat) (xs ys : List (Nat × Bool)) (node : DTree) (out : List Byte) :
    walkBits root orig (xs ++ ys) node out =
      match walkBits root orig xs node out with
      | .more n o => walkBits root orig ys n o
      | .complete o => .complete o
      | .missing k o => .missing k o := by
  induction xs generalizing node out with
  | nil => rfl
  | cons x xs ih =>
    obtain ⟨k, b⟩ := x
    rw [List.cons_append, walkBits, walkBits]
    cases node.child b with
    | absent => rfl
    | leaf s =>
      simp only
      split
      · rfl
      · exact ih _ _
    | node l r => exact ih _ _

/-- Numbering the bits otherwise changes only the number a missing child is reported at. -/
theorem walkBits_renumber (root : DTree) (orig : Nat) (f : Nat → Nat) (xs : List (Nat × Bool)) (node : DTree)
    (out : List Byte) :
    walkBits root orig (xs.map fun x => (f x.1, x.2)) node out =
      match walkBits root orig xs node out with
      | .more n o => .more n o
      | .complete o => .complete o
      | .missing k o => .missing (f k) o := by
  induction xs generalizing node out with
  | nil => rfl
  | cons x xs ih =>
    obtain ⟨k, b⟩ := x
    rw [List.map_cons, walkBits, walkBits]
    cases node.child b with
    | absent => rfl
    | leaf s =>
      simp only
      split
      · rfl
      · exact ih _ _
    | node l r => exact ih _ _

/-! ### Whole bytes -/

/-- Bits with their positions in the payload, from position `j` on. -/
def indexedBits (j : Nat) (bits : List Bool) : List (Nat × Bool) := (bits.zipIdx j).map fun x => (x.2, x.1)

@[simp] theorem indexedBits_snd (j : Nat) (bits : List Bool) : (indexedBits j bits).map Prod.snd = bits := by
  simp [indexedBits, Function.comp_def]

theorem indexedBits_append (j : Nat) (xs ys : List Bool) :
    indexedBits j (xs ++ ys) = indexedBits j xs ++ indexedBits (j + xs.length) ys := by
  simp [indexedBits, List.zipIdx_append]

theorem indexedBits_cons (j : Nat) (b : Bool) (bs : List Bool) : indexedBits j (b :: bs) = (j, b) :: indexedBits (j + 1) bs :=
  rfl

theorem numberedBits_eq (i : Nat) (b : Byte) :
    numberedBits b = (indexedBits (8 * i) (bitsOfByte b)).map fun x => (7 - x.1 % 8, x.2) := by
  have h : ∀ m, m < 8 → (8 * i + m) % 8 = m := fun m hm => by omega
  simp [numberedBits, indexedBits, bitsOfByte, List.range, List.range.loop, List.zipIdx, Nat.add_assoc, h]

/-- Walking the payload's next bytes is walking their bits; a missing child is reported at its byte and bit. -/
theorem walkPayload_bytes {s : State} {root : DTree} {orig poff : Nat} {bytes : List Byte} {left i : Nat} {node : DTree}
    {out : List Byte} (hr : s.ibuf.readBytes (poff + i) bytes.length = some bytes)
    (hs : poff + i + bytes.length ≤ s.ibufSize) :
    walkPayload s root orig poff (bytes.length + left) i node out =
      match walkBits root orig (indexedBits (8 * i) (bytes.flatMap bitsOfByte)) node out with
      | .complete o => .complete o
      | .missing j o =>
        .corrupt { kind := .corruptBitstream, detail := 1#8, offset := j / 8, bit := BitVec.ofNat 3 (7 - j % 8) } o
      | .more n o => walkPayload s root orig poff left (i + bytes.length) n o := by
  induction bytes generalizing i node out with
  | nil => simp [indexedBits, walkBits]
  | cons b bytes ih =>
    obtain ⟨h1, h2⟩ := (Memory.readBytes_cons ..).mp hr
    rw [List.length_cons] at hs ⊢
    rw [show bytes.length + 1 + left = (bytes.length + left) + 1 by omega, walkPayload, readIbuf_ok (by omega) h1,
      List.flatMap_cons, indexedBits_append, walkBits_append, bitsOfByte_length]
    simp only
    rw [numberedBits_eq i, walkBits_renumber root orig fun k => 7 - k % 8]
    have hmiss : ∀ {j o}, walkBits root orig (indexedBits (8 * i) (bitsOfByte b)) node out = .missing j o → j / 8 = i := by
      intro j o
      have hall : ∀ x ∈ indexedBits (8 * i) (bitsOfByte b), x.1 / 8 = i := by
        intro x hx
        obtain ⟨y, hy, rfl⟩ := List.mem_map.mp hx
        have := List.le_snd_of_mem_zipIdx hy
        have := List.snd_lt_add_of_mem_zipIdx hy
        rw [bitsOfByte_length] at this
        simp only
        omega
      revert hall
      generalize indexedBits (8 * i) (bitsOfByte b) = xs
      induction xs generalizing node out with
      | nil => intro _ h; cases h
      | cons x xs ihx =>
        obtain ⟨k, c⟩ := x
        intro hall h
        rw [walkBits] at h
        have hx : ∀ x ∈ xs, x.1 / 8 = i := fun x hx => hall x (List.mem_cons_of_mem _ hx)
        cases hc : node.child c with
        | absent => rw [hc] at h; cases h; exact hall _ (List.mem_cons_self ..)
        | leaf t =>
          rw [hc] at h
          simp only at h
          split at h
          · cases h
          · exact ihx hx h
        | node l r => rw [hc] at h; exact ihx hx h
    cases hw : walkBits root orig (indexedBits (8 * i) (bitsOfByte b)) node out with
    | complete o => rfl
    | missing j o => simp only [hmiss hw]
    | more n o =>
      simp only
      rw [ih (by rw [Nat.add_assoc] at h2; exact h2) (by omega), show 8 * (i + 1) = 8 * i + 8 by omega,
        show i + 1 + bytes.length = i + (bytes.length + 1) by omega]

/-- The walk stops early only at a read that the model stops on. -/
theorem walkPayload_stopped {s : State} {root : DTree} {orig poff left i : Nat} {node : DTree} {out : List Byte} {e : Stop}
    (h : walkPayload s root orig poff left i node out = .stopped e) : ∃ f, e = .fault f := by
  induction left generalizing i node out with
  | zero => cases h
  | succ left ih =>
    rw [walkPayload] at h
    split at h
    · next he => cases h; exact readIbuf_error he
    · split at h
      · cases h
      · cases h
      · exact ih h

/-- A walk that completes has decoded exactly the declared number of bytes, and one that does not, fewer. -/
theorem walkBits_length {root : DTree} {orig : Nat} {xs : List (Nat × Bool)} {node : DTree} {out : List Byte}
    (h : out.length < orig) :
    match walkBits root orig xs node out with
    | .complete o => o.length = orig
    | .missing _ o => o.length < orig
    | .more _ o => o.length < orig := by
  induction xs generalizing node out with
  | nil => exact h
  | cons x xs ih =>
    obtain ⟨k, b⟩ := x
    rw [walkBits]
    cases node.child b with
    | absent => exact h
    | leaf s =>
      by_cases he : (out ++ [s]).length = orig
      · simp only [if_pos he]; exact he
      · simp only [if_neg he]
        exact ih (by simp at he ⊢; omega)
    | node l r => exact ih h

theorem walkPayload_length {s : State} {root : DTree} {orig poff left i : Nat} {node : DTree} {out : List Byte}
    (h : out.length < orig) :
    (∀ o, walkPayload s root orig poff left i node out = .complete o → o.length = orig) ∧
    ∀ r o, walkPayload s root orig poff left i node out = .corrupt r o →
      o.length < orig ∧ r.kind = .corruptBitstream := by
  induction left generalizing i node out with
  | zero =>
    simp only [walkPayload]
    exact ⟨fun o ho => (by cases ho), fun r o ho => by cases ho; exact ⟨h, rfl⟩⟩
  | succ left ih =>
    rw [walkPayload]
    cases readIbuf s (poff + i) with
    | error e => exact ⟨fun o ho => (by cases ho), fun r o ho => by cases ho⟩
    | ok b =>
      have hb := walkBits_length (root := root) (xs := numberedBits b) (node := node) h
      simp only
      cases hw : walkBits root orig (numberedBits b) node out with
      | complete o' => rw [hw] at hb; exact ⟨fun o ho => (by cases ho; exact hb), fun r o ho => by cases ho⟩
      | missing k o' => rw [hw] at hb; exact ⟨fun o ho => (by cases ho), fun r o ho => by cases ho; exact ⟨hb, rfl⟩⟩
      | more n o' => rw [hw] at hb; exact ih hb

end Sys2Proof.Machine
end

