-- ==== Sys2Proof/Laws/Commands.lean ====
section
/-! SUPPORT. How each command's body can end, said once: it finishes, it raises, or it meets a fault of the model. A proof about a
command takes these cases instead of unfolding the body; one about COMPRESS or DECOMPRESS takes them step by step with
`Result.andThen_eq_finish` and `Result.andThen_eq_raise`. -/

namespace Sys2Proof.Machine

/-! ### Encoder commands -/

theorem freqBody_cases (s : State) :
    (s.ibufSize < s.inLen.toNat ∧
      freqBody s = .raise { kind := .lengthRange } { s with valid := s.valid.beforeFreq }) ∨
    (s.inLen.toNat ≤ s.ibufSize ∧ s.inLen.toNat = 0 ∧
      freqBody s = .raise { kind := .emptyInput } { s with valid := s.valid.beforeFreq }) ∨
    (∃ bytes, 1 ≤ s.inLen.toNat ∧ s.inLen.toNat ≤ s.ibufSize ∧ s.ibuf.readBytes 0 s.inLen.toNat = some bytes ∧
      bytes.length = s.inLen.toNat ∧
      freqBody s = .finish { s with
        valid := { s.valid.beforeFreq with ft := true }
        enc := { s.enc with ft := countSymbols bytes, ftLen := s.inLen } }) ∨
    ∃ f, freqBody s = .fault f := by
  unfold freqBody
  simp only [State.ibufSize]
  by_cases h1 : s.params.ibufSize.toNat < s.inLen.toNat
  · exact .inl ⟨h1, by rw [if_pos h1]⟩
  · by_cases h2 : s.inLen.toNat = 0
    · exact .inr (.inl ⟨by omega, h2, by rw [if_neg h1, if_pos h2]⟩)
    · rw [if_neg h1, if_neg h2]
      cases h : readIbufBytes { s with valid := s.valid.beforeFreq } 0 s.inLen.toNat with
      | error e =>
        obtain ⟨f, rfl⟩ := readIbufBytes_error h
        exact .inr (.inr (.inr ⟨f, rfl⟩))
      | ok bytes =>
        obtain ⟨hb, hl, -⟩ := readIbufBytes_eq_ok h
        exact .inr (.inr (.inl ⟨bytes, by omega, by omega, hb, hl, rfl⟩))

/-- FREQ over a written input of legal length finishes. -/
theorem freqBody_finish {s : State} {bytes : List Byte} (h1 : 1 ≤ s.inLen.toNat) (h2 : s.inLen.toNat ≤ s.ibufSize)
    (h : s.ibuf.readBytes 0 s.inLen.toNat = some bytes) :
    freqBody s = .finish { s with
      valid := { s.valid.beforeFreq with ft := true }
      enc := { s.enc with ft := countSymbols bytes, ftLen := s.inLen } } := by
  unfold freqBody
  unfold State.ibufSize at h2
  simp only [State.ibufSize]
  rw [if_neg (by omega), if_neg (by omega),
    readIbufBytes_ok (s := { s with valid := s.valid.beforeFreq }) (by simpa [State.ibufSize] using h2) h]
  rfl

/-- The one error of the commands whose only check is a prerequisite. -/
def missing (b : ValidBit) : Report := { kind := .sequenceError, detail := BitVec.ofNat 8 (b.number + 1) }

theorem buildTreeBody_cases (s : State) :
    (s.valid.ft = false ∧ buildTreeBody s = .raise (missing .ft) s) ∨
    (∃ tree, s.valid.ft = true ∧ buildTree s.enc.ft = some tree ∧
      buildTreeBody s = .finish { s with
        valid := { s.valid.beforeBuildTree with etree := true }, enc := { s.enc with etree := tree } }) ∨
    (s.valid.ft = true ∧ buildTree s.enc.ft = none ∧ buildTreeBody s = .fault .noSymbol) := by
  unfold buildTreeBody
  cases h : s.valid.ft with
  | false => exact .inl ⟨rfl, requireFlags_missing _ (by simp [firstMissing, Valid.get, h])⟩
  | true =>
    rw [requireFlags_ft _ _ h]
    simp only
    cases hb : buildTree s.enc.ft with
    | none => exact .inr (.inr ⟨trivial, rfl, rfl⟩)
    | some tree => exact .inr (.inl ⟨tree, trivial, rfl, rfl⟩)

theorem deriveCodesBody_cases (s : State) :
    (s.valid.etree = false ∧ deriveCodesBody s = .raise (missing .etree) s) ∨
    (s.valid.etree = true ∧ deriveCodesBody s = .finish { s with
      valid := { s.valid.beforeDeriveCodes with ct := true }, enc := { s.enc with ct := deriveCodes s.enc.etree } }) := by
  unfold deriveCodesBody
  cases h : s.valid.etree with
  | false => exact .inl ⟨rfl, requireFlags_missing _ (by simp [firstMissing, Valid.get, h])⟩
  | true => exact .inr ⟨rfl, by rw [requireFlags_etree _ _ h]⟩

theorem encodeTableBody_cases (s : State) :
    (s.valid.ct = false ∧ encodeTableBody s = .raise (missing .ct) s) ∨
    (∃ r, s.valid.ct = true ∧ encodeTable s.enc.ct = .error r ∧
      encodeTableBody s = .raise r { s with valid := s.valid.beforeEncodeTable }) ∨
    (∃ bytes, s.valid.ct = true ∧ encodeTable s.enc.ct = .ok bytes ∧
      encodeTableBody s = .finish { s with
        valid := { s.valid.beforeEncodeTable with etab := true }, enc := { s.enc with etab := bytes } }) := by
  unfold encodeTableBody
  cases h : s.valid.ct with
  | false => exact .inl ⟨rfl, requireFlags_missing _ (by simp [firstMissing, Valid.get, h])⟩
  | true =>
    rw [requireFlags_ct _ _ h]
    simp only
    cases hb : encodeTable s.enc.ct with
    | error r => exact .inr (.inl ⟨r, trivial, rfl, rfl⟩)
    | ok bytes => exact .inr (.inr ⟨bytes, trivial, rfl, rfl⟩)

theorem packBody_cases (s : State) :
    (s.valid.ct = false ∧ packBody s = .raise (missing .ct) s) ∨
    (∃ r, s.valid.ct = true ∧
      packAll { s with valid := s.valid.beforePack } s.enc.ftLen.toNat = .error (.raise r) ∧
      packBody s = .raise r { s with valid := s.valid.beforePack }) ∨
    (∃ p, s.valid.ct = true ∧ packAll { s with valid := s.valid.beforePack } s.enc.ftLen.toNat = .ok p ∧
      packBody s = .finish { s with
        valid := { s.valid.beforePack with pbuf := true }
        enc := { s.enc with pbuf := p.bytes, totalBits := BitVec.ofNat 64 p.bits } }) ∨
    ∃ f, packBody s = .fault f := by
  unfold packBody
  cases h : s.valid.ct with
  | false => exact .inl ⟨rfl, requireFlags_missing _ (by simp [firstMissing, Valid.get, h])⟩
  | true =>
    rw [requireFlags_ct _ _ h]
    simp only
    rcases hp : packAll { s with valid := s.valid.beforePack } s.enc.ftLen.toNat with (r | f) | p
    · exact .inr (.inl ⟨r, trivial, rfl, rfl⟩)
    · exact .inr (.inr (.inr ⟨f, rfl⟩))
    · exact .inr (.inr (.inl ⟨p, trivial, rfl, rfl⟩))

theorem writeContainerBody_cases (s : State) :
    (∃ b ∈ [ValidBit.etab, .pbuf], s.valid.get b = false ∧ writeContainerBody s = .raise (missing b) s) ∨
    (s.valid.etab = true ∧ s.valid.pbuf = true ∧ s.obufSize < 16 + s.enc.etab.length + s.enc.pbuf.length ∧
      writeContainerBody s = .raise { kind := .outputOverflow, detail := 2#8 } s) ∨
    (s.valid.etab = true ∧ s.valid.pbuf = true ∧ 16 + s.enc.etab.length + s.enc.pbuf.length ≤ s.obufSize ∧
      writeContainerBody s = .finish { s with
        obuf := s.obuf.writeBytes 0 (containerBytes s.enc.ftLen s.enc.etab s.enc.pbuf)
        outLen := BitVec.ofNat 32 (16 + s.enc.etab.length + s.enc.pbuf.length) }) := by
  unfold writeContainerBody
  rcases requireFlags_cases [.etab, .pbuf] s (fun s =>
    let total := 16 + s.enc.etab.length + s.enc.pbuf.length
    if s.obufSize < total then .raise { kind := .outputOverflow, detail := 2#8 } s
    else
      .finish { s with
        obuf := s.obuf.writeBytes 0 (containerBytes s.enc.ftLen s.enc.etab s.enc.pbuf)
        outLen := BitVec.ofNat 32 total }) with ⟨hm, h⟩ | ⟨b, hb, hv, h⟩
  · refine .inr ?_
    have h1 : s.valid.etab = true := hm .etab (by simp)
    have h2 : s.valid.pbuf = true := hm .pbuf (by simp)
    rw [h]
    simp only
    by_cases ht : s.obufSize < 16 + s.enc.etab.length + s.enc.pbuf.length
    · exact .inl ⟨h1, h2, ht, by rw [if_pos ht]⟩
    · exact .inr ⟨h1, h2, by omega, by rw [if_neg ht]⟩
  · exact .inl ⟨b, hb, hv, h⟩

@[simp] theorem containerBytes_length (orig : Word) (table payload : List Byte) :
    (containerBytes orig table payload).length = 16 + table.length + payload.length := by
  simp [containerBytes, magic, bytesLE32]
  omega

/-! ### Decoder commands -/

theorem le32_bytes (w : Word) :
    le32 (w.extractLsb' 0 8) (w.extractLsb' 8 8) (w.extractLsb' 16 8) (w.extractLsb' 24 8) = w := by
  apply BitVec.eq_of_getLsbD_eq
  intro i hi
  simp only [le32, BitVec.getLsbD_append, BitVec.getLsbD_extractLsb']
  rcases Nat.lt_or_ge i 8 with h | h
  · simp [h]
  · rcases Nat.lt_or_ge i 16 with h' | h'
    · simp [show ¬ i < 8 by omega, show i - 8 < 8 by omega, show 8 + (i - 8) = i by omega]
    · rcases Nat.lt_or_ge i 24 with h'' | h''
      · simp [show ¬ i < 8 by omega, show ¬ i - 8 < 8 by omega, show i - 8 - 8 < 8 by omega,
          show 16 + (i - 8 - 8) = i by omega]
      · simp [show ¬ i < 8 by omega, show ¬ i - 8 < 8 by omega, show ¬ i - 8 - 8 < 8 by omega,
          show i - 8 - 8 - 8 < 8 by omega, show 24 + (i - 8 - 8 - 8) = i by omega]

/-- A little-endian word read from IBUF. -/
theorem readIbufLE32_ok {s : State} {a : Nat} {w : Word} (ha : a + 4 ≤ s.ibufSize)
    (h : s.ibuf.readBytes a 4 = some (bytesLE32 w)) : readIbufLE32 s a = .ok w := by
  have h' : s.ibuf.readBytes a (bytesLE32 w).length = some (bytesLE32 w) := h
  simp only [bytesLE32, Memory.readBytes_cons] at h'
  obtain ⟨h0, h1, h2, h3, -⟩ := h'
  unfold readIbufLE32
  rw [readIbuf_ok (by omega) h0, readIbuf_ok (by omega) h1, readIbuf_ok (by omega) h2, readIbuf_ok (by omega) h3]
  simp only [bind, Except.bind, pure, Except.pure, le32_bytes]

theorem readIbufLE32_error {s : State} {a : Nat} {e : Stop} (h : readIbufLE32 s a = .error e) : ∃ f, e = .fault f := by
  unfold readIbufLE32 at h
  simp only [bind, Except.bind, pure, Except.pure] at h
  repeat' split at h
  all_goals first
    | (cases h; done)
    | (cases h; exact readIbuf_error (by assumption))

/-- What comparing the magic can raise. -/
theorem checkMagic_error {s : State} {len i : Nat} {ms : List Byte} {r : Report}
    (h : checkMagic s len i ms = .error (.raise r)) : r.kind = .invalidMagic := by
  induction ms generalizing i with
  | nil => cases h
  | cons m ms ih =>
    rw [checkMagic] at h
    split at h
    · cases h; rfl
    · split at h
      · next he =>
        cases h
        obtain ⟨f, hf⟩ := readIbuf_error he
        cases hf
      · split at h
        · exact ih h
        · cases h; rfl

/-- Bytes that match the magic and are all there pass the comparison. -/
theorem checkMagic_ok {s : State} {len i : Nat} {ms : List Byte} (hl : i + ms.length ≤ len) (hs : len ≤ s.ibufSize)
    (h : s.ibuf.readBytes i ms.length = some ms) : checkMagic s len i ms = .ok () := by
  induction ms generalizing i with
  | nil => rfl
  | cons m ms ih =>
    obtain ⟨h1, h2⟩ := (Memory.readBytes_cons ..).mp h
    rw [List.length_cons] at hl
    rw [checkMagic, if_neg (by omega), readIbuf_ok (by omega) h1]
    simp only [if_true]
    exact ih (by omega) h2

/-- What reading the header can raise. -/
theorem readHeader_raisesOnly (s : State) (len : Nat) : RaisesOnly [.invalidMagic, .truncatedInput] (readHeader s len) := by
  have hw : ∀ a, RaisesOnly [.invalidMagic, .truncatedInput] (readIbufLE32 s a) := fun a r h => by
    obtain ⟨f, hf⟩ := readIbufLE32_error h
    cases hf
  exact .bind (fun r h => by simp [checkMagic_error h]) fun _ => .ite (.raise (by simp)) <|
    .bind (hw 4) fun _ => .bind (hw 8) fun _ => .bind (hw 12) fun _ =>
      .ite (.raise (by simp)) (.ite (.raise (by simp)) .ok)

theorem readHeader_error {s : State} {len : Nat} {r : Report} (h : readHeader s len = .error (.raise r)) :
    r.kind = .invalidMagic ∨ r.kind = .truncatedInput := by simpa using readHeader_raisesOnly s len r h

/-- A header that is read declares lengths that fit. -/
theorem readHeader_eq_ok {s : State} {len : Nat} {x : Word × Word × Word} (h : readHeader s len = .ok x) :
    16 + x.2.2.toNat + x.2.1.toNat ≤ len := by
  unfold readHeader at h
  simp only [bind, Except.bind, pure, Except.pure] at h
  repeat' split at h
  all_goals first
    | (cases h; done)
    | (cases h; simp only; omega)

theorem readContainerBody_cases (s : State) :
    (∃ r, (r.kind = .lengthRange ∨ r.kind = .invalidMagic ∨ r.kind = .truncatedInput) ∧
      readContainerBody s = .raise r { s with valid := s.valid.beforeReadContainer }) ∨
    (∃ h, s.inLen.toNat ≤ s.ibufSize ∧
      readHeader { s with valid := s.valid.beforeReadContainer } s.inLen.toNat = .ok h ∧
      readContainerBody s = .finish { s with
        valid := { s.valid.beforeReadContainer with hdr := true }
        dec := { s.dec with hdrOrig := h.1, hdrPlen := h.2.1, hdrTlen := h.2.2 } }) ∨
    ∃ f, readContainerBody s = .fault f := by
  by_cases h1 : s.ibufSize < s.inLen.toNat
  · exact .inl ⟨{ kind := .lengthRange }, .inl rfl, if_pos h1⟩
  · have hb : readContainerBody s = Result.afterLoop
        (readHeader { s with valid := s.valid.beforeReadContainer } s.inLen.toNat)
        { s with valid := s.valid.beforeReadContainer } fun h =>
          .finish { s with
            valid := { s.valid.beforeReadContainer with hdr := true }
            dec := { s.dec with hdrOrig := h.1, hdrPlen := h.2.1, hdrTlen := h.2.2 } } := if_neg h1
    rw [hb]
    rcases hh : readHeader { s with valid := s.valid.beforeReadContainer } s.inLen.toNat with (r | f) | x
    · exact .inl ⟨r, .inr (readHeader_error hh), rfl⟩
    · exact .inr (.inr ⟨f, rfl⟩)
    · exact .inr (.inl ⟨x, by omega, rfl, rfl⟩)

theorem decodeTableBody_cases (s : State) :
    (s.valid.hdr = false ∧ decodeTableBody s = .raise (missing .hdr) s) ∨
    (∃ r, s.valid.hdr = true ∧
      decodeTable { s with valid := s.valid.beforeDecodeTable } s.dec.hdrTlen.toNat = .error (.raise r) ∧
      decodeTableBody s = .raise r { s with valid := s.valid.beforeDecodeTable }) ∨
    (∃ d, s.valid.hdr = true ∧ decodeTable { s with valid := s.valid.beforeDecodeTable } s.dec.hdrTlen.toNat = .ok d ∧
      decodeTableBody s = .finish { s with
        valid := { s.valid.beforeDecodeTable with dtab := true }, dec := { s.dec with decl := d.1, dtab := d.2 } }) ∨
    ∃ f, decodeTableBody s = .fault f := by
  unfold decodeTableBody
  cases h : s.valid.hdr with
  | false => exact .inl ⟨rfl, requireFlags_missing _ (by simp [firstMissing, Valid.get, h])⟩
  | true =>
    rw [requireFlags_hdr _ _ h]
    simp only
    rcases hd : decodeTable { s with valid := s.valid.beforeDecodeTable } s.dec.hdrTlen.toNat with (r | f) | d
    · exact .inr (.inl ⟨r, trivial, rfl, rfl⟩)
    · exact .inr (.inr (.inr ⟨f, rfl⟩))
    · exact .inr (.inr (.inl ⟨d, trivial, rfl, rfl⟩))

/-- A table that is read has at most its declared number of entries, 1 to 256. -/
theorem decodeTable_eq_ok {s : State} {tlen : Nat} {d : Nat × List (Symbol × Code)} (h : decodeTable s tlen = .ok d) :
    1 ≤ d.1 ∧ d.1 ≤ 256 ∧ d.2.length ≤ d.1 ∧ ∀ e ∈ d.2, 1 ≤ e.2.length ∧ e.2.length ≤ 255 := by
  unfold decodeTable at h
  split at h
  · cases h
  · simp only [bind, Except.bind, pure, Except.pure] at h
    split at h
    · cases h
    · next c hc =>
      split at h
      · cases h
      · next es hes =>
        cases h
        have := c.isLt
        refine ⟨?_, ?_, decodeEntries_eq_ok hes⟩ <;> · simp only [declaredCount]; split <;> omega

/-- What reading the entries can raise. -/
theorem decodeEntries_raisesOnly (s : State) (fin left pos : Nat) :
    RaisesOnly [.invalidTableSize, .invalidCodeLength, .truncatedInput] (decodeEntries s fin left pos) := by
  induction left generalizing pos with
  | zero => exact .ok
  | succ left ih =>
    exact .ite (.bind readIbuf_raisesOnly fun _ => .ite (.raise (by simp)) <|
      .bind readIbuf_raisesOnly fun _ => .ite (.raise (by simp)) <| .ite (.raise (by simp)) <|
        .bind readIbufBytes_raisesOnly fun _ => .bind (ih _) fun _ => .ok) .ok

/-- What reading the table can raise. -/
theorem decodeTable_error {s : State} {tlen : Nat} {r : Report} (h : decodeTable s tlen = .error (.raise r)) :
    r.kind = .invalidTableSize ∨ r.kind = .invalidCodeLength ∨ r.kind = .truncatedInput := by
  have key : RaisesOnly [.invalidTableSize, .invalidCodeLength, .truncatedInput] (decodeTable s tlen) :=
    .ite (.raise (by simp)) <| .bind readIbuf_raisesOnly fun _ =>
      .bind (decodeEntries_raisesOnly _ _ _ _) fun _ => .ok
  simpa using key r h

theorem rebuildTreeBody_cases (s : State) :
    (s.valid.dtab = false ∧ rebuildTreeBody s = .raise (missing .dtab) s) ∨
    (∃ r, s.valid.dtab = true ∧ rebuildTree s.dec.dtab = .error r ∧
      rebuildTreeBody s = .raise r { s with valid := s.valid.beforeRebuildTree }) ∨
    (∃ t, s.valid.dtab = true ∧ rebuildTree s.dec.dtab = .ok t ∧
      rebuildTreeBody s = .finish { s with
        valid := { s.valid.beforeRebuildTree with dtree := true }, dec := { s.dec with dtree := t } }) := by
  unfold rebuildTreeBody
  cases h : s.valid.dtab with
  | false => exact .inl ⟨rfl, requireFlags_missing _ (by simp [firstMissing, Valid.get, h])⟩
  | true =>
    rw [requireFlags_dtab _ _ h]
    simp only
    cases hb : rebuildTree s.dec.dtab with
    | error r => exact .inr (.inl ⟨r, trivial, rfl, rfl⟩)
    | ok t => exact .inr (.inr ⟨t, trivial, rfl, rfl⟩)

/-- A loop that raises, raises TableConflict. -/
theorem rebuildLoop_error {e : Nat} {seen : List Symbol} {t : DTree} {xs : List (Symbol × Code)} {r : Report}
    (h : rebuildLoop e seen t xs = .error r) : r.kind = .tableConflict := by
  induction xs generalizing e seen t with
  | nil => cases h
  | cons x xs ih =>
    obtain ⟨s, c⟩ := x
    rw [rebuildLoop] at h
    split at h
    · cases h; rfl
    · split at h
      · cases h; rfl
      · exact ih h

theorem unpackBody_cases (s : State) :
    (∃ b ∈ [ValidBit.hdr, .dtree], s.valid.get b = false ∧ unpackBody s = .raise (missing b) s) ∨
    (s.valid.hdr = true ∧ s.valid.dtree = true ∧
      ((s.obufSize < s.dec.hdrOrig.toNat ∧
          unpackBody s = .raise { kind := .outputOverflow, detail := 3#8, offset := 4 } s) ∨
        (s.dec.hdrOrig.toNat = 0 ∧ unpackBody s = .finish { s with outLen := 0#32 }) ∨
        (∃ out, s.dec.hdrOrig.toNat ≤ s.obufSize ∧ 0 < s.dec.hdrOrig.toNat ∧ out.length = s.dec.hdrOrig.toNat ∧
          walkPayload s s.dec.dtree s.dec.hdrOrig.toNat (16 + s.dec.hdrTlen.toNat) s.dec.hdrPlen.toNat 0 s.dec.dtree [] =
            .complete out ∧
          unpackBody s = .finish { s with obuf := s.obuf.writeBytes 0 out, outLen := s.dec.hdrOrig }) ∨
        (∃ r out, s.dec.hdrOrig.toNat ≤ s.obufSize ∧ out.length < s.dec.hdrOrig.toNat ∧ r.kind = .corruptBitstream ∧
          walkPayload s s.dec.dtree s.dec.hdrOrig.toNat (16 + s.dec.hdrTlen.toNat) s.dec.hdrPlen.toNat 0 s.dec.dtree [] =
            .corrupt r out ∧
          unpackBody s = .raise r { s with obuf := s.obuf.writeBytes 0 out }) ∨
        ∃ f, unpackBody s = .fault f)) := by
  rcases requireFlags_cases [.hdr, .dtree] s (fun s =>
    let orig := s.dec.hdrOrig.toNat
    if s.obufSize < orig then .raise { kind := .outputOverflow, detail := 3#8, offset := 4 } s
    else if orig = 0 then .finish { s with outLen := 0#32 }
    else
      match walkPayload s s.dec.dtree orig (16 + s.dec.hdrTlen.toNat) s.dec.hdrPlen.toNat 0 s.dec.dtree [] with
      | .complete out => .finish { storeDecoded s out with outLen := s.dec.hdrOrig }
      | .corrupt r out => .raise r (storeDecoded s out)
      | .stopped e => Result.afterLoop (.error e) s Result.finish) with ⟨hm, h⟩ | ⟨b, hb, hv, h⟩
  · have hu : unpackBody s = _ := h
    dsimp only at hu
    refine .inr ⟨hm .hdr (by simp), hm .dtree (by simp), ?_⟩
    by_cases h1 : s.obufSize < s.dec.hdrOrig.toNat
    · exact .inl ⟨h1, hu.trans (if_pos h1)⟩
    · replace hu := hu.trans (if_neg h1)
      by_cases h2 : s.dec.hdrOrig.toNat = 0
      · exact .inr (.inl ⟨h2, hu.trans (if_pos h2)⟩)
      · replace hu := hu.trans (if_neg h2)
        have hlen := walkPayload_length (s := s) (root := s.dec.dtree) (orig := s.dec.hdrOrig.toNat)
          (poff := 16 + s.dec.hdrTlen.toNat) (left := s.dec.hdrPlen.toNat) (i := 0) (node := s.dec.dtree) (out := [])
          (by simp; omega)
        cases hw : walkPayload s s.dec.dtree s.dec.hdrOrig.toNat (16 + s.dec.hdrTlen.toNat) s.dec.hdrPlen.toNat 0
            s.dec.dtree [] with
        | complete out =>
          rw [hw] at hu
          exact .inr (.inr (.inl ⟨out, by omega, by omega, hlen.1 out hw, rfl, hu⟩))
        | corrupt r out =>
          rw [hw] at hu
          obtain ⟨h3, h4⟩ := hlen.2 r out hw
          exact .inr (.inr (.inr (.inl ⟨r, out, by omega, h3, h4, rfl, hu⟩)))
        | stopped e =>
          rw [hw] at hu
          obtain ⟨f, rfl⟩ := walkPayload_stopped hw
          exact .inr (.inr (.inr (.inr ⟨f, hu⟩)))
  · exact .inl ⟨b, hb, hv, h⟩

end Sys2Proof.Machine
end

