-- ==== Sys2Proof/Laws/PerInstr.lean ====
section
/-! SUPPORT. Statements made per command: a command is well formed and its word decodes to it. -/

namespace Sys2Proof.Laws.Encoding

/-- The command's word is well formed and decodes to the command (spec/30_encoding.md rules R85 and R89). -/
def Statement (i : Instr) : Prop :=
  i.wellFormed = true ∧ commandWordWellFormed (encode i) = true ∧ decode (encode i) = .ok i

theorem nop : Statement .nop := ⟨rfl, rfl, rfl⟩
theorem compress : Statement .compress := ⟨rfl, rfl, rfl⟩
theorem decompress : Statement .decompress := ⟨rfl, rfl, rfl⟩
theorem freq : Statement .freq := ⟨rfl, rfl, rfl⟩
theorem buildTree : Statement .buildTree := ⟨rfl, rfl, rfl⟩
theorem deriveCodes : Statement .deriveCodes := ⟨rfl, rfl, rfl⟩
theorem encodeTable : Statement .encodeTable := ⟨rfl, rfl, rfl⟩
theorem pack : Statement .pack := ⟨rfl, rfl, rfl⟩
theorem writeContainer : Statement .writeContainer := ⟨rfl, rfl, rfl⟩
theorem readContainer : Statement .readContainer := ⟨rfl, rfl, rfl⟩
theorem decodeTable : Statement .decodeTable := ⟨rfl, rfl, rfl⟩
theorem rebuildTree : Statement .rebuildTree := ⟨rfl, rfl, rfl⟩
theorem unpack : Statement .unpack := ⟨rfl, rfl, rfl⟩
theorem clear : Statement .clear := ⟨rfl, rfl, rfl⟩

end Sys2Proof.Laws.Encoding
end

