-- ==== Sys2Proof/Tests/Slice0.lean ====
section
/-! SUPPORT. Tests of the model and witnesses of the statements. A test's expected values come from spec/, and its docstring
says where; a theorem `witness_X` shows states and operands that meet all the hypotheses of `Obligations.X` together, for each of
its clauses. -/

namespace Sys2Proof.Tests

-- One theorem is checked at a time: the kernel's evaluations of 256-entry tables need much memory side by side.
set_option Elab.async false

open Sys2Proof Sys2Proof.Machine

/-! ### Small states -/

/-- Bytes at the addresses from 0 on. -/
def cells (bytes : List Nat) : Memory := bytes.zipIdx.map fun c => (c.2, BitVec.ofNat 8 c.1)

/-- A block after reset with the given buffer sizes. -/
def sized (i o : Nat) : State := State.resetWith ⟨BitVec.ofNat 32 i, BitVec.ofNat 32 o⟩

/-- The same with bytes in IBUF and IN_LEN their number. -/
def loaded (i o : Nat) (bytes : List Nat) : State :=
  { sized i o with ibuf := cells bytes, inLen := BitVec.ofNat 32 bytes.length }

/-- A frequency table with the given counts. -/
def counts (l : List (Nat × Nat)) : FreqTable :=
  l.foldl (fun t e => t.set! e.1 (BitVec.ofNat 32 e.2)) (Vector.replicate 256 0#32)

/-- A code table with the given codes. -/
def codes (l : List (Nat × Code)) : CodeTable :=
  l.foldl (fun t e => setCode t (BitVec.ofNat 8 e.1) e.2) (Vector.replicate 256 none)

/-- The outcome's state, if it has one. -/
def nextOf : Host.Outcome State Fault Refusal → Option State
  | .next s => some s
  | .fault _ => none
  | .refused _ => none

/-- The outcome's state, or the reset state. -/
def landed (o : Host.Outcome State Fault Refusal) : State := (nextOf o).getD State.reset

theorem eq_next_landed {o : Host.Outcome State Fault Refusal} (h : (nextOf o).isSome = true) : o = .next (landed o) := by
  cases o <;> simp_all [nextOf, landed]

/-- The state one step after the command was accepted. -/
def after (i : Instr) (s : State) : Option State := nextOf (step (s.withFetchWord 32 (encode i).toNat))

/-- STATUS, ERR_OFFSET, ERR_INFO, VALID and OUT_LEN. -/
def report (s : State) : Nat × Nat × Nat × Nat × Nat :=
  (s.statusWord.toNat, s.errOffset.toNat, s.errInfoWord.toNat, s.valid.word.toNat, s.outLen.toNat)

/-- The OBUF bytes below `n`. -/
def obufBytes (s : State) (n : Nat) : Option (List Nat) := (s.obuf.readBytes 0 n).map (List.map BitVec.toNat)

/-- The text "aaabbcaaabbcaaabbc" of spec/95_test_vectors.md 1.1. -/
def scenario : List Nat :=
  [0x61, 0x61, 0x61, 0x62, 0x62, 0x63, 0x61, 0x61, 0x61, 0x62, 0x62, 0x63, 0x61, 0x61, 0x61, 0x62, 0x62, 0x63]

/-- The container CAB of spec/95_test_vectors.md 2.2. -/
def cab : List Nat :=
  [0x43, 0x43, 0x48, 0x46, 2, 0, 0, 0, 1, 0, 0, 0, 7, 0, 0, 0, 2, 0x61, 1, 0, 0x62, 1, 0x80, 0x40]

/-- The container of vector D23. -/
def d23 : List Nat :=
  [0x43, 0x43, 0x48, 0x46, 2, 0, 0, 0, 1, 0, 0, 0, 4, 0, 0, 0, 1, 0x61, 1, 0, 0x40]

/-- The tree of "ab": a = `0`, b = `1`. -/
def treeAB : ETree := .node 2#32 (.leaf 0x61#8 1#32) (.leaf 0x62#8 1#32)

/-- The encoder's products of "ab" (spec/95_test_vectors.md Program 2). -/
def encAB : EncProducts :=
  { ft := counts [(0x61, 1), (0x62, 1)], ftLen := 2#32, etree := treeAB, ct := codes [(0x61, [false]), (0x62, [true])],
    etab := [0x02#8, 0x61#8, 0x01#8, 0x00#8, 0x62#8, 0x01#8, 0x80#8], pbuf := [0x40#8], totalBits := 2#64 }

/-- The decoder's products of CAB (spec/95_test_vectors.md Program 2). -/
def decAB : DecProducts :=
  { hdrOrig := 2#32, hdrPlen := 1#32, hdrTlen := 7#32, dtab := [(0x61#8, [false]), (0x62#8, [true])], decl := 2,
    dtree := .node (.leaf 0x61#8) (.leaf 0x62#8) }

/-- Every product valid. -/
def allValid : Valid :=
  { ft := true, etree := true, ct := true, etab := true, pbuf := true, hdr := true, dtab := true, dtree := true }

/-- A block with "ab" in IBUF and its encoder products. -/
def encoded (o : Nat) : State :=
  { loaded 64 o [0x61, 0x62] with
    enc := encAB, valid := { Valid.reset with ft := true, etree := true, ct := true, etab := true, pbuf := true } }

/-- A block with CAB in IBUF and every product of "ab". -/
def full : State := { loaded 64 64 cab with enc := encAB, dec := decAB, valid := allValid }

/-! ### Well-formedness (rules R6, R11, R85, R87) -/

theorem test_reserved_bits_refused : commandWordWellFormed 0x00000110#32 = false := by decide
theorem test_unassigned_opcode_refused : commandWordWellFormed 0x00000016#32 = false := by decide
theorem test_no_input_buffer_refused : Params.wellFormed ⟨0#32, 1#32⟩ = false := by decide
theorem test_no_output_buffer_refused : Params.wellFormed ⟨1#32, 0#32⟩ = false := by decide
theorem test_empty_code_refused : Code.wellFormed [] = false := by decide
theorem test_long_code_refused : Code.wellFormed (List.replicate 256 false) = false := by decide +kernel
theorem test_wellFormed_accepts : commandWordWellFormed 0x00000023#32 = true ∧ Params.wellFormed ⟨1#32, 0xFFFFFFFF#32⟩ = true ∧
    Code.wellFormed (List.replicate 255 true) = true := by decide +kernel

/-! ### Decoding: the words of rule R88's table, RSV then OP -/

theorem test_decode_nop : decode 0b000000000000000000000000_00000000#32 = .ok .nop := by rfl
theorem test_decode_compress : decode 0b000000000000000000000000_00000001#32 = .ok .compress := by rfl
theorem test_decode_decompress : decode 0b000000000000000000000000_00000010#32 = .ok .decompress := by rfl
theorem test_decode_freq : decode 0b000000000000000000000000_00010000#32 = .ok .freq := by rfl
theorem test_decode_buildTree : decode 0b000000000000000000000000_00010001#32 = .ok .buildTree := by rfl
theorem test_decode_deriveCodes : decode 0b000000000000000000000000_00010010#32 = .ok .deriveCodes := by rfl
theorem test_decode_encodeTable : decode 0b000000000000000000000000_00010011#32 = .ok .encodeTable := by rfl
theorem test_decode_pack : decode 0b000000000000000000000000_00010100#32 = .ok .pack := by rfl
theorem test_decode_writeContainer : decode 0b000000000000000000000000_00010101#32 = .ok .writeContainer := by rfl
theorem test_decode_readContainer : decode 0b000000000000000000000000_00100000#32 = .ok .readContainer := by rfl
theorem test_decode_decodeTable : decode 0b000000000000000000000000_00100001#32 = .ok .decodeTable := by rfl
theorem test_decode_rebuildTree : decode 0b000000000000000000000000_00100010#32 = .ok .rebuildTree := by rfl
theorem test_decode_unpack : decode 0b000000000000000000000000_00100011#32 = .ok .unpack := by rfl
theorem test_decode_clear : decode 0b000000000000000000000000_00110000#32 = .ok .clear := by rfl
/-- Vectors K5 and K7 of spec/95_test_vectors.md. -/
theorem test_decode_illegal : decode 0x00000110#32 = .error .reservedBits ∧ decode 0x00000016#32 = .error .unassignedOpcode ∧
    decode 0x00000003#32 = .error .unassignedOpcode ∧ decode 0x000000FF#32 = .error .unassignedOpcode := by
  refine ⟨?_, ?_, ?_, ?_⟩ <;> rfl

/-! ### One step of each command -/

/-- Vector K2: STATUS 0x60C, then NOP. -/
theorem test_nop_keeps_dropped :
    (after .nop { sized 4 4 with err := true, dropped := true, errCode := 6#8, errOffset := 9#32 }).map report =
      some (0x0000000A, 0, 0, 0, 0) := by decide +kernel
/-- Vector K3. -/
theorem test_clear : (after .clear { full with outLen := 2#32 }).map report = some (0x00000002, 0, 0, 0, 0) := by
  decide +kernel

/-- spec/95_test_vectors.md 1.1, row FREQ. -/
theorem test_freq_scenario : (after .freq (loaded 64 64 scenario)).map (fun t =>
    (report t, [0x61#8, 0x62#8, 0x63#8].map (freqAt t.enc.ft), (csrRead t 0x030, csrRead t 0x03C))) =
      some ((0x00000002, 0, 0, 0x01, 0), [9#32, 6#32, 3#32], (18#32, 3#32)) := by decide +kernel
/-- Vector E1. -/
theorem test_freq_empty : (after .freq (sized 4 4)).map report = some (0x00000104, 0, 0, 0, 0) := by decide +kernel

/-- spec/95_test_vectors.md 1.1, row BUILD_TREE: a goes before the internal node of the same weight. -/
theorem test_buildTree_scenario :
    (after .buildTree { sized 4 4 with
      enc := { EncProducts.reset with ft := counts [(0x61, 9), (0x62, 6), (0x63, 3)], ftLen := 18#32 },
      valid := { Valid.reset with ft := true } }).map (fun t => (report t, t.enc.etree)) =
      some ((0x00000002, 0, 0, 0x03, 0),
        .node 18#32 (.leaf 0x61#8 9#32) (.node 9#32 (.leaf 0x63#8 3#32) (.leaf 0x62#8 6#32))) := by decide +kernel
/-- Vector E3. -/
theorem test_buildTree_sequence : (after .buildTree (loaded 64 64 scenario)).map report = some (0x00000904, 0, 1, 0, 0) := by
  decide +kernel

/-- Rule R132's example. -/
theorem test_deriveCodes_scenario :
    (after .deriveCodes { sized 4 4 with
      enc := { EncProducts.reset with
        etree := .node 18#32 (.leaf 0x61#8 9#32) (.node 9#32 (.leaf 0x63#8 3#32) (.leaf 0x62#8 6#32)) },
      valid := { Valid.reset with ft := true, etree := true } }).map (fun t => (report t, tableEntries t.enc.ct)) =
      some ((0x00000002, 0, 0, 0x07, 0),
        [(0x61#8, [false]), (0x62#8, [true, true]), (0x63#8, [true, false])]) := by decide +kernel
/-- Rule R132: the single-symbol tree gives the code `0`. -/
theorem test_deriveCodes_single : tableEntries (deriveCodes (.single 5#32 (.leaf 0x78#8 5#32))) = [(0x78#8, [false])] := by
  decide +kernel

/-- Rule R135's example. -/
theorem test_encodeTable_scenario :
    (after .encodeTable { sized 4 4 with
      enc := { EncProducts.reset with ct := codes [(0x61, [false]), (0x62, [true, true]), (0x63, [true, false])] },
      valid := { Valid.reset with ct := true } }).map (fun t => (report t, t.enc.etab.map BitVec.toNat)) =
      some ((0x00000002, 0, 0, 0x0C, 0), [0x03, 0x61, 0x01, 0x00, 0x62, 0x02, 0xC0, 0x63, 0x02, 0x80]) := by decide +kernel
/-- Rule R103's example, and a code of 9 bits takes two bytes (rule R135). -/
theorem test_packMSB : (packMSB [true, false, true]).map BitVec.toNat = [0xA0] ∧
    (packMSB (List.replicate 9 true)).map BitVec.toNat = [0xFF, 0x80] := by decide +kernel

/-- Vector E14: the bytes `ba` packed with the codes of `ab`. -/
theorem test_pack_new_bytes :
    (after .pack { encoded 64 with ibuf := cells [0x62, 0x61] }).map (fun t =>
      (report t, t.enc.pbuf.map BitVec.toNat, t.enc.totalBits)) = some ((0x00000002, 0, 0, 0x1F, 0), [0x80], 2#64) := by
  decide +kernel
/-- Vector E13 with every later product valid: NoCode at input offset 1. -/
theorem test_pack_noCode : (after .pack { encoded 64 with ibuf := cells [0x61, 0x63] }).map report =
    some (0x00000C04, 1, 0, 0x0F, 0) := by decide +kernel

/-- Rule R137's example, and an exact fit. -/
theorem test_writeContainer_ab : (after .writeContainer (encoded 24)).map (fun t => (report t, obufBytes t 24)) =
    some ((0x00000002, 0, 0, 0x1F, 24), some cab) := by decide +kernel
/-- Vector E11's last step. -/
theorem test_writeContainer_overflow : (after .writeContainer (encoded 23)).map (fun t => (report t, t.obuf)) =
    some ((0x00000A04, 0, 2, 0x1F, 0), []) := by decide +kernel

/-- spec/95_test_vectors.md 2.1, text `ab`. -/
theorem test_compress_ab : (after .compress (loaded 64 64 [0x61, 0x62])).map (fun t => (report t, obufBytes t 24)) =
    some ((0x00000002, 0, 0, 0x1F, 24), some cab) := by decide +kernel
/-- Vector E9. -/
theorem test_compress_payload_overflow : (after .compress (loaded 64 2 scenario)).map report =
    some (0x00000A04, 16, 1, 0x0F, 0) := by decide +kernel

/-- Program 2, READ_CONTAINER. -/
theorem test_readContainer_cab : (after .readContainer (loaded 64 64 cab)).map (fun t =>
    (report t, t.dec.hdrOrig, t.dec.hdrPlen, t.dec.hdrTlen)) = some ((0x00000002, 0, 0, 0x20, 0), 2#32, 1#32, 7#32) := by
  decide +kernel
/-- Vector D2. -/
theorem test_readContainer_short_magic : (after .readContainer (loaded 64 64 [0x43, 0x43])).map report =
    some (0x00000204, 2, 0, 0, 0) := by decide +kernel

/-- Vector D17's table: a 9-bit code in two bytes. -/
theorem test_decodeTable_long_code :
    (after .decodeTable { loaded 64 64 ((cab.take 16) ++ [1, 0x61, 9, 0xFF, 0x80]) with
      dec := { DecProducts.reset with hdrTlen := 5#32 }, valid := { Valid.reset with hdr := true } }).map
      (fun t => (report t, t.dec.dtab)) =
      some ((0x00000002, 0, 0, 0x60, 0), [(0x61#8, List.replicate 9 true)]) := by decide +kernel
/-- Vector D12: the length byte is 0. -/
theorem test_decodeTable_zero_length :
    (after .decodeTable { loaded 64 64 ((cab.take 16) ++ [1, 0x61, 0, 0]) with
      dec := { DecProducts.reset with hdrTlen := 4#32 }, valid := { Valid.reset with hdr := true } }).map report =
      some (0x00000404, 18, 2, 0x20, 0) := by decide +kernel

/-- Rule R164's example. -/
theorem test_rebuildTree_scenario :
    (after .rebuildTree { sized 4 4 with
      dec := { DecProducts.reset with dtab := [(0x61#8, [false]), (0x62#8, [true, true]), (0x63#8, [true, false])] },
      valid := { Valid.reset with hdr := true, dtab := true } }).map (fun t => (report t, t.dec.dtree)) =
      some ((0x00000002, 0, 0, 0xE0, 0), .node (.leaf 0x61#8) (.node (.leaf 0x63#8) (.leaf 0x62#8))) := by decide +kernel
/-- Vector D21: the code is a proper prefix of an earlier one. -/
theorem test_rebuildTree_conflict :
    (after .rebuildTree { sized 4 4 with
      dec := { DecProducts.reset with dtab := [(0x62#8, [false, true]), (0x61#8, [false])] },
      valid := { Valid.reset with hdr := true, dtab := true } }).map report = some (0x00000B04, 1, 4, 0x60, 0) := by
  decide +kernel

/-- Rule R165's example. -/
theorem test_unpack_ab : (after .unpack full).map (fun t => (report t, obufBytes t 2)) =
    some ((0x00000002, 0, 0, 0xFF, 2), some [0x61, 0x62]) := by decide +kernel
/-- Vector D23's last step: a bit leads to a missing child, one byte was decoded. -/
theorem test_unpack_corrupt :
    (after .unpack { full with
      ibuf := cells d23, dec := { decAB with hdrTlen := 4#32, dtree := .node (.leaf 0x61#8) .absent } }).map
      (fun t => (report t, t.obuf)) = some ((0x00000604, 0, 0x601, 0xFF, 0), [(0, 0x61#8)]) := by decide +kernel

/-- Vector D8: CAB with two more bytes. -/
theorem test_decompress_cab : (after .decompress (loaded 64 64 (cab ++ [0xEE, 0xEE]))).map (fun t =>
    (report t, obufBytes t 2)) = some ((0x00000002, 0, 0, 0xE0, 2), some [0x61, 0x62]) := by decide +kernel
/-- Vector D6: the sum of the lengths does not wrap. -/
theorem test_decompress_no_wrap :
    (after .decompress (loaded 64 64 [0x43, 0x43, 0x48, 0x46, 1, 0, 0, 0, 1, 0, 0, 0, 0xFF, 0xFF, 0xFF, 0xFF, 1, 2])).map
      report = some (0x00000504, 12, 2, 0, 0) := by decide +kernel

/-- Vector K6. -/
theorem test_illegal_word : (nextOf (step ((sized 4 4).withFetchWord 32 0xFFFFFFFF))).map report =
    some (0x00000804, 0xFFFFFFFF, 1, 0, 0) := by decide +kernel

/-! ### One host access -/

/-- The block with one event pending, one step later. -/
def onEvent (e : Event) (s : State) : Option State := nextOf (step { s with inputs := [e] })

/-- Vector M1. -/
theorem test_word_write_lanes : (onEvent (.write .ibuf .w32 4 0x00000012#32) (sized 8 8)).map (·.ibuf) =
    some [(4, 0x12#8), (5, 0#8), (6, 0#8), (7, 0#8)] := by decide +kernel
/-- Vector M3. -/
theorem test_word_read_lanes : (onEvent (.read .ibuf .w32 12) (loaded 64 64 (cab.set 12 0x0A))).map (·.bus) =
    some (.word 0x0000000A#32) := by decide +kernel
/-- Vector M4. -/
theorem test_csr_byte_read_refused : (onEvent (.read .csr .w8 0x014) (sized 8 8)).map (·.bus) = some .busError := by
  decide +kernel
/-- Vector M7. -/
theorem test_write_past_end_refused : (onEvent (.write .ibuf .w8 8 0#32) (sized 8 8)).map (fun t => (t.bus, t.ibuf)) =
    some (.busError, []) := by decide +kernel
/-- Vector K8. -/
theorem test_command_while_busy_dropped :
    (onEvent (.write .csr .w32 0x010 0#32) ((loaded 8 8 [1]).accept 1#32)).map (fun t => (t.statusWord, t.cmdWord)) =
      some (0x00000009#32, 1#32) := by decide +kernel
/-- Vector K9. -/
theorem test_status_write_one_clears :
    (onEvent (.write .csr .w32 0x014 4#32) { sized 4 4 with err := true, dropped := true, errCode := 6#8 }).map
      (·.statusWord) = some 0x00000608#32 := by decide +kernel
/-- Vector K10's first half. -/
theorem test_enabling_raises_irq : (onEvent (.write .csr .w32 0x00C 1#32) { sized 4 4 with done := true }).map (·.irq) =
    some true := by decide +kernel

/-! ### Shared facts about "ab" -/

/-- The block COMPRESS runs on in the witnesses. -/
def ab (o : Nat) : State := loaded 64 o [0x61, 0x62]

theorem ab_counts : countSymbols [0x61#8, 0x62#8] = encAB.ft := by decide +kernel
theorem ab_tree : buildTree encAB.ft = some treeAB := by decide +kernel
theorem ab_codes : deriveCodes treeAB = encAB.ct := by decide +kernel
theorem ab_entries : tableEntries encAB.ct = [(0x61#8, [false]), (0x62#8, [true])] := by decide +kernel
theorem ab_table : encodeTable encAB.ct = .ok encAB.etab := by
  simp only [encodeTable, ab_entries]
  rfl
theorem ab_compressed : (nextOf (exec .compress (ab 64))).map (fun t => (t.done, t.outLen, t.obuf)) =
    some (true, 24#32, cells cab) := by decide +kernel
theorem ab_compress_next : ∃ t, exec .compress (ab 64) = .next t ∧ t.done = true ∧ t.outLen = 24#32 ∧ t.obuf = cells cab := by
  have h := ab_compressed
  cases hx : exec .compress (ab 64) with
  | next t =>
    rw [hx] at h
    simp only [nextOf, Option.map_some, Option.some.injEq, Prod.mk.injEq] at h
    exact ⟨t, rfl, h⟩
  | fault f => rw [hx] at h; cases h
  | refused r => rw [hx] at h; cases h

theorem full_products : full.ProductInv where
  etree_ft := by decide
  ct_etree := by decide
  etab_ct := by decide
  pbuf_ct := by decide
  dtab_hdr := by decide
  dtree_dtab := by decide
  ft_sum := by decide +kernel
  ft_len := by decide +kernel
  etree_built := fun _ => ab_tree
  ct_derived := fun _ => ab_codes.symm
  etab_encoded := fun _ => ab_table
  pbuf_len := by decide +kernel
  hdr_fits := by decide +kernel
  dtab_decl := by decide +kernel
  dtab_codes := by decide +kernel
  dtree_rebuilt := fun _ => by rfl

/-- Every command ends in a next state from `full`. -/
theorem full_runs (i : Instr) : ∃ t, exec i full = .next t := by
  cases i <;> exact ⟨_, eq_next_landed (by decide +kernel)⟩

/-! ### Witnesses -/

theorem witness_StepRunsTheDecodedCommand :
    (let s : State := { (sized 4 4).accept 0x30#32 with inputs := [.engine] }
     s.seq = .busy ∧ decode s.cmdWord = .ok .clear ∧ s.inputs = .engine :: []) ∧
    (let s := (sized 4 4).accept 0x23#32
     s.seq = .busy ∧ decode s.cmdWord = .ok .unpack ∧ s.inputs = []) ∧
    (({ sized 4 4 with inputs := [.engine] } : State).seq = .idle ∧
      ({ sized 4 4 with inputs := [.engine] } : State).inputs = .engine :: []) ∧
    ((sized 4 4).seq = .idle ∧ (sized 4 4).inputs = []) ∧
    decodeTableWord 32 0x30 = some .clear ∧ decodeTableWord 8 0x30 = some .clear := by
  refine ⟨⟨rfl, rfl, rfl⟩, ⟨rfl, rfl, rfl⟩, ⟨rfl, rfl⟩, ⟨rfl, rfl⟩, rfl, rfl⟩

theorem witness_CommandWriteIsAcceptedOrDropped :
    (let s : State := { sized 4 4 with inputs := [.write .csr .w32 0x010 2#32] }
     s.inReset = false ∧ s.inputs = .write .csr .w32 0x010 2#32 :: [] ∧ s.seq = .idle) ∧
    (let s : State := { (sized 4 4).accept 1#32 with inputs := [.write .csr .w32 0x010 0#32] }
     s.inReset = false ∧ s.inputs = .write .csr .w32 0x010 0#32 :: [] ∧ s.seq = .busy) := by decide

/-- The smallest word with a reserved bit set, and the unassigned opcodes beside assigned ones. -/
theorem witness_IllegalWordEndsWithIllegalCommand :
    (∀ w : Word, let s : State := { sized 4 4 with inputs := [.write .csr .w32 0x010 w, .engine] }
      s.inReset = false ∧ s.seq = .idle ∧ s.inputs = .write .csr .w32 0x010 w :: .engine :: []) ∧
    256 ≤ (0x100#32).toNat ∧ ∀ w ∈ [0x03#32, 0x16#32, 0x31#32, 0xFF#32], w.toNat ∉ hcmdOpcodes :=
  ⟨fun _ => ⟨rfl, rfl, rfl⟩, by simp, by simp [hcmdOpcodes]⟩

theorem witness_EveryCommandFinishesOrRaises :
    (∃ t, exec .nop (sized 4 4) = .next t ∧ t.done = true) ∧
    ∃ t, exec .pack (sized 4 4) = .next t ∧ t.err = true := ⟨⟨_, rfl, rfl⟩, ⟨_, rfl, rfl⟩⟩

theorem witness_NoCommandRunsForEver :
    let s : State := { sized 4 4 with inputs := [.write .csr .w32 0x010 0#32] }
    ∃ t, Sys2Proof.core.run (s.inputs.length + 1) s = .next t := ⟨_, rfl⟩

theorem witness_NoCommandChangesTheHostsState (i : Instr) : ∃ t, exec i full = .next t := full_runs i

theorem witness_CommandsWriteOnlyTheirOwnProducts (i : Instr) :
    (∃ t, exec i full = .next t) ∧ full.valid.ft = true ∧ full.valid.etree = true ∧ full.valid.hdr = true :=
  ⟨full_runs i, rfl, rfl, rfl⟩

theorem witness_NonStoringCommandsLeaveObuf :
    ∀ i ∈ [Instr.nop, .clear, .freq, .buildTree, .deriveCodes, .encodeTable, .pack, .readContainer, .decodeTable,
      .rebuildTree], ∃ t, exec i full = .next t := fun i _ => full_runs i

theorem witness_StoringCommandsLeaveTheRestOfObuf :
    (∃ t, exec .writeContainer (encoded 24) = .next t ∧ t.done = true ∧ 16 + t.enc.etab.length + t.enc.pbuf.length = 24) ∧
    (∃ t, exec .writeContainer (encoded 23) = .next t ∧ t.done = false) ∧
    (∃ t, exec .unpack full = .next t ∧ (decodedBytes t).length = 2) ∧
    (∃ t, exec .unpack (sized 4 4) = .next t ∧ t.done = false ∧ t.errCode ≠ 6#8) ∧
    (encoded 24).done = false ∧ (encoded 23).done = false ∧ full.done = false ∧ (sized 4 4).done = false :=
  ⟨⟨_, eq_next_landed (by decide +kernel), by decide +kernel, by decide +kernel⟩,
    ⟨_, eq_next_landed (by decide +kernel), by decide +kernel⟩,
    ⟨_, eq_next_landed (by decide +kernel), by decide +kernel⟩,
    ⟨_, eq_next_landed (by decide +kernel), by decide +kernel, by decide +kernel⟩, rfl, rfl, rfl, rfl⟩

theorem witness_NopAndClearFinish : ({ sized 4 4 with irqEn := true } : State).irqEn = true ∧ 0x028 ≤ 0x028 := by decide

theorem witness_MissingFlagRaisesSequenceError :
    (needs .unpack = [.hdr] ++ .dtree :: [] ∧
      (∀ p ∈ [ValidBit.hdr], ({ Valid.reset with hdr := true } : Valid).get p = true) ∧
      ({ Valid.reset with hdr := true } : Valid).get .dtree = false) ∧
    (needs .buildTree = [] ++ .ft :: [] ∧ (∀ p ∈ ([] : List ValidBit), Valid.reset.get p = true) ∧
      Valid.reset.get .ft = false) := by decide

/-- IN_LEN at both ends of its range, and one past it. -/
theorem witness_FreqCountsTheInput :
    (let s := loaded 2 4 [0x61, 0x62]
     1 ≤ s.inLen.toNat ∧ s.inLen.toNat ≤ s.ibufSize ∧ s.ibuf.readBytes 0 s.inLen.toNat = some [0x61#8, 0x62#8]) ∧
    (let s := loaded 2 4 [0x61]
     1 ≤ s.inLen.toNat ∧ s.inLen.toNat ≤ s.ibufSize ∧ s.ibuf.readBytes 0 s.inLen.toNat = some [0x61#8]) ∧
    (loaded 2 4 [0x61, 0x62, 0x63]).ibufSize < (loaded 2 4 [0x61, 0x62, 0x63]).inLen.toNat ∧
    (loaded 2 4 []).inLen.toNat = 0 := by decide +kernel

theorem witness_FreqCountsSumToTheLength :
    (∃ t, exec .freq (ab 4) = .next t ∧ t.valid.ft = true) ∧
    ∃ t, exec .buildTree full = .next t ∧ Instr.buildTree ≠ .freq ∧ Instr.buildTree ≠ .compress ∧ Instr.buildTree ≠ .clear :=
  ⟨⟨_, eq_next_landed (by decide +kernel), by decide +kernel⟩,
    (full_runs .buildTree).imp fun _ h => ⟨h, by decide, by decide, by decide⟩⟩

theorem witness_BuildTreeFinishes :
    (full.valid.ft = true ∧ freqAt full.enc.ft 0x61#8 ≠ 0#32) ∧
    freqAt (counts [(0xFF, 3)]) 0xFF#8 ≠ 0#32 ∧
      ∀ c : Symbol, c ≠ 0xFF#8 → freqAt (counts [(0xFF, 3)]) c = 0#32 := by
  refine ⟨by decide +kernel, by decide +kernel, fun c hc => ?_⟩
  have h : ∀ k : Fin 256, k ≠ 255 → freqAt (counts [(0xFF, 3)]) (BitVec.ofFin k) = 0#32 := by decide +kernel
  exact h c.toFin fun h' => hc (BitVec.eq_of_toFin_eq h')

theorem ab_present : countPresent encAB.ft = 2 := by decide +kernel
theorem ab_sum : freqSum encAB.ft = 2 := by decide +kernel

/-- A node to put in, and a collection in the middle of the loop: keys up to 256, total 20. -/
theorem witness_MergesTakeTheTwoLowest :
    (let q : List QNode := [⟨1#32, 0x61, .leaf 0x61#8 1#32⟩, ⟨9#32, 0x62, .leaf 0x62#8 9#32⟩]
     q.Pairwise queueOrder ∧ ∀ y ∈ q, y.key ≠ (⟨9#32, 256, treeAB⟩ : QNode).key) ∧
    (20 < 2 ^ 32 ∧ MergeInv 20 1 [⟨2#32, 0x62, .leaf 0x62#8 2#32⟩, ⟨9#32, 0x61, .leaf 0x61#8 9#32⟩, ⟨9#32, 256, treeAB⟩]) ∧
    2 ≤ countPresent encAB.ft ∧ full.valid.ft = true ∧ 2 ≤ countPresent full.enc.ft ∧ freqSum full.enc.ft < 2 ^ 32 := by
  have h : countPresent full.enc.ft = 2 := ab_present
  have hs : freqSum full.enc.ft = 2 := ab_sum
  refine ⟨⟨by simp [queueOrder], by decide⟩, ⟨by decide, by simp [queueOrder], by decide, by decide⟩, by rw [ab_present], rfl,
    by rw [h], by rw [hs]; decide⟩

theorem witness_TreeWeightsAreTheCounts :
    (freqSum encAB.ft < 2 ^ 32 ∧ buildTree encAB.ft = some treeAB) ∧ full.ProductInv ∧ full.valid.etree = true :=
  ⟨⟨by rw [ab_sum]; decide, ab_tree⟩, full_products, rfl⟩

theorem x_tree : buildTree (counts [(0x78, 1)]) = some (.single 1#32 (.leaf 0x78#8 1#32)) := by decide +kernel

theorem witness_TreeDepthIsBounded :
    (buildTree encAB.ft = some treeAB ∧ 2 ≤ countPresent encAB.ft ∧ treeAB.leafAt [true] = some 0x62#8) ∧
    (buildTree (counts [(0x78, 1)]) = some (.single 1#32 (.leaf 0x78#8 1#32)) ∧ countPresent (counts [(0x78, 1)]) = 1 ∧
      (ETree.single 1#32 (.leaf 0x78#8 1#32)).leafAt [false] = some 0x78#8) :=
  ⟨⟨ab_tree, by rw [ab_present], rfl⟩, x_tree, by decide +kernel, rfl⟩

theorem treeAB_paths {c : Code} {b : Symbol} (h : treeAB.leafAt c = some b) :
    (b = 0x61#8 ∧ c = [false]) ∨ (b = 0x62#8 ∧ c = [true]) := by
  match c with
  | [] => cases h
  | [false] => cases h; exact .inl ⟨rfl, rfl⟩
  | [true] => cases h; exact .inr ⟨rfl, rfl⟩
  | false :: _ :: _ => cases h
  | true :: _ :: _ => cases h

theorem witness_DeriveCodesRecordsThePaths : full.valid.etree = true ∧
    ∀ (c d : Code) (b : Symbol), full.enc.etree.leafAt c = some b → full.enc.etree.leafAt d = some b → c = d := by
  refine ⟨rfl, fun c d b hc hd => ?_⟩
  rcases treeAB_paths hc with ⟨h1, h2⟩ | ⟨h1, h2⟩ <;> rcases treeAB_paths hd with ⟨h3, h4⟩ | ⟨h3, h4⟩ <;> simp_all

theorem witness_DerivedCodesAreAPrefixCode :
    full.ProductInv ∧ ∃ t, exec .deriveCodes full = .next t ∧ t.valid.ct = true :=
  ⟨full_products, _, rfl, rfl⟩

theorem witness_EncodeTableSerializesTheCodes : full.valid.ct = true ∧ tableEntries full.enc.ct ≠ [] ∧
    ∀ e ∈ tableEntries full.enc.ct, 1 ≤ e.2.length ∧ e.2.length ≤ 255 := by
  have h : tableEntries full.enc.ct = [(0x61#8, [false]), (0x62#8, [true])] := ab_entries
  rw [h]
  decide

theorem witness_EncodeTableNeverRaisesAfterDeriveCodes : full.ProductInv ∧ full.valid.ct = true := ⟨full_products, rfl⟩

theorem witness_BitsArePackedMostSignificantFirst :
    (7 < 8 ∧ (packMSB [true])[0]? = some 0x80#8) ∧ (16 ≤ 8 * [0xA5#8, 0x01#8].length ∧ 15 < 16) := by decide +kernel

/-- The payload fits exactly. -/
theorem witness_PackEncodesTheInput :
    let s := encoded 1
    s.valid.ct = true ∧ s.enc.ftLen.toNat ≤ s.ibufSize ∧
    s.ibuf.readBytes 0 s.enc.ftLen.toNat = some [0x61#8, 0x62#8] ∧
    (∀ b ∈ [0x61#8, 0x62#8], (codeAt s.enc.ct b).isSome = true) ∧
    ((codeBits s.enc.ct [0x61#8, 0x62#8]).length + 7) / 8 = s.obufSize := by decide +kernel

/-- A block with no room in OBUF, an input of eight `a`s whose code is `0`, and a ninth byte. -/
def packing (o ftLen : Nat) (ninth : Byte) : State :=
  { sized 64 o with
    ibuf := cells (List.replicate 8 0x61 ++ [ninth.toNat])
    enc := { encAB with ftLen := BitVec.ofNat 32 ftLen }, valid := { Valid.reset with ct := true } }

theorem witness_PackRaisesNoCodeOrOutputOverflow :
    (let s := packing 1 9 0x63#8
     let done := List.replicate 8 0x61#8
     s.valid.ct = true ∧ s.enc.ftLen.toNat ≤ s.ibufSize ∧ done.length ≤ s.enc.ftLen.toNat ∧
     s.ibuf.readBytes 0 done.length = some done ∧ (∀ b ∈ done, (codeAt s.enc.ct b).isSome = true) ∧
     (codeBits s.enc.ct done).length / 8 ≤ s.obufSize ∧ done.length < s.enc.ftLen.toNat ∧
     s.ibuf.read done.length = some 0x63#8 ∧ codeAt s.enc.ct 0x63#8 = none) ∧
    (let s := packing 0 9 0x62#8
     let done := List.replicate 7 0x61#8
     s.valid.ct = true ∧ s.enc.ftLen.toNat ≤ s.ibufSize ∧ done.length ≤ s.enc.ftLen.toNat ∧
     s.ibuf.readBytes 0 done.length = some done ∧ (∀ b ∈ done, (codeAt s.enc.ct b).isSome = true) ∧
     (codeBits s.enc.ct done).length / 8 ≤ s.obufSize ∧ done.length < s.enc.ftLen.toNat ∧
     s.ibuf.read done.length = some 0x61#8 ∧ codeAt s.enc.ct 0x61#8 = some [false] ∧
     s.obufSize < (codeBits s.enc.ct (done ++ [0x61#8])).length / 8) ∧
    (let s := packing 1 9 0x62#8
     let done := List.replicate 8 0x61#8 ++ [0x62#8]
     s.valid.ct = true ∧ s.enc.ftLen.toNat ≤ s.ibufSize ∧ done.length ≤ s.enc.ftLen.toNat ∧
     s.ibuf.readBytes 0 done.length = some done ∧ (∀ b ∈ done, (codeAt s.enc.ct b).isSome = true) ∧
     (codeBits s.enc.ct done).length / 8 ≤ s.obufSize ∧ done.length = s.enc.ftLen.toNat ∧
     s.obufSize < ((codeBits s.enc.ct done).length + 7) / 8) := by decide +kernel

theorem witness_WriteContainerStoresTheContainer :
    (encoded 24).valid.etab = true ∧ (encoded 24).valid.pbuf = true ∧
    16 + (encoded 24).enc.etab.length + (encoded 24).enc.pbuf.length = (encoded 24).obufSize ∧
    (encoded 23).obufSize < 16 + (encoded 23).enc.etab.length + (encoded 23).enc.pbuf.length := by decide +kernel

/-- The container fits exactly. -/
theorem witness_CompressWritesTheContainer :
    (let s := ab 24
     1 ≤ s.inLen.toNat ∧ s.inLen.toNat ≤ s.ibufSize ∧ s.ibuf.readBytes 0 s.inLen.toNat = some [0x61#8, 0x62#8]) ∧
    buildTree (countSymbols [0x61#8, 0x62#8]) = some treeAB ∧ encodeTable (deriveCodes treeAB) = .ok encAB.etab ∧
    16 + encAB.etab.length + (packMSB (codeBits (deriveCodes treeAB) [0x61#8, 0x62#8])).length = (ab 24).obufSize := by
  refine ⟨by decide +kernel, by rw [ab_counts, ab_tree], by rw [ab_codes, ab_table], ?_⟩
  rw [ab_codes]
  decide +kernel

theorem witness_CompressRaisesTheStepsErrors :
    (loaded 2 4 [0x61, 0x62, 0x63]).ibufSize < (loaded 2 4 [0x61, 0x62, 0x63]).inLen.toNat ∧
    (loaded 2 4 []).inLen.toNat = 0 ∧
    (let s := loaded 64 0 [0x61, 0x62]
     1 ≤ s.inLen.toNat ∧ s.inLen.toNat ≤ s.ibufSize ∧ s.ibuf.readBytes 0 s.inLen.toNat = some [0x61#8, 0x62#8] ∧
     s.obufSize < (packMSB (codeBits encAB.ct [0x61#8, 0x62#8])).length) ∧
    (let s := ab 23
     1 ≤ s.inLen.toNat ∧ s.inLen.toNat ≤ s.ibufSize ∧ s.ibuf.readBytes 0 s.inLen.toNat = some [0x61#8, 0x62#8] ∧
     (packMSB (codeBits encAB.ct [0x61#8, 0x62#8])).length ≤ s.obufSize ∧
     s.obufSize < 16 + encAB.etab.length + (packMSB (codeBits encAB.ct [0x61#8, 0x62#8])).length) := by decide +kernel

theorem witness_CompressSizeAccounting :
    (ab 64).done = false ∧ ∃ t, exec .compress (ab 64) = .next t ∧ t.done = true :=
  ⟨rfl, ab_compress_next.imp fun _ h => ⟨h.1, h.2.1⟩⟩

/-- Two blocks that differ in IRQ_EN and in the IBUF bytes past the input; a second pair raises. -/
theorem witness_CompressDependsOnTheInputAlone :
    (let s1 := ab 64
     let s2 : State := { ab 64 with irqEn := true }
     s1.done = false ∧ s2.done = false ∧ s1.params = s2.params ∧ s1.inLen = s2.inLen ∧
     (∀ a, a < s1.inLen.toNat → s1.ibuf.read a = s2.ibuf.read a) ∧
     ∃ t1 t2, exec .compress s1 = .next t1 ∧ exec .compress s2 = .next t2 ∧ t1.done = true) ∧
    (let s1 := sized 4 4
     let s2 : State := { sized 4 4 with irqEn := true }
     s1.done = false ∧ s2.done = false ∧ s1.params = s2.params ∧ s1.inLen = s2.inLen ∧
     (∀ a, a < s1.inLen.toNat → s1.ibuf.read a = s2.ibuf.read a) ∧
     ∃ t1 t2, exec .compress s1 = .next t1 ∧ exec .compress s2 = .next t2 ∧ t1.done = false) := by
  refine ⟨⟨rfl, rfl, rfl, rfl, fun _ _ => rfl, ?_⟩, rfl, rfl, rfl, rfl, fun _ _ => rfl, _, _, rfl, rfl, rfl⟩
  obtain ⟨t, h, hd, -⟩ := ab_compress_next
  exact ⟨t, _, h, eq_next_landed (by decide +kernel), hd⟩

/-- The declared lengths end exactly at IN_LEN. -/
theorem witness_ReadContainerParsesTheHeader :
    let s := loaded 24 4 cab
    s.inLen.toNat ≤ s.ibufSize ∧ s.ibuf.readBytes 0 16 = some (headerLayout 2#32 1#32 7#32) ∧
    16 + (7#32).toNat + (1#32).toNat = s.inLen.toNat := by decide +kernel

theorem witness_ReadContainerRaisesInOrder :
    (loaded 23 4 cab).ibufSize < (loaded 23 4 cab).inLen.toNat ∧
    (∀ k : Nat, k < 4 →
      let s := loaded 64 4 (cab.take k)
      s.inLen.toNat ≤ s.ibufSize ∧ s.ibuf.readBytes 0 k = some ([0x43#8, 0x43#8, 0x48#8, 0x46#8].take k) ∧
      s.inLen.toNat = k) ∧
    (∀ k : Nat, k < 4 →
      let s := loaded 64 4 (cab.take k ++ [0])
      s.inLen.toNat ≤ s.ibufSize ∧ s.ibuf.readBytes 0 k = some ([0x43#8, 0x43#8, 0x48#8, 0x46#8].take k) ∧
      k < s.inLen.toNat ∧ s.ibuf.read k = some 0#8 ∧ [0x43#8, 0x43#8, 0x48#8, 0x46#8][k]? ≠ some 0#8) ∧
    (∀ n ∈ [4, 15],
      let s := loaded 64 4 (cab.take n)
      s.inLen.toNat ≤ s.ibufSize ∧ 4 ≤ s.inLen.toNat ∧ s.inLen.toNat < 16 ∧
      s.ibuf.readBytes 0 4 = some [0x43#8, 0x43#8, 0x48#8, 0x46#8]) ∧
    (∀ n ∈ [16, 22],
      let s := loaded 64 4 (cab.take n)
      s.inLen.toNat ≤ s.ibufSize ∧ 16 ≤ s.inLen.toNat ∧ s.ibuf.readBytes 0 16 = some (headerLayout 2#32 1#32 7#32) ∧
      s.inLen.toNat < 16 + (7#32).toNat) ∧
    (let s := loaded 64 4 (cab.take 23)
     s.inLen.toNat ≤ s.ibufSize ∧ 16 ≤ s.inLen.toNat ∧ s.ibuf.readBytes 0 16 = some (headerLayout 2#32 1#32 7#32) ∧
     16 + (7#32).toNat ≤ s.inLen.toNat ∧ s.inLen.toNat < 16 + (7#32).toNat + (1#32).toNat) := by decide +kernel

/-- CAB's table as raw entries. -/
def rawAB : List RawEntry := [⟨0x61#8, 1#8, [0x00#8]⟩, ⟨0x62#8, 1#8, [0x80#8]⟩]

/-- A block whose IBUF holds CAB's header, and then a table declared as `tlen` bytes. -/
def tabled (table : List Nat) (tlen : Nat) : State :=
  { loaded 64 64 (cab.take 16 ++ table) with
    dec := { decAB with hdrTlen := BitVec.ofNat 32 tlen }, valid := { Valid.reset with hdr := true } }

theorem witness_DecodeTableReadsTheEntries :
    (let s := tabled [2, 0x61, 1, 0, 0x62, 1, 0x80] 7
     s.valid.hdr = true ∧ TableStartsWith s 2#8 rawAB ∧ rawAB.length = declared 2#8) ∧
    (let s := tabled [0, 0x61, 1, 0, 0x62, 1, 0x80] 7
     s.valid.hdr = true ∧ TableStartsWith s 0#8 rawAB ∧ rawAB.length < declared 0#8 ∧
     1 + (rawAB.flatMap RawEntry.bytes).length = s.dec.hdrTlen.toNat) := by
  unfold TableStartsWith RawEntry.Complete
  decide +kernel

theorem witness_DecodeTableRaisesAtTheBrokenEntry :
    ((tabled [] 0).valid.hdr = true ∧ (tabled [] 0).dec.hdrTlen.toNat = 0) ∧
    (let s := tabled [3, 0x61, 1, 0, 0x62, 1, 0x80, 0x63] 8
     s.valid.hdr = true ∧ TableStartsWith s 3#8 rawAB ∧ rawAB.length < declared 3#8 ∧ 16 + s.dec.hdrTlen.toNat ≤ s.ibufSize ∧
     s.ibuf.read (17 + (rawAB.flatMap RawEntry.bytes).length) = some 0x63#8 ∧
     17 + (rawAB.flatMap RawEntry.bytes).length + 1 = 16 + s.dec.hdrTlen.toNat) ∧
    (let s := tabled [3, 0x61, 1, 0, 0x62, 1, 0x80, 0x63, 0] 9
     s.valid.hdr = true ∧ TableStartsWith s 3#8 rawAB ∧ rawAB.length < declared 3#8 ∧ 16 + s.dec.hdrTlen.toNat ≤ s.ibufSize ∧
     s.ibuf.read (17 + (rawAB.flatMap RawEntry.bytes).length) = some 0x63#8 ∧
     17 + (rawAB.flatMap RawEntry.bytes).length + 1 < 16 + s.dec.hdrTlen.toNat ∧
     s.ibuf.read (17 + (rawAB.flatMap RawEntry.bytes).length + 1) = some 0#8) ∧
    (let s := tabled [3, 0x61, 1, 0, 0x62, 1, 0x80, 0x63, 9, 0] 10
     s.valid.hdr = true ∧ TableStartsWith s 3#8 rawAB ∧ rawAB.length < declared 3#8 ∧ 16 + s.dec.hdrTlen.toNat ≤ s.ibufSize ∧
     s.ibuf.read (17 + (rawAB.flatMap RawEntry.bytes).length) = some 0x63#8 ∧
     17 + (rawAB.flatMap RawEntry.bytes).length + 1 < 16 + s.dec.hdrTlen.toNat ∧
     s.ibuf.read (17 + (rawAB.flatMap RawEntry.bytes).length + 1) = some 9#8 ∧
     16 + s.dec.hdrTlen.toNat < 17 + (rawAB.flatMap RawEntry.bytes).length + 2 + ((9#8).toNat + 7) / 8) := by
  unfold TableStartsWith RawEntry.Complete
  decide +kernel

theorem witness_EncodedTableDecodesToTheCodes :
    let s := tabled [2, 0x61, 1, 0, 0x62, 1, 0x80] 7
    buildTree encAB.ft = some treeAB ∧ encodeTable (deriveCodes treeAB) = .ok encAB.etab ∧ s.valid.hdr = true ∧
    s.dec.hdrTlen.toNat = encAB.etab.length ∧ 16 + encAB.etab.length ≤ s.ibufSize ∧
    s.ibuf.readBytes 16 encAB.etab.length = some encAB.etab :=
  ⟨ab_tree, by rw [ab_codes, ab_table], rfl, by decide +kernel, by decide +kernel, by decide +kernel⟩

theorem witness_RebuildTreeGrowsTheCodes : full.valid.dtab = true ∧ GoodEntries full.dec.dtab := by
  unfold GoodEntries PrefixFree
  decide +kernel

theorem witness_RebuildTreeRaisesTableConflict :
    GoodEntries [(0x61#8, [false, true])] ∧
    ∀ e ∈ [((0x61#8, [true]) : Symbol × Code), (0x62#8, [false, true]), (0x62#8, [false, true, true]), (0x62#8, [false])],
      (let s : State := { full with dec := { decAB with dtab := [(0x61#8, [false, true])] ++ e :: [] } }
       s.valid.dtab = true ∧ s.dec.dtab = [(0x61#8, [false, true])] ++ e :: [] ∧ e.2 ≠ []) ∧
      (e.1 ∈ [(0x61#8, [false, true])].map Prod.fst ∨
       (e.1 ∉ [(0x61#8, [false, true])].map Prod.fst ∧ e.2 ∈ [((0x61#8, [false, true]) : Symbol × Code)].map Prod.snd) ∨
       (e.1 ∉ [(0x61#8, [false, true])].map Prod.fst ∧
         ∃ f ∈ [((0x61#8, [false, true]) : Symbol × Code)], f.2 <+: e.2 ∧ f.2 ≠ e.2) ∨
       (e.1 ∉ [(0x61#8, [false, true])].map Prod.fst ∧
         ∃ f ∈ [((0x61#8, [false, true]) : Symbol × Code)], e.2 <+: f.2 ∧ e.2 ≠ f.2)) := by
  unfold GoodEntries PrefixFree
  decide +kernel

/-- `full`'s payload `40`: the paths of a and b, then six bits of padding. -/
theorem witness_UnpackWalksThePaths :
    let steps : List (Symbol × Code) := [(0x61#8, [false]), (0x62#8, [true])]
    full.valid.hdr = true ∧ full.valid.dtree = true ∧ full.dec.hdrOrig.toNat ≤ full.obufSize ∧ full.dec.dtree.IsNode ∧
    (∀ e ∈ steps, full.dec.dtree.at e.2 = .leaf e.1) ∧ steps.length = full.dec.hdrOrig.toNat ∧
    PayloadStartsWith full [0x40#8] ∧
    [0x40#8].flatMap bitsOfByte = steps.flatMap Prod.snd ++ List.replicate 6 false ∧ (List.replicate 6 false).length < 8 := by
  refine ⟨rfl, rfl, by decide +kernel, trivial, by decide +kernel, rfl, ?_, by decide +kernel, by decide⟩
  unfold PayloadStartsWith
  decide +kernel

/-- D23's last step (a missing child after the path of `a`), and CAB's payload as two bytes too short. -/
theorem witness_UnpackRaisesWithTheDecodedBytes :
    (let s : State := { full with params := ⟨64#32, 1#32⟩ }
     s.valid.hdr = true ∧ s.valid.dtree = true ∧ s.obufSize < s.dec.hdrOrig.toNat) ∧
    (let s : State := { full with
       ibuf := cells d23, dec := { decAB with hdrTlen := 4#32, dtree := .node (.leaf 0x61#8) .absent } }
     let steps : List (Symbol × Code) := [(0x61#8, [false])]
     s.valid.hdr = true ∧ s.valid.dtree = true ∧ s.dec.hdrOrig.toNat ≤ s.obufSize ∧
     (∀ e ∈ steps, s.dec.dtree.at e.2 = .leaf e.1) ∧ steps.length < s.dec.hdrOrig.toNat ∧ s.dec.dtree.IsNode ∧
     (s.dec.dtree.at []).IsNode ∧ PayloadStartsWith s [0x40#8] ∧ (s.dec.dtree.at []).child true = .absent ∧
     (List.replicate 6 false).length < 8 ∧
     [0x40#8].flatMap bitsOfByte = steps.flatMap Prod.snd ++ [] ++ true :: List.replicate 6 false) ∧
    (let s : State := { full with dec := { decAB with hdrOrig := 9#32 } }
     let steps : List (Symbol × Code) := (bitsOfByte 0x40#8).map fun b => (if b then 0x62#8 else 0x61#8, [b])
     s.valid.hdr = true ∧ s.valid.dtree = true ∧ s.dec.hdrOrig.toNat ≤ s.obufSize ∧
     (∀ e ∈ steps, s.dec.dtree.at e.2 = .leaf e.1) ∧ steps.length < s.dec.hdrOrig.toNat ∧ s.dec.dtree.IsNode ∧
     (s.dec.dtree.at []).IsNode ∧ PayloadStartsWith s [0x40#8] ∧ [0x40#8].length = s.dec.hdrPlen.toNat ∧
     [0x40#8].flatMap bitsOfByte = steps.flatMap Prod.snd ++ []) := by
  unfold PayloadStartsWith
  refine ⟨by decide +kernel, ⟨rfl, rfl, by decide +kernel, by decide +kernel, by decide +kernel, trivial, trivial,
    by decide +kernel, rfl, by decide, by decide +kernel⟩, rfl, rfl, by decide +kernel, by decide +kernel,
    by decide +kernel, trivial, trivial, by decide +kernel, by decide +kernel, by decide +kernel⟩

theorem witness_FinishedOutputHasTheOriginalLength :
    ∀ i ∈ [Instr.unpack, .decompress], full.done = false ∧ ∃ t, exec i full = .next t ∧ t.done = true := by
  intro i hi
  simp only [List.mem_cons, List.not_mem_nil, or_false] at hi
  rcases hi with rfl | rfl <;> exact ⟨rfl, _, eq_next_landed (by decide +kernel), by decide +kernel⟩

/-- DECOMPRESS just accepted with the given container in IBUF. -/
def decompressing (o : Nat) (bytes : List Nat) : State := (loaded 64 o bytes).accept 2#32

/-- The steps of DECOMPRESS one after another, as far as the first one that raises: which were reached and whether it finished. -/
def runSteps : List Instr → State → List Bool
  | [], _ => []
  | i :: is, s => if (landed (exec i s)).done then true :: runSteps is (stepOver (landed (exec i s))) else [false]

/-- A container for each clause: a wrong magic, an empty table, the same symbol twice, and CAB whole. -/
theorem witness_DecompressStepsRaise :
    (∀ bytes ∈ [[0x43, 0x43, 0x48, 0x47], d23, cab], (decompressing 64 bytes).seq = .busy ∧ (decompressing 64 bytes).done = false) ∧
    runSteps [.readContainer, .decodeTable, .rebuildTree, .unpack] (decompressing 64 [0x43, 0x43, 0x48, 0x47]) = [false] ∧
    runSteps [.readContainer, .decodeTable, .rebuildTree, .unpack] (decompressing 64 (cab.set 12 0)) = [true, false] ∧
    runSteps [.readContainer, .decodeTable, .rebuildTree, .unpack] (decompressing 64 (cab.set 20 0x61)) =
      [true, true, false] ∧
    runSteps [.readContainer, .decodeTable, .rebuildTree, .unpack] (decompressing 64 d23) = [true, true, true, false] ∧
    runSteps [.readContainer, .decodeTable, .rebuildTree, .unpack] (decompressing 64 cab) = [true, true, true, true] := by
  decide +kernel

theorem witness_DecompressDecodesTheContainer :
    let s := loaded 24 2 cab
    let steps : List (Symbol × Code) := [(0x61#8, [false]), (0x62#8, [true])]
    s.inLen.toNat ≤ s.ibufSize ∧ 16 + (7#32).toNat + (1#32).toNat ≤ s.inLen.toNat ∧ (2#32).toNat ≤ s.obufSize ∧
    s.ibuf.readBytes 0 16 = some (headerLayout 2#32 1#32 7#32) ∧
    TableStartsWith { s with dec := { s.dec with hdrTlen := 7#32 } } 2#8 rawAB ∧ rawAB.length = declared 2#8 ∧
    GoodEntries (rawAB.map RawEntry.entry) ∧
    PayloadStartsWith { s with dec := { s.dec with hdrTlen := 7#32, hdrPlen := 1#32 } } [0x40#8] ∧
    (∀ e ∈ steps, e ∈ rawAB.map RawEntry.entry) ∧ steps.length = (2#32).toNat ∧
    [0x40#8].flatMap bitsOfByte = steps.flatMap Prod.snd ++ List.replicate 6 false ∧ (List.replicate 6 false).length < 8 := by
  unfold TableStartsWith RawEntry.Complete GoodEntries PrefixFree PayloadStartsWith
  decide +kernel

theorem witness_RebuiltTreeIsTheEncodersTree : buildTree encAB.ft = some treeAB := ab_tree

theorem witness_DecompressInvertsCompress :
    (ab 64).done = false ∧ (ab 64).ibuf.readBytes 0 (ab 64).inLen.toNat = some [0x61#8, 0x62#8] ∧
    ∃ t, exec .compress (ab 64) = .next t ∧ t.done = true ∧
      let u := loaded 24 2 cab
      u.inLen = t.outLen ∧ t.outLen.toNat ≤ u.ibufSize ∧ [0x61#8, 0x62#8].length ≤ u.obufSize ∧
      ∀ a, a < t.outLen.toNat → u.ibuf.read a = t.obuf.read a := by
  refine ⟨rfl, by decide +kernel, ?_⟩
  obtain ⟨t, h, hd, ho, hb⟩ := ab_compress_next
  refine ⟨t, h, hd, ?_⟩
  rw [ho, hb]
  exact ⟨by decide +kernel, by decide +kernel, by decide +kernel, fun _ _ => rfl⟩

theorem witness_DecoderIgnoresEncoderProducts :
    ∀ i ∈ [Instr.readContainer, .decodeTable, .rebuildTree, .unpack, .decompress], ∃ t, exec i full = .next t :=
  fun i _ => full_runs i

theorem witness_NoCommandReadsObuf (i : Instr) : ∃ t, exec i full = .next t := full_runs i

/-- One access of each refused kind, at the edge of what is taken. -/
theorem witness_RefusedAccessesChangeNothing :
    let s := sized 8 6
    ∀ a ∈ [(Aperture.csr, Width.w8, 0x014), (.csr, .w16, 0x014), (.csr, .w32, 0x016), (.csr, .w32, 4096), (.ibuf, .w16, 0),
        (.ibuf, .w32, 2), (.ibuf, .w8, 8), (.ibuf, .w32, 8), (.obuf, .w8, 6), (.obuf, .w32, 4)],
      (a.1 = .csr ∧ (a.2.1 ≠ .w32 ∨ a.2.2 % 4 ≠ 0 ∨ 4096 ≤ a.2.2)) ∨
      (a.1 ≠ .csr ∧ (a.2.1 = .w16 ∨ (a.2.1 = .w32 ∧ a.2.2 % 4 ≠ 0) ∨
        (if a.1 = .ibuf then s.ibufSize else s.obufSize) < a.2.2 + (if a.2.1 = .w8 then 1 else 4))) := by decide +kernel

theorem witness_CsrReadsReturnTheMap :
    (let s : State := { full with inputs := [.read .csr .w32 0xFFC] }
     s.inReset = false ∧ s.seq = .idle ∧ 0xFFC % 4 = 0 ∧ 0xFFC < 4096 ∧ s.inputs = .read .csr .w32 0xFFC :: []) ∧
    (full.valid.ft = true ∧ full.valid.etab = true ∧ full.valid.pbuf = true ∧ full.valid.hdr = true ∧
      full.valid.dtab = true) ∧
    (Valid.reset.ft = false ∧ Valid.reset.etab = false ∧ Valid.reset.pbuf = false ∧ Valid.reset.hdr = false ∧
      Valid.reset.dtab = false) ∧
    ∀ off ∈ [0x02C, 0x3FC, 0xC00, 4095], off < 4096 ∧ off ∉ csrOffsets ∧ (off < 0x400 ∨ 0xC00 ≤ off) := by decide +kernel

theorem witness_CsrWritesChangeTheirFieldsOnly :
    ∀ off ∈ [0x00C, 0x014, 0x018, 0x000, 0x01C, 0xFFC],
      let s : State := { sized 4 4 with inputs := [.write .csr .w32 off 0xFFFFFFFF#32] }
      s.inReset = false ∧ s.seq = .idle ∧ off % 4 = 0 ∧ off < 4096 ∧ s.inputs = .write .csr .w32 off 0xFFFFFFFF#32 :: [] := by
  decide

theorem witness_BufferAccessesUseLittleEndianLanes :
    (∀ ap ∈ [Aperture.ibuf, .obuf],
      let s : State := { sized 8 8 with inputs := [.write ap .w32 4 0x04030201#32] }
      s.inReset = false ∧ s.seq = .idle ∧ ap ≠ .csr ∧ s.inputs = .write ap .w32 4 0x04030201#32 :: [] ∧ 4 % 4 = 0 ∧
      4 + 4 ≤ s.ibufSize ∧ 4 + 4 ≤ s.obufSize) ∧
    (∀ ap ∈ [Aperture.ibuf, .obuf],
      let s : State := { sized 8 8 with inputs := [.write ap .w8 7 5#32] }
      s.inputs = .write ap .w8 7 5#32 :: [] ∧ 7 < s.ibufSize ∧ 7 < s.obufSize) ∧
    (let s : State := { sized 8 8 with ibuf := [(7, 9#8)], inputs := [.read .ibuf .w8 7] }
     s.inputs = .read .ibuf .w8 7 :: [] ∧ 7 < s.ibufSize ∧ s.ibuf.read 7 = some 9#8) ∧
    (let s : State := { sized 4 4 with ibuf := cells [1, 2, 3, 4], inputs := [.read .ibuf .w32 0] }
     s.inputs = .read .ibuf .w32 0 :: [] ∧ 0 % 4 = 0 ∧ 0 + 4 ≤ s.ibufSize ∧
     ∀ k, k < 4 → s.ibuf.read (0 + k) = some ((0x04030201#32).extractLsb' (8 * k) 8)) := by decide +kernel

/-- IBUF with CAB's first bytes as far as `n`, everything after it never written. -/
def cut (n : Nat) : State := { loaded 64 64 (cab.take n) with inLen := 24#32 }

/-- The host's reads. -/
theorem witness_UnwrittenBytesFault :
    (let s : State := { sized 8 8 with inputs := [.read .ibuf .w8 7] }
     s.inReset = false ∧ 7 < s.ibufSize ∧ s.ibuf.read 7 = none ∧ s.inputs = .read .ibuf .w8 7 :: []) ∧
    (let s : State := { sized 8 8 with ibuf := [(4, 1#8), (5, 1#8), (6, 1#8)], inputs := [.read .ibuf .w32 4] }
     s.inReset = false ∧ 4 % 4 = 0 ∧ 4 + 4 ≤ s.ibufSize ∧ (∀ j, j < 3 → (s.ibuf.read (4 + j)).isSome = true) ∧
     s.ibuf.read (4 + 3) = none ∧ s.inputs = .read .ibuf .w32 4 :: []) ∧
    (let s : State := { sized 8 8 with inputs := [.read .obuf .w8 7] }
     s.inReset = false ∧ s.seq = .idle ∧ 7 < s.obufSize ∧ s.obuf.read 7 = none ∧ s.obufLost = none ∧
     s.inputs = .read .obuf .w8 7 :: []) ∧
    (let s : State := { sized 8 8 with inputs := [.read .obuf .w32 4] }
     s.inReset = false ∧ s.seq = .idle ∧ 4 % 4 = 0 ∧ 4 + 4 ≤ s.obufSize ∧ s.obuf.read (4 + 0) = none ∧ s.obufLost = none ∧
     s.inputs = .read .obuf .w32 4 :: []) := by
  decide +kernel

/-- FREQ and COMPRESS, PACK, and the header at both ends of each part. -/
theorem witness_UnwrittenBytesFault_input :
    (let s : State := { loaded 8 8 [0x61] with inLen := 2#32 }
     s.inLen.toNat ≤ s.ibufSize ∧ 1 < s.inLen.toNat ∧ s.ibuf.readBytes 0 1 = some [0x61#8] ∧ s.ibuf.read 1 = none) ∧
    (let s : State := { encoded 64 with ibuf := cells [0x61] }
     s.valid.ct = true ∧ s.enc.ftLen.toNat ≤ s.ibufSize ∧ [0x61#8].length < s.enc.ftLen.toNat ∧
     s.ibuf.readBytes 0 [0x61#8].length = some [0x61#8] ∧ (∀ b ∈ [0x61#8], (codeAt s.enc.ct b).isSome = true) ∧
     (codeBits s.enc.ct [0x61#8]).length / 8 ≤ s.obufSize ∧ s.ibuf.read [0x61#8].length = none) ∧
    (∀ k ∈ [0, 3, 4, 15], (cut k).inLen.toNat ≤ (cut k).ibufSize ∧ k < 16 ∧ k < (cut k).inLen.toNat ∧
      16 ≤ (cut k).inLen.toNat ∧ (cut k).ibuf.readBytes 0 k = some ((cab.take k).map (BitVec.ofNat 8)) ∧
      ((cab.take k).map (BitVec.ofNat 8)).take 4 = [0x43#8, 0x43#8, 0x48#8, 0x46#8].take k ∧ (cut k).ibuf.read k = none) := by
  decide +kernel

/-- DECODE_TABLE: the count byte, and the bytes of a next entry. -/
theorem witness_UnwrittenBytesFault_table :
    (let s := tabled [] 7
     s.valid.hdr = true ∧ 0 < s.dec.hdrTlen.toNat ∧ 16 < s.ibufSize ∧ s.ibuf.read 16 = none) ∧
    (let s := tabled [3, 0x61, 1, 0, 0x62, 1, 0x80] 10
     s.valid.hdr = true ∧ TableStartsWith s 3#8 rawAB ∧ rawAB.length < declared 3#8 ∧ 16 + s.dec.hdrTlen.toNat ≤ s.ibufSize ∧
     17 + (rawAB.flatMap RawEntry.bytes).length < 16 + s.dec.hdrTlen.toNat ∧
     s.ibuf.read (17 + (rawAB.flatMap RawEntry.bytes).length) = none) ∧
    (let s := tabled [3, 0x61, 1, 0, 0x62, 1, 0x80, 0x63] 10
     TableStartsWith s 3#8 rawAB ∧ (s.ibuf.read (17 + (rawAB.flatMap RawEntry.bytes).length)).isSome = true ∧
     17 + (rawAB.flatMap RawEntry.bytes).length + 1 < 16 + s.dec.hdrTlen.toNat ∧
     s.ibuf.read (17 + (rawAB.flatMap RawEntry.bytes).length + 1) = none) ∧
    (let s := tabled [3, 0x61, 1, 0, 0x62, 1, 0x80, 0x63, 9, 0] 11
     TableStartsWith s 3#8 rawAB ∧ (s.ibuf.read (17 + (rawAB.flatMap RawEntry.bytes).length)).isSome = true ∧
     s.ibuf.read (17 + (rawAB.flatMap RawEntry.bytes).length + 1) = some 9#8 ∧
     17 + (rawAB.flatMap RawEntry.bytes).length + 2 + ((9#8).toNat + 7) / 8 = 16 + s.dec.hdrTlen.toNat ∧
     1 < ((9#8).toNat + 7) / 8 ∧ s.ibuf.readBytes (17 + (rawAB.flatMap RawEntry.bytes).length + 2) 1 = some [0#8] ∧
     s.ibuf.read (17 + (rawAB.flatMap RawEntry.bytes).length + 2 + 1) = none) := by
  unfold TableStartsWith RawEntry.Complete
  decide +kernel

/-- UNPACK, after a payload byte whose bits are eight whole paths. -/
theorem witness_UnwrittenBytesFault_payload :
    (let s : State := { full with dec := { decAB with hdrOrig := 9#32, hdrPlen := 2#32 } }
     let steps : List (Symbol × Code) := (bitsOfByte 0x40#8).map fun b => (if b then 0x62#8 else 0x61#8, [b])
     s.valid.hdr = true ∧ s.valid.dtree = true ∧ s.dec.hdrOrig.toNat ≤ s.obufSize ∧
     (∀ e ∈ steps, s.dec.dtree.at e.2 = .leaf e.1) ∧ steps.length < s.dec.hdrOrig.toNat ∧ s.dec.dtree.IsNode ∧
     (s.dec.dtree.at []).IsNode ∧ PayloadStartsWith s [0x40#8] ∧
     [0x40#8].flatMap bitsOfByte = steps.flatMap Prod.snd ++ [] ∧ [0x40#8].length < s.dec.hdrPlen.toNat ∧
     16 + s.dec.hdrTlen.toNat + [0x40#8].length < s.ibufSize ∧
     s.ibuf.read (16 + s.dec.hdrTlen.toNat + [0x40#8].length) = none) := by
  have hn : full.dec.dtree.IsNode := trivial
  exact ⟨rfl, rfl, by decide, by decide +kernel, by decide, hn, hn, by unfold PayloadStartsWith; decide +kernel,
    by decide +kernel⟩

theorem witness_ReadsHaveNoSideEffects :
    let s : State := { sized 4 4 with inputs := [.read .csr .w32 0x014] }
    s.inputs = .read .csr .w32 0x014 :: [] ∧ ∃ t, step s = .next t := ⟨rfl, _, rfl⟩

theorem witness_AccessesWhileBusy :
    let s := (loaded 8 8 [0x61]).accept 1#32
    s.inReset = false ∧ s.seq = .busy ∧ 0 < s.ibufSize ∧ s.ibuf.read 0 = some 0x61#8 ∧ 7 < s.obufSize ∧
    (∀ off ∈ [0x010, 0x02C, 0x3FC, 0xC00, 0xFFC], off % 4 = 0 ∧ off < 4096 ∧
      (off = 0x010 ∨ (off ∉ csrOffsets ∧ (off < 0x400 ∨ 0xC00 ≤ off)))) ∧
    (∀ off ∈ [0x000, 0x01C, 0x060, 0x400, 0xFFC], off % 4 = 0 ∧ off < 4096 ∧ off ∉ [0x00C, 0x010, 0x014, 0x018]) ∧
    (4 % 4 = 0 ∧ 4 + 4 ≤ s.ibufSize ∧ 4 + 4 ≤ s.obufSize) ∧
    (let s : State := { s with ibuf := cells [1, 2, 3, 4] }
     0 % 4 = 0 ∧ 0 + 4 ≤ s.ibufSize ∧ ∀ k, k < 4 → s.ibuf.read (0 + k) = some ((0x04030201#32).extractLsb' (8 * k) 8)) ∧
    (0x01C ∈ csrOffsets ∧ 0x01C ≤ 0x01C) ∧ (0x060 ∈ csrOffsets ∧ 0x01C ≤ 0x060) ∧
    (0x400 % 4 = 0 ∧ 0x400 ≤ 0x400 ∧ 0x400 < 0xC00) ∧ (0xBFC % 4 = 0 ∧ 0x400 ≤ 0xBFC ∧ 0xBFC < 0xC00) := by decide +kernel

theorem witness_ResetAbandonsTheCommand :
    (let s : State := { (loaded 8 8 [0x61]).accept 1#32 with inputs := [.resetAssert] }
     s.inputs = .resetAssert :: [] ∧ s.seq = .busy ∧
     s.cmdWord ∈ [0x00000001#32, 0x00000002#32, 0x00000015#32, 0x00000023#32]) ∧
    (let s : State := { (loaded 8 8 [0x61]).accept 0x10#32 with inputs := [.resetAssert] }
     s.inputs = .resetAssert :: [] ∧ s.cmdWord ∉ [0x00000001#32, 0x00000002#32, 0x00000015#32, 0x00000023#32]) ∧
    (let s : State := { sized 8 8 with inReset := true, inputs := [.read .csr .w32 0] }
     s.inReset = true ∧ s.inputs = .read .csr .w32 0 :: []) ∧
    (let s : State := { sized 8 8 with inReset := true, inputs := [.resetRelease] }
     s.inReset = true ∧ s.inputs = .resetRelease :: []) ∧
    ({ sized 8 8 with inputs := [.powerOn] } : State).inputs = .powerOn :: [] := by decide +kernel

/-- The block just accepted DECOMPRESS with every product valid. -/
def running : State := full.accept 2#32

theorem running_next : ∃ t, step running = .next t := ⟨_, eq_next_landed (by decide +kernel)⟩

theorem witness_EveryStepKeepsTheBuffersInOrder : running.MemoryInv ∧ ∃ t, step running = .next t :=
  ⟨by constructor <;> decide +kernel, running_next⟩

theorem witness_EveryStepKeepsTheStatusRules : running.StatusInv ∧ ∃ t, step running = .next t :=
  ⟨by constructor <;> decide +kernel, running_next⟩

theorem witness_EveryStepKeepsTheProductsValid : running.ProductInv ∧ ∃ t, step running = .next t :=
  ⟨{ full_products with }, running_next⟩

end Sys2Proof.Tests
end

section
/-! ENCODE_TABLE after DERIVE_CODES (rule R135's corner cases): a built tree has a leaf and none deeper than 255, so the
code table has an entry and every length fits its byte. -/

namespace Sys2Proof.Machine

/-! ### The depth of a tree's leaves (rule R129) -/

theorem ETree.symbols_length_pos (e : ETree) : 0 < e.symbols.length := by
  induction e with
  | leaf s w => exact Nat.one_pos
  | node w l r ihl ihr => rw [symbols, List.length_append]; omega
  | single w l ih => exact ih

/-- Every leaf lies less deep than the tree has leaves. The trees of BUILD_TREE's collection are such; rule R131's root for a
single symbol is not. -/
def ETree.DepthBelowLeaves (e : ETree) : Prop := ∀ c b, e.leafAt c = some b → c.length < e.symbols.length

theorem ETree.depthBelowLeaves_leaf (s : Symbol) (w : Word) : (ETree.leaf s w).DepthBelowLeaves := by
  intro c b h
  match c, h with
  | [], _ => exact Nat.one_pos

/-- One subtree's leaves make up for the step down into the other. -/
theorem ETree.DepthBelowLeaves.node {l r : ETree} (hl : l.DepthBelowLeaves) (hr : r.DepthBelowLeaves) (w : Word) :
    (ETree.node w l r).DepthBelowLeaves := by
  intro c b h
  have hlpos := l.symbols_length_pos
  have hrpos := r.symbols_length_pos
  rw [symbols, List.length_append]
  match c, h with
  | false :: c, h =>
    have := hl c b h
    rw [List.length_cons]; omega
  | true :: c, h =>
    have := hr c b h
    rw [List.length_cons]; omega

theorem initialQueue_depthBelowLeaves {t : FreqTable} {x : QNode} (h : x ∈ initialQueue t) : x.tree.DepthBelowLeaves := by
  obtain ⟨b, -, rfl⟩ := mem_initialQueue.mp h
  exact ETree.depthBelowLeaves_leaf b (freqAt t b)

theorem mergeLoop_depthBelowLeaves {fuel m : Nat} {q : List QNode} {tree : ETree}
    (hq : ∀ x ∈ q, x.tree.DepthBelowLeaves) (h : mergeLoop fuel m q = some tree) : tree.DepthBelowLeaves := by
  obtain ⟨n, x, hx, rfl⟩ := mergeLoop_result (P := fun _ q => ∀ x ∈ q, x.tree.DepthBelowLeaves)
    (fun m x y q hq z hz => by
      rcases List.mem_cons.mp ((enqueue_perm _ q).mem_iff.mp hz) with rfl | hz
      · exact (hq x (.head _)).node (hq y (.tail _ (.head _))) _
      · exact hq z (.tail _ (.tail _ hz))) hq h
  exact hx x (.head _)

theorem buildTree_symbols_length {t : FreqTable} {tree : ETree} (h : buildTree t = some tree) :
    tree.symbols.length = countPresent t := (buildTree_symbols h).length_eq

theorem countPresent_le (t : FreqTable) : countPresent t ≤ 256 :=
  (List.length_filter_le ..).trans (by simp [allSymbols])

/-- Rule R129's depth: at most N − 1 for N ≥ 2 symbols present, and 1 for a single one. -/
theorem buildTree_depth_le {t : FreqTable} {tree : ETree} (h : buildTree t = some tree) {c : Code} {b : Symbol}
    (hc : tree.leafAt c = some b) : c.length ≤ max 1 (countPresent t - 1) := by
  have hn := buildTree_symbols_length h
  rcases buildTree_cases t with ⟨-, h'⟩ | ⟨x, hx, h'⟩ | ⟨tree', -, hm, h'⟩
  · rw [h'] at h; cases h
  · obtain rfl := Option.some.inj (h'.symm.trans h)
    have hx1 := initialQueue_depthBelowLeaves (t := t) (x := x) (hx ▸ List.mem_cons_self ..)
    have h1 : x.tree.symbols.length = 1 := by rw [← initialQueue_length, hx] at hn; exact hn
    match c, hc with
    | false :: c, hc =>
      have := hx1 c b hc
      rw [List.length_cons]; omega
  · obtain rfl := Option.some.inj (h'.symm.trans h)
    have := mergeLoop_depthBelowLeaves (fun x => initialQueue_depthBelowLeaves) hm c b hc
    omega

/-- Rule R129: every leaf of a built tree lies 1 to 255 deep. -/
theorem buildTree_depth_bounds {t : FreqTable} {tree : ETree} (h : buildTree t = some tree) {c : Code} {b : Symbol}
    (hc : tree.leafAt c = some b) : 1 ≤ c.length ∧ c.length ≤ 255 := by
  have hle := buildTree_depth_le h hc
  have hcount := countPresent_le t
  refine ⟨List.length_pos_iff.mpr ?_, by omega⟩
  rintro rfl
  exact absurd (hc.symm.trans (buildTree_root h)) (Option.some_ne_none b)

/-! ### The code table of a built tree (rule R132) -/

theorem buildTree_codeAt_iff {t : FreqTable} {tree : ETree} (h : buildTree t = some tree) (b : Symbol) (c : Code) :
    codeAt (deriveCodes tree) b = some c ↔ tree.leafAt c = some b :=
  codeAt_deriveCodes (fun _ _ _ => ETree.leafAt_unique (buildTree_symbols_nodup h)) b c

theorem buildTree_tableEntries_ne_nil {t : FreqTable} {tree : ETree} (h : buildTree t = some tree) :
    tableEntries (deriveCodes tree) ≠ [] := by
  obtain ⟨b, hb⟩ := List.exists_mem_of_length_pos tree.symbols_length_pos
  obtain ⟨c, hc⟩ := (tree.mem_symbols b).mp hb
  exact List.ne_nil_of_mem ((mem_tableEntries _ b c).mpr ((buildTree_codeAt_iff h b c).mpr hc))

theorem buildTree_tableEntries_length_bounds {t : FreqTable} {tree : ETree} (h : buildTree t = some tree) :
    ∀ e ∈ tableEntries (deriveCodes tree), 1 ≤ e.2.length ∧ e.2.length ≤ 255 := by
  rintro ⟨b, c⟩ he
  exact buildTree_depth_bounds h ((buildTree_codeAt_iff h b c).mp ((mem_tableEntries _ b c).mp he))

/-! ### The size of the serialized table (rules R100 to R102) -/

theorem entryBytes_length (e : Symbol × Code) : (entryBytes e).length = 2 + (e.2.length + 7) / 8 := by
  rw [entryBytes, List.length_cons, List.length_cons, packMSB_length]; omega

/-- An entry of a legal length takes 3 to 34 bytes. -/
theorem flatMap_entryBytes_length_bounds {es : List (Symbol × Code)}
    (h : ∀ e ∈ es, 1 ≤ e.2.length ∧ e.2.length ≤ 255) :
    3 * es.length ≤ (es.flatMap entryBytes).length ∧ (es.flatMap entryBytes).length ≤ 34 * es.length := by
  induction es with
  | nil => exact ⟨Nat.le_refl _, Nat.le_refl _⟩
  | cons e es ih =>
    have hes := ih fun f hf => h f (List.mem_cons_of_mem _ hf)
    have he := h e (List.mem_cons_self ..)
    rw [List.flatMap_cons, List.length_append, entryBytes_length, List.length_cons]
    omega

/-- The codes of a built tree serialize to at least one entry of 3 bytes and at most 256 of 34, after the count byte. -/
theorem buildTree_encodeTable_ok {t : FreqTable} {tree : ETree} (h : buildTree t = some tree) :
    ∃ table, encodeTable (deriveCodes tree) = .ok table ∧ 4 ≤ table.length ∧ table.length ≤ 8705 := by
  have hne := buildTree_tableEntries_ne_nil h
  have hlen := buildTree_tableEntries_length_bounds h
  have hpos := List.length_pos_iff.mpr hne
  have hle := tableEntries_length_le (deriveCodes tree)
  obtain ⟨hlo, hhi⟩ := flatMap_entryBytes_length_bounds hlen
  exact ⟨_, encodeTable_ok hne hlen, by rw [List.length_cons]; omega, by rw [List.length_cons]; omega⟩

/-! ### The command -/

/-- ENCODE_TABLE's end step when its table is written: only ETAB, its flag, DONE and BUSY change. -/
theorem exec_encodeTable_of_ok {s : State} {table : List Byte} (hct : s.valid.ct = true)
    (h : encodeTable s.enc.ct = .ok table) :
    exec .encodeTable s = .next { s with
      seq := .idle, done := true, valid := { s.valid with etab := true }, enc := { s.enc with etab := table } } := by
  have hbody : exec .encodeTable s = (encodeTableBody s).outcome := rfl
  rw [hbody]
  rcases encodeTableBody_cases s with ⟨hf, -⟩ | ⟨r, -, he, -⟩ | ⟨bytes, -, hb, hr⟩
  · rw [hct] at hf; cases hf
  · rw [h] at he; cases he
  · rw [h] at hb; cases hb
    rw [hr]; rfl

/-- Settles O23: the invariant makes CT the codes of a tree BUILD_TREE made, whose leaves lie 1 to 255 deep. -/
theorem encodeTableNeverRaisesAfterDeriveCodes : Obligations.EncodeTableNeverRaisesAfterDeriveCodes := by
  intro s hinv hct
  obtain ⟨table, htable, hlo, hhi⟩ := buildTree_encodeTable_ok (hinv.etree_built (hinv.ct_etree hct))
  rw [← hinv.ct_derived hct] at htable
  exact ⟨table, hlo, hhi, exec_encodeTable_of_ok hct htable⟩

end Sys2Proof.Machine
end

section
/-! How a command's body ends and what it leaves. `BodyLeaves` says once what the body of each command but the two composites
can have done to the state when it ends; the frames and the invariants of the commands are case analyses on it. -/

namespace Sys2Proof.Machine

/-! ### A command's body -/

/-- The pseudocode whose outcome is the command's end step (rule R209). -/
def commandBody : Instr → State → Result
  | .nop => nopBody
  | .compress => compressBody
  | .decompress => decompressBody
  | .freq => freqBody
  | .buildTree => buildTreeBody
  | .deriveCodes => deriveCodesBody
  | .encodeTable => encodeTableBody
  | .pack => packBody
  | .writeContainer => writeContainerBody
  | .readContainer => readContainerBody
  | .decodeTable => decodeTableBody
  | .rebuildTree => rebuildTreeBody
  | .unpack => unpackBody
  | .clear => clearBody

theorem exec_eq_outcome (i : Instr) (s : State) : exec i s = (commandBody i s).outcome := by
  cases i <;> rfl

/-- However the command ends, the state its body left satisfies `P`; a fault of the model leaves none. -/
def Result.Leaves (P : State → Prop) : Result → Prop
  | .finish s => P s
  | .raise _ s => P s
  | .fault _ => True

theorem Result.Leaves.imp {P Q : State → Prop} {x : Result} (hx : x.Leaves P) (h : ∀ s, P s → Q s) : x.Leaves Q := by
  cases x with
  | finish s => exact h s hx
  | raise r s => exact h s hx
  | fault f => trivial

theorem Result.Leaves.andThen {P : State → Prop} {x : Result} {k : State → Result} (hx : x.Leaves P)
    (hk : ∀ s, P s → (k s).Leaves P) : (x.andThen k).Leaves P := by
  cases x with
  | finish s => exact hk s hx
  | raise r s => exact hx
  | fault f => trivial

/-- A command that answers a next state has finished or raised on a state its body left. -/
theorem Result.Leaves.of_outcome {P : State → Prop} {x : Result} {t : State} (hx : x.Leaves P) (h : x.outcome = .next t) :
    ∃ u, P u ∧ (t = u.finish ∨ ∃ r, t = u.raise r) := by
  rcases Result.outcome_eq_next h with ⟨u, rfl, rfl⟩ | ⟨r, u, rfl, rfl⟩
  · exact ⟨u, hx, .inl rfl⟩
  · exact ⟨u, hx, .inr ⟨r, rfl⟩⟩

/-! ### What the bodies leave -/

/-- What the body of a command can have done when it ends, by a finish or by a raise: nothing, where a prerequisite or room in
OBUF is missing; the invalidation alone, where a loop raises (the `…Stopped` cases); or all of its effects. -/
inductive BodyLeaves : Instr → State → State → Prop
  | unchanged (i : Instr) (s : State) : BodyLeaves i s s
  | cleared (s : State) : BodyLeaves .clear s { s with valid := Valid.reset, outLen := 0#32 }
  | freqStopped (s : State) : BodyLeaves .freq s { s with valid := s.valid.beforeFreq }
  | counted (s : State) (bytes : List Byte) : 1 ≤ s.inLen.toNat → s.inLen.toNat ≤ s.ibufSize →
      s.ibuf.readBytes 0 s.inLen.toNat = some bytes → BodyLeaves .freq s { s with
        valid := { s.valid.beforeFreq with ft := true }
        enc := { s.enc with ft := countSymbols bytes, ftLen := s.inLen } }
  | built (s : State) (tree : ETree) : s.valid.ft = true → buildTree s.enc.ft = some tree →
      BodyLeaves .buildTree s { s with
        valid := { s.valid.beforeBuildTree with etree := true }, enc := { s.enc with etree := tree } }
  | derived (s : State) : s.valid.etree = true → BodyLeaves .deriveCodes s { s with
      valid := { s.valid.beforeDeriveCodes with ct := true }, enc := { s.enc with ct := deriveCodes s.enc.etree } }
  | encodeTableStopped (s : State) : BodyLeaves .encodeTable s { s with valid := s.valid.beforeEncodeTable }
  | encoded (s : State) (bytes : List Byte) : s.valid.ct = true → encodeTable s.enc.ct = .ok bytes →
      BodyLeaves .encodeTable s { s with
        valid := { s.valid.beforeEncodeTable with etab := true }, enc := { s.enc with etab := bytes } }
  | packStopped (s : State) : BodyLeaves .pack s { s with valid := s.valid.beforePack }
  | packed (s : State) (p : PackState) : s.valid.ct = true →
      packAll { s with valid := s.valid.beforePack } s.enc.ftLen.toNat = .ok p → BodyLeaves .pack s { s with
        valid := { s.valid.beforePack with pbuf := true }
        enc := { s.enc with pbuf := p.bytes, totalBits := BitVec.ofNat 64 p.bits } }
  | containerWritten (s : State) : s.valid.etab = true → s.valid.pbuf = true →
      16 + s.enc.etab.length + s.enc.pbuf.length ≤ s.obufSize → BodyLeaves .writeContainer s { s with
        obuf := s.obuf.writeBytes 0 (containerBytes s.enc.ftLen s.enc.etab s.enc.pbuf)
        outLen := BitVec.ofNat 32 (16 + s.enc.etab.length + s.enc.pbuf.length) }
  | readContainerStopped (s : State) : BodyLeaves .readContainer s { s with valid := s.valid.beforeReadContainer }
  | headerRead (s : State) (orig plen tlen : Word) : s.inLen.toNat ≤ s.ibufSize →
      readHeader { s with valid := s.valid.beforeReadContainer } s.inLen.toNat = .ok (orig, plen, tlen) →
      BodyLeaves .readContainer s { s with
        valid := { s.valid.beforeReadContainer with hdr := true }
        dec := { s.dec with hdrOrig := orig, hdrPlen := plen, hdrTlen := tlen } }
  | decodeTableStopped (s : State) : BodyLeaves .decodeTable s { s with valid := s.valid.beforeDecodeTable }
  | decoded (s : State) (d : Nat × List (Symbol × Code)) : s.valid.hdr = true →
      decodeTable { s with valid := s.valid.beforeDecodeTable } s.dec.hdrTlen.toNat = .ok d →
      BodyLeaves .decodeTable s { s with
        valid := { s.valid.beforeDecodeTable with dtab := true }, dec := { s.dec with decl := d.1, dtab := d.2 } }
  | rebuildTreeStopped (s : State) : BodyLeaves .rebuildTree s { s with valid := s.valid.beforeRebuildTree }
  | rebuilt (s : State) (tree : DTree) : s.valid.dtab = true → rebuildTree s.dec.dtab = .ok tree →
      BodyLeaves .rebuildTree s { s with
        valid := { s.valid.beforeRebuildTree with dtree := true }, dec := { s.dec with dtree := tree } }
  | unpackedNothing (s : State) : s.dec.hdrOrig.toNat = 0 → BodyLeaves .unpack s { s with outLen := 0#32 }
  | unpacked (s : State) (out : List Byte) : s.dec.hdrOrig.toNat ≤ s.obufSize →
      walkPayload s s.dec.dtree s.dec.hdrOrig.toNat (16 + s.dec.hdrTlen.toNat) s.dec.hdrPlen.toNat 0 s.dec.dtree [] =
        .complete out →
      BodyLeaves .unpack s { s with obuf := s.obuf.writeBytes 0 out, outLen := s.dec.hdrOrig }
  | unpackStopped (s : State) (r : Report) (out : List Byte) : s.dec.hdrOrig.toNat ≤ s.obufSize →
      walkPayload s s.dec.dtree s.dec.hdrOrig.toNat (16 + s.dec.hdrTlen.toNat) s.dec.hdrPlen.toNat 0 s.dec.dtree [] =
        .corrupt r out →
      BodyLeaves .unpack s { s with obuf := s.obuf.writeBytes 0 out }

theorem freqBody_leaves (s : State) : (freqBody s).Leaves (BodyLeaves .freq s) := by
  rcases freqBody_cases s with ⟨-, h⟩ | ⟨-, -, h⟩ | ⟨bytes, hpos, hle, hread, -, h⟩ | ⟨f, h⟩ <;> rw [h]
  · exact .freqStopped s
  · exact .freqStopped s
  · exact .counted s bytes hpos hle hread
  · trivial

theorem buildTreeBody_leaves (s : State) : (buildTreeBody s).Leaves (BodyLeaves .buildTree s) := by
  rcases buildTreeBody_cases s with ⟨-, h⟩ | ⟨tree, hft, htree, h⟩ | ⟨-, -, h⟩ <;> rw [h]
  · exact .unchanged _ s
  · exact .built s tree hft htree
  · trivial

theorem deriveCodesBody_leaves (s : State) : (deriveCodesBody s).Leaves (BodyLeaves .deriveCodes s) := by
  rcases deriveCodesBody_cases s with ⟨-, h⟩ | ⟨hetree, h⟩ <;> rw [h]
  · exact .unchanged _ s
  · exact .derived s hetree

theorem encodeTableBody_leaves (s : State) : (encodeTableBody s).Leaves (BodyLeaves .encodeTable s) := by
  rcases encodeTableBody_cases s with ⟨-, h⟩ | ⟨r, -, -, h⟩ | ⟨bytes, hct, hbytes, h⟩ <;> rw [h]
  · exact .unchanged _ s
  · exact .encodeTableStopped s
  · exact .encoded s bytes hct hbytes

theorem packBody_leaves (s : State) : (packBody s).Leaves (BodyLeaves .pack s) := by
  rcases packBody_cases s with ⟨-, h⟩ | ⟨r, -, -, h⟩ | ⟨p, hct, hp, h⟩ | ⟨f, h⟩ <;> rw [h]
  · exact .unchanged _ s
  · exact .packStopped s
  · exact .packed s p hct hp
  · trivial

theorem writeContainerBody_leaves (s : State) : (writeContainerBody s).Leaves (BodyLeaves .writeContainer s) := by
  rcases writeContainerBody_cases s with ⟨b, -, -, h⟩ | ⟨-, -, -, h⟩ | ⟨hetab, hpbuf, hfit, h⟩ <;> rw [h]
  · exact .unchanged _ s
  · exact .unchanged _ s
  · exact .containerWritten s hetab hpbuf hfit

theorem readContainerBody_leaves (s : State) : (readContainerBody s).Leaves (BodyLeaves .readContainer s) := by
  rcases readContainerBody_cases s with ⟨r, -, h⟩ | ⟨hdr, hle, hread, h⟩ | ⟨f, h⟩ <;> rw [h]
  · exact .readContainerStopped s
  · exact .headerRead s _ _ _ hle hread
  · trivial

theorem decodeTableBody_leaves (s : State) : (decodeTableBody s).Leaves (BodyLeaves .decodeTable s) := by
  rcases decodeTableBody_cases s with ⟨-, h⟩ | ⟨r, -, -, h⟩ | ⟨d, hhdr, hd, h⟩ | ⟨f, h⟩ <;> rw [h]
  · exact .unchanged _ s
  · exact .decodeTableStopped s
  · exact .decoded s d hhdr hd
  · trivial

theorem rebuildTreeBody_leaves (s : State) : (rebuildTreeBody s).Leaves (BodyLeaves .rebuildTree s) := by
  rcases rebuildTreeBody_cases s with ⟨-, h⟩ | ⟨r, -, -, h⟩ | ⟨tree, hdtab, htree, h⟩ <;> rw [h]
  · exact .unchanged _ s
  · exact .rebuildTreeStopped s
  · exact .rebuilt s tree hdtab htree

theorem unpackBody_leaves (s : State) : (unpackBody s).Leaves (BodyLeaves .unpack s) := by
  rcases unpackBody_cases s with ⟨b, -, -, h⟩ | ⟨-, -, ⟨-, h⟩ | ⟨hzero, h⟩ | ⟨out, hfit, -, -, hwalk, h⟩ |
    ⟨r, out, hfit, -, -, hwalk, h⟩ | ⟨f, h⟩⟩ <;> rw [h]
  · exact .unchanged _ s
  · exact .unchanged _ s
  · exact .unpackedNothing s hzero
  · exact .unpacked s out hfit hwalk
  · exact .unpackStopped s r out hfit hwalk
  · trivial

/-- Every command but the composites leaves what `BodyLeaves` says of it. -/
theorem commandBody_leaves {i : Instr} (hc : i ≠ .compress) (hd : i ≠ .decompress) (s : State) :
    (commandBody i s).Leaves (BodyLeaves i s) := by
  cases i with
  | nop => exact .unchanged _ s
  | compress => exact absurd rfl hc
  | decompress => exact absurd rfl hd
  | freq => exact freqBody_leaves s
  | buildTree => exact buildTreeBody_leaves s
  | deriveCodes => exact deriveCodesBody_leaves s
  | encodeTable => exact encodeTableBody_leaves s
  | pack => exact packBody_leaves s
  | writeContainer => exact writeContainerBody_leaves s
  | readContainer => exact readContainerBody_leaves s
  | decodeTable => exact decodeTableBody_leaves s
  | rebuildTree => exact rebuildTreeBody_leaves s
  | unpack => exact unpackBody_leaves s
  | clear => exact .cleared s

/-- What every case of `BodyLeaves` keeps, every command's body keeps: a composite keeps it step by step (rule R207). -/
theorem commandBody_keeps {P : State → Prop} (hP : ∀ i s u, P s → BodyLeaves i s u → P u) (i : Instr) {s : State}
    (hs : P s) : (commandBody i s).Leaves P := by
  have hstep {i : Instr} (hc : i ≠ .compress) (hd : i ≠ .decompress) (s : State) (hs : P s) :
      (commandBody i s).Leaves P := (commandBody_leaves hc hd s).imp fun u => hP i s u hs
  by_cases hc : i = .compress
  · subst hc
    exact (hstep (i := .freq) nofun nofun s hs).andThen (hstep (i := .buildTree) nofun nofun)
      |>.andThen (hstep (i := .deriveCodes) nofun nofun) |>.andThen (hstep (i := .encodeTable) nofun nofun)
      |>.andThen (hstep (i := .pack) nofun nofun) |>.andThen (hstep (i := .writeContainer) nofun nofun)
  · by_cases hd : i = .decompress
    · subst hd
      exact (hstep (i := .readContainer) nofun nofun s hs).andThen (hstep (i := .decodeTable) nofun nofun)
        |>.andThen (hstep (i := .rebuildTree) nofun nofun) |>.andThen (hstep (i := .unpack) nofun nofun)
    · exact hstep hc hd s hs

/-! ### The frame of every command -/

/-- All that a command's body can change before it ends: VALID, the products, OBUF and OUT_LEN. -/
def BodyFrame (s u : State) : Prop := ∃ valid enc dec obuf outLen,
  u = { s with valid := valid, enc := enc, dec := dec, obuf := obuf, outLen := outLen }

theorem BodyFrame.refl (s : State) : BodyFrame s s := ⟨_, _, _, _, _, rfl⟩

theorem BodyLeaves.frame {i : Instr} {s u : State} (h : BodyLeaves i s u) : BodyFrame s u := by
  cases h <;> exact ⟨_, _, _, _, _, rfl⟩

theorem BodyFrame.trans {s u w : State} (h : BodyFrame s u) (h' : BodyFrame u w) : BodyFrame s w := by
  obtain ⟨_, _, _, _, _, rfl⟩ := h
  obtain ⟨_, _, _, _, _, rfl⟩ := h'
  exact ⟨_, _, _, _, _, rfl⟩

theorem commandBody_frame (i : Instr) (s : State) : (commandBody i s).Leaves (BodyFrame s) :=
  commandBody_keeps (fun _ _ _ hs h => hs.trans h.frame) i (.refl s)

/-- Settles O8: a command changes what its body may change, and its end adds STATUS and the capture registers. -/
theorem noCommandChangesTheHostsState : Obligations.NoCommandChangesTheHostsState := by
  intro i s t h
  rw [exec_eq_outcome] at h
  obtain ⟨u, ⟨valid, enc, dec, obuf, outLen, rfl⟩, rfl | ⟨r, rfl⟩⟩ := (commandBody_frame i s).of_outcome h <;> simp

/-! ### The commands that do not write OBUF -/

theorem BodyLeaves.obuf_eq {i : Instr} {s u : State} (h : BodyLeaves i s u) (hi : i.writesObuf = false) :
    u.obuf = s.obuf := by
  cases h with
  | containerWritten | unpacked | unpackStopped => cases hi
  | _ => rfl

theorem BodyLeaves.outLen_eq {i : Instr} {s u : State} (h : BodyLeaves i s u) (hi : i.writesObuf = false)
    (hclear : i ≠ .clear) : u.outLen = s.outLen := by
  cases h with
  | containerWritten | unpackedNothing | unpacked => cases hi
  | cleared => exact absurd rfl hclear
  | _ => rfl

theorem State.obufByte_congr {s u : State} (hobuf : u.obuf = s.obuf) (hlost : u.obufLost = s.obufLost) (a : Nat) :
    u.obufByte a = s.obufByte a := by
  unfold State.obufByte
  rw [hobuf, hlost]

/-- Settles O10: the ten commands are those that do not write OBUF, none of them a composite. -/
theorem nonStoringCommandsLeaveObuf : Obligations.NonStoringCommandsLeaveObuf := by
  intro i s t hi h
  have hw : i.writesObuf = false := by
    revert hi; cases i <;> decide
  rw [exec_eq_outcome] at h
  obtain ⟨u, hu, ht⟩ := (commandBody_leaves (by rintro rfl; cases hw) (by rintro rfl; cases hw) s).of_outcome h
  have hlost : u.obufLost = s.obufLost := by
    obtain ⟨_, _, _, _, _, rfl⟩ := hu.frame
    rfl
  have hend : t.obuf = u.obuf ∧ t.obufLost = u.obufLost ∧ t.outLen = u.outLen := by
    rcases ht with rfl | ⟨r, rfl⟩ <;> exact ⟨rfl, rfl, rfl⟩
  obtain ⟨htobuf, htlost, htlen⟩ := hend
  have hobuf : t.obuf = s.obuf := htobuf.trans (hu.obuf_eq hw)
  exact ⟨fun a => by rw [hobuf], State.obufByte_congr hobuf (htlost.trans hlost),
    fun hclear => htlen.trans (hu.outLen_eq hw hclear)⟩

end Sys2Proof.Machine
end

section
/-! What a step can do, said once (`StepEffect`), and STATUS, the capture registers and OUT_LEN along every step (rules R29 to
R38, R202, R220 and R253). -/

namespace Sys2Proof.Machine

/-! ### The effects of a step -/

/-- All that one step does beside taking its event from `inputs`. The host's accesses carry the conditions under which the block
takes them, the engine's turn the command it ends. -/
inductive StepEffect : State → State → Prop
  | nothing (s : State) : StepEffect s s
  | answered (s : State) (r : BusResponse) : StepEffect s (s.answer r)
  | drawn (s : State) (width : Width) : s.seq = .busy → StepEffect s (s.drawRead width)
  | ctrlWritten (s : State) (v : Word) : StepEffect s ((s.writeCtrl v).answer .written)
  | commandAccepted (s : State) (w : Word) : s.inReset = false → s.seq = .idle →
      StepEffect s ((s.accept w).answer .written)
  | commandDropped (s : State) : s.seq = .busy → StepEffect s ({ s with dropped := true }.answer .written)
  | statusWritten (s : State) (v : Word) : StepEffect s ((s.writeStatus v).answer .written)
  | inLenWritten (s : State) (v : Word) : s.seq = .idle → StepEffect s ({ s with inLen := v }.answer .written)
  | ibufWritten (s : State) (width : Width) (off : Nat) (v : Word) : s.seq = .idle → s.takes .ibuf width off = true →
      StepEffect s ({ s with ibuf := s.ibuf.writeBytes off (writtenBytes width v) }.answer .written)
  | obufWritten (s : State) (width : Width) (off : Nat) (v : Word) : s.seq = .idle → s.takes .obuf width off = true →
      StepEffect s ({ s with obuf := s.obuf.writeBytes off (writtenBytes width v) }.answer .written)
  | commandEnded (s t : State) (i : Instr) : s.seq = .busy → decode s.cmdWord = .ok i → exec i s = .next t →
      StepEffect s t
  | illegalEnded (s t : State) (r : Illegal) : s.seq = .busy → decode s.cmdWord = .error r →
      execIllegal r s = .next t → StepEffect s t
  | resetAsserted (s : State) : StepEffect s s.assertReset
  | resetReleased (s : State) : s.inReset = true → StepEffect s { s.resetRegisters with inReset := false }
  | powerApplied (s : State) : StepEffect s s.applyPower

theorem State.isBusy_eq_false_iff (s : State) : s.isBusy = false ↔ s.seq = .idle := by
  cases h : s.seq <;> simp [h]

/-- A buffer's read answers or meets a byte never written. -/
theorem answerRead_effect {s t : State} {x : Except Fault BusResponse} (h : answerRead s x = .next t) :
    StepEffect s t := by
  cases x with
  | ok r => cases h; exact .answered s r
  | error f => cases h

theorem hostRead_effect {ap : Aperture} {width : Width} {off : Nat} {s t : State}
    (h : hostRead ap width off s = .next t) : StepEffect s t := by
  unfold hostRead at h
  split at h
  · cases h; exact .answered s _
  · split at h
    · cases h; exact .answered s _
    · cases ap with
      | csr =>
        dsimp only at h
        split at h
        · next hb => cases h; exact .drawn s .w32 ((s.isBusy_iff).mp (Bool.and_eq_true_iff.mp hb).1)
        · cases h; exact .answered s _
      | ibuf => exact answerRead_effect h
      | obuf =>
        dsimp only at h
        split at h
        · next hb => cases h; exact .drawn s width ((s.isBusy_iff).mp hb)
        · exact answerRead_effect h

/-- A CSR write the block takes: `hlen` is the model's refusal of IN_LEN while BUSY. -/
theorem csrWrite_effect {s : State} {off : Nat} (v : Word) (hreset : s.inReset = false)
    (hlen : off = 0x018 → s.seq = .idle) : StepEffect s ((csrWrite off v s).answer .written) := by
  unfold csrWrite
  split
  · exact .ctrlWritten s v
  · split
    · unfold State.writeCmd
      split
      · next hb => exact .commandDropped s ((s.isBusy_iff).mp hb)
      · next hb => exact .commandAccepted s v hreset ((s.isBusy_eq_false_iff).mp (Bool.eq_false_of_not_eq_true hb))
    · split
      · exact .statusWritten s v
      · split
        · next h => exact .inLenWritten s v (hlen h)
        · exact .answered s _

theorem hostWrite_effect {ap : Aperture} {width : Width} {off : Nat} {v : Word} {s t : State}
    (h : hostWrite ap width off v s = .next t) : StepEffect s t := by
  unfold hostWrite at h
  split at h
  · cases h; exact .answered s _
  · next hreset =>
    split at h
    · cases h; exact .answered s _
    · next htakes =>
      have htakes : s.takes ap width off = true := by simpa using htakes
      cases ap with
      | csr =>
        dsimp only at h
        split at h
        · cases h
        · next hb =>
          cases h
          refine csrWrite_effect v (Bool.eq_false_of_not_eq_true hreset) fun hoff => (s.isBusy_eq_false_iff).mp ?_
          simpa [hoff] using hb
      | ibuf =>
        dsimp only at h
        split at h
        · cases h
        · next hb =>
          cases h
          exact .ibufWritten s width off v ((s.isBusy_eq_false_iff).mp (Bool.eq_false_of_not_eq_true hb)) htakes
      | obuf =>
        dsimp only at h
        split at h
        · cases h
        · next hb =>
          cases h
          exact .obufWritten s width off v ((s.isBusy_eq_false_iff).mp (Bool.eq_false_of_not_eq_true hb)) htakes

theorem engineTurn_effect {s t : State} (h : engineTurn s = .next t) : StepEffect s t := by
  unfold engineTurn at h
  split at h
  · cases h; exact .nothing s
  · next hb =>
    split at h
    · next i hi => exact .commandEnded s t i hb hi h
    · next r hr => exact .illegalEnded s t r hb hr h

theorem happen_effect {e : Event} {s t : State} (h : happen e s = .next t) : StepEffect s t := by
  cases e with
  | read ap width off => exact hostRead_effect h
  | write ap width off v => exact hostWrite_effect h
  | engine => exact engineTurn_effect h
  | resetAssert => cases h; exact .resetAsserted s
  | resetRelease =>
    cases h
    unfold State.releaseReset
    split
    · next hr => exact .resetReleased s hr
    · exact .nothing s
  | powerOn => cases h; exact .powerApplied s

theorem step_effect {s t : State} (h : step s = .next t) : ∃ rest, StepEffect { s with inputs := rest } t := by
  unfold step at h
  split at h
  · next hs =>
    refine ⟨s.inputs, ?_⟩
    exact engineTurn_effect h
  · next e rest hs => exact ⟨rest, happen_effect h⟩

/-- A predicate that does not read `inputs` and that every effect keeps, every step keeps. -/
theorem step_keeps {P : State → Prop} (hinputs : ∀ s rest, P s → P { s with inputs := rest })
    (heffect : ∀ s t, P s → StepEffect s t → P t) {s t : State} (hs : P s) (h : step s = .next t) : P t := by
  obtain ⟨rest, he⟩ := step_effect h
  exact heffect _ t (hinputs s rest hs) he

/-! ### STATUS, the capture registers and OUT_LEN -/

/-- Every error kind has a code of rule R220's list, and none of them is 0. -/
theorem ErrorKind.code_listed (k : ErrorKind) :
    k.code ≠ 0#8 ∧ k.code.toNat ∈ [0, 1, 2, 3, 4, 5, 6, 8, 9, 10, 11, 12, 13] := by
  cases k <;> decide

/-- OUT_LEN stays inside OBUF (rule R64): the storing commands compare the length they set with OBUF_SIZE first. -/
theorem BodyLeaves.outLen_le {i : Instr} {s u : State} (hs : s.outLen.toNat ≤ s.obufSize) (h : BodyLeaves i s u) :
    u.outLen.toNat ≤ u.obufSize := by
  cases h with
  | cleared | unpackedNothing => exact Nat.zero_le _
  | containerWritten _ _ _ hfit =>
    rw [BitVec.toNat_ofNat]
    exact (Nat.mod_le _ _).trans hfit
  | unpacked _ _ hfit _ => exact hfit
  | _ => exact hs

/-- A reset's values meet the rules, whatever the parameters and the fields that a reset keeps. -/
theorem statusInv_of_registers_reset {t : State} (hseq : t.seq = .idle) (hdone : t.done = false) (herr : t.err = false)
    (hcode : t.errCode = 0#8) (hlen : t.outLen = 0#32) : t.StatusInv where
  busy_quiet h := by rw [hseq] at h; cases h
  busy_outLen h := by rw [hseq] at h; cases h
  done_or_err h := by rw [hdone] at h; cases h.1
  err_code h := by rw [herr] at h; cases h
  code_listed := by rw [hcode]; decide
  outLen_le := by rw [hlen]; exact Nat.zero_le _
  reset_idle _ := hseq

/-- A command that runs has reported nothing yet, so its end reports one thing only (rule R31). -/
theorem State.StatusInv.ended {s t : State} (hs : s.StatusInv) (hbusy : s.seq = .busy) {x : Result}
    (hx : x.Leaves fun u => BodyFrame s u ∧ u.outLen.toNat ≤ u.obufSize) (h : x.outcome = .next t) : t.StatusInv := by
  obtain ⟨hdone, herr, hcode, -⟩ := hs.busy_quiet hbusy
  obtain ⟨u, ⟨⟨valid, enc, dec, obuf, outLen, rfl⟩, hlen⟩, rfl | ⟨r, rfl⟩⟩ := hx.of_outcome h
  · exact {
      busy_quiet := nofun
      busy_outLen := nofun
      done_or_err := by simp [herr]
      err_code := by simp [herr]
      code_listed := hs.code_listed
      outLen_le := hlen
      reset_idle := fun _ => rfl }
  · exact {
      busy_quiet := nofun
      busy_outLen := nofun
      done_or_err := by simp [hdone]
      err_code := fun _ => r.kind.code_listed.1
      code_listed := r.kind.code_listed.2
      outLen_le := hlen
      reset_idle := fun _ => rfl }

theorem State.StatusInv.accepted {s : State} (hs : s.StatusInv) (hreset : s.inReset = false) (w : Word) :
    (s.accept w).StatusInv where
  busy_quiet _ := ⟨rfl, rfl, rfl, rfl, rfl, rfl⟩
  busy_outLen _ hw := if_pos hw
  done_or_err := by simp
  err_code := nofun
  code_listed := by rw [State.accept_errCode]; decide
  outLen_le := by
    rw [State.accept_outLen]
    split
    · exact Nat.zero_le _
    · exact hs.outLen_le
  reset_idle h := by rw [State.accept_inReset, hreset] at h; cases h

/-- Clearing flags of STATUS takes no report back in the capture registers and adds none. -/
theorem State.StatusInv.statusWritten {s : State} (hs : s.StatusInv) (v : Word) : (s.writeStatus v).StatusInv :=
  { hs with
    busy_quiet := fun hb => by
      obtain ⟨hdone, herr, hcapture⟩ := hs.busy_quiet hb
      exact ⟨by simp [hdone], by simp [herr], hcapture⟩
    done_or_err := fun ⟨hd, he⟩ =>
      hs.done_or_err ⟨(Bool.and_eq_true_iff.mp hd).1, (Bool.and_eq_true_iff.mp he).1⟩
    err_code := fun he => hs.err_code (Bool.and_eq_true_iff.mp he).1 }

theorem StepEffect.statusInv {s t : State} (hs : s.StatusInv) (h : StepEffect s t) : t.StatusInv := by
  cases h with
  | nothing | answered | drawn | ctrlWritten | commandDropped | inLenWritten | ibufWritten | obufWritten =>
    exact { hs with }
  | commandAccepted w hreset _ => exact { hs.accepted hreset w with }
  | statusWritten v => exact { hs.statusWritten v with }
  | commandEnded _ i hbusy _ hexec =>
    rw [exec_eq_outcome] at hexec
    refine hs.ended hbusy (commandBody_keeps (P := fun u => BodyFrame s u ∧ u.outLen.toNat ≤ u.obufSize) ?_ i
      ⟨.refl s, hs.outLen_le⟩) hexec
    exact fun _ _ _ ⟨hframe, hle⟩ hu => ⟨hframe.trans hu.frame, hu.outLen_le hle⟩
  | illegalEnded _ r hbusy _ hexec => exact hs.ended (x := illegalBody r s) hbusy ⟨.refl s, hs.outLen_le⟩ hexec
  | resetAsserted | resetReleased | powerApplied => exact statusInv_of_registers_reset rfl rfl rfl rfl rfl

/-- Settles O58: every effect of a step keeps the rules; a command's end is the only one that reports. -/
theorem everyStepKeepsTheStatusRules : Obligations.EveryStepKeepsTheStatusRules := by
  intro s t hs h
  exact step_keeps (fun s rest hs => { hs with }) (fun s t => StepEffect.statusInv) hs h

end Sys2Proof.Machine
end

section
/-! The products along every step (rules R40 and R46 to R53): each command first clears the flags of what it makes stale, then
sets the flag of what it has made from products that are valid. -/

namespace Sys2Proof.Machine

/-! ### What the loops make -/

theorem freqAt_countSymbols_toNat {bytes : List Byte} (h : bytes.length < 2 ^ 32) (b : Symbol) :
    (freqAt (countSymbols bytes) b).toNat = bytes.count b := by
  have := List.count_le_length (a := b) (l := bytes)
  rw [freqAt_countSymbols, BitVec.toNat_ofNat, Nat.mod_eq_of_lt (by omega)]

/-- Rule R124: every byte of the buffer is counted once. -/
theorem freqSum_countSymbols {bytes : List Byte} (h : bytes.length < 2 ^ 32) :
    freqSum (countSymbols bytes) = bytes.length := by
  have hcount : ∑ b ∈ allSymbols.toFinset, (bytes : Multiset Byte).count b = bytes.length :=
    Multiset.sum_count_eq_card fun b _ => List.mem_toFinset.mpr (mem_allSymbols b)
  rw [← hcount, List.sum_toFinset _ allSymbols_nodup]
  simp only [freqSum, freqAt_countSymbols_toNat h, Multiset.coe_count]

/-- Some bits have been packed and their full bytes fit. -/
def PackState.Fits (cap : Nat) (p : PackState) : Prop := ∃ bits : List Bool, p.After bits ∧ bits.length / 8 ≤ cap

theorem packCode_fits {cap i : Nat} {p p' : PackState} {c : Code} (hp : p.Fits cap) (h : packCode cap i p c = .ok p') :
    p'.Fits cap := by
  obtain ⟨bits, hafter, hfit⟩ := hp
  have hcode := packCode_after cap i c hafter hfit
  split at hcode
  · next hfit' =>
    obtain ⟨q, hq, hq'⟩ := hcode
    obtain rfl : q = p' := Except.ok.inj (hq.symm.trans h)
    exact ⟨bits ++ c, hq', hfit'⟩
  · rw [hcode] at h; cases h

theorem packInput_fits {s : State} {left i : Nat} {p p' : PackState} (hp : p.Fits s.obufSize)
    (h : packInput s left i p = .ok p') : p'.Fits s.obufSize := by
  induction left generalizing i p with
  | zero => cases h; exact hp
  | succ left ih =>
    rw [packInput] at h
    split at h
    · cases h
    · split at h
      · cases h
      · split at h
        · cases h
        · next hcode => exact ih (packCode_fits hp hcode) h

/-- PACK's payload is the bytes of its bits, and both fit (rule R136). -/
theorem packAll_length {s : State} {n : Nat} {p : PackState} (h : packAll s n = .ok p) :
    p.bytes.length = ceilDiv8 p.bits ∧ p.bytes.length ≤ s.obufSize := by
  unfold packAll at h
  split at h
  · cases h
  · next q hq =>
    obtain ⟨bits, hafter, hfit⟩ := packInput_fits ⟨[], packStart_after, Nat.zero_le _⟩ hq
    have hflush := packFlush_after s.obufSize n hafter hfit
    split at hflush
    · next hall =>
      obtain rfl := Except.ok.inj (hflush.symm.trans h)
      rw [packMSB_length, hafter.1]
      exact ⟨rfl, hall⟩
    · rw [hflush] at h; cases h

/-- TOTAL_BITS, a u64, holds the bits of any payload that fits OBUF. -/
theorem packAll_totalBits {s : State} {n : Nat} {p : PackState} (h : packAll s n = .ok p) :
    (BitVec.ofNat 64 p.bits).toNat = p.bits := by
  obtain ⟨hlen, hfit⟩ := packAll_length h
  have hsize : s.obufSize < 2 ^ 32 := s.params.obufSize.isLt
  rw [ceilDiv8] at hlen
  rw [BitVec.toNat_ofNat, Nat.mod_eq_of_lt (by omega)]

/-! ### The invalidations -/

/-- With no product valid there is nothing to satisfy. -/
theorem productInv_of_valid_reset {t : State} (h : t.valid = Valid.reset) : t.ProductInv := by
  constructor <;> intro hv <;> rw [h] at hv <;> cases hv

theorem State.ProductInv.beforeFreq {s : State} (hs : s.ProductInv) :
    { s with valid := s.valid.beforeFreq }.ProductInv :=
  { hs with
    etree_ft := nofun, ct_etree := nofun, etab_ct := nofun, pbuf_ct := nofun, ft_sum := nofun, ft_len := nofun,
    etree_built := nofun, ct_derived := nofun, etab_encoded := nofun, pbuf_len := nofun }

theorem State.ProductInv.beforeBuildTree {s : State} (hs : s.ProductInv) :
    { s with valid := s.valid.beforeBuildTree }.ProductInv :=
  { hs with
    etree_ft := nofun, ct_etree := nofun, etab_ct := nofun, pbuf_ct := nofun, etree_built := nofun, ct_derived := nofun,
    etab_encoded := nofun, pbuf_len := nofun }

theorem State.ProductInv.beforeDeriveCodes {s : State} (hs : s.ProductInv) :
    { s with valid := s.valid.beforeDeriveCodes }.ProductInv :=
  { hs with
    ct_etree := nofun, etab_ct := nofun, pbuf_ct := nofun, ct_derived := nofun, etab_encoded := nofun, pbuf_len := nofun }

theorem State.ProductInv.beforeEncodeTable {s : State} (hs : s.ProductInv) :
    { s with valid := s.valid.beforeEncodeTable }.ProductInv :=
  { hs with etab_ct := nofun, etab_encoded := nofun }

theorem State.ProductInv.beforePack {s : State} (hs : s.ProductInv) :
    { s with valid := s.valid.beforePack }.ProductInv :=
  { hs with pbuf_ct := nofun, pbuf_len := nofun }

theorem State.ProductInv.beforeReadContainer {s : State} (hs : s.ProductInv) :
    { s with valid := s.valid.beforeReadContainer }.ProductInv :=
  { hs with
    dtab_hdr := nofun, dtree_dtab := nofun, hdr_fits := nofun, dtab_decl := nofun, dtab_codes := nofun,
    dtree_rebuilt := nofun }

theorem State.ProductInv.beforeDecodeTable {s : State} (hs : s.ProductInv) :
    { s with valid := s.valid.beforeDecodeTable }.ProductInv :=
  { hs with
    dtab_hdr := nofun, dtree_dtab := nofun, dtab_decl := nofun, dtab_codes := nofun, dtree_rebuilt := nofun }

theorem State.ProductInv.beforeRebuildTree {s : State} (hs : s.ProductInv) :
    { s with valid := s.valid.beforeRebuildTree }.ProductInv :=
  { hs with dtree_dtab := nofun, dtree_rebuilt := nofun }

/-! ### The commands -/

/-- A command that stops early leaves the products it did not invalidate; one that goes through adds its own, whose rule is what
its loop or function gives. -/
theorem BodyLeaves.productInv {i : Instr} {s u : State} (hs : s.ProductInv) (h : BodyLeaves i s u) : u.ProductInv := by
  cases h with
  | unchanged | containerWritten | unpackedNothing | unpacked | unpackStopped => exact { hs with }
  | cleared => exact productInv_of_valid_reset rfl
  | freqStopped => exact hs.beforeFreq
  | counted _ bytes hpos hle hread =>
    have hlen := Memory.readBytes_length hread
    have hsum : freqSum (countSymbols bytes) = s.inLen.toNat :=
      (freqSum_countSymbols (hlen ▸ s.inLen.isLt)).trans hlen
    exact { hs.beforeFreq with
      etree_ft := nofun, ft_sum := fun _ => hsum, ft_len := fun _ => ⟨hpos, hle⟩, etree_built := nofun }
  | built _ tree hft htree =>
    exact { hs.beforeBuildTree with
      etree_ft := fun _ => hft, ct_etree := nofun, etree_built := fun _ => htree, ct_derived := nofun }
  | derived _ hetree =>
    exact { hs.beforeDeriveCodes with
      ct_etree := fun _ => hetree, etab_ct := nofun, pbuf_ct := nofun, ct_derived := fun _ => rfl, etab_encoded := nofun }
  | encodeTableStopped => exact hs.beforeEncodeTable
  | encoded _ bytes hct hbytes =>
    exact { hs.beforeEncodeTable with etab_ct := fun _ => hct, etab_encoded := fun _ => hbytes }
  | packStopped => exact hs.beforePack
  | packed _ p hct hp =>
    have hlen := packAll_length hp
    rw [← packAll_totalBits hp] at hlen
    exact { hs.beforePack with pbuf_ct := fun _ => hct, pbuf_len := fun _ => hlen }
  | readContainerStopped => exact hs.beforeReadContainer
  | headerRead _ orig plen tlen hle hread =>
    exact { hs.beforeReadContainer with
      dtab_hdr := nofun, hdr_fits := fun _ => (readHeader_eq_ok hread).trans hle }
  | decodeTableStopped => exact hs.beforeDecodeTable
  | decoded _ d hhdr hd =>
    obtain ⟨hlo, hhi, hlen, hcodes⟩ := decodeTable_eq_ok hd
    exact { hs.beforeDecodeTable with
      dtab_hdr := fun _ => hhdr, dtree_dtab := nofun, dtab_decl := fun _ => ⟨hlo, hhi, hlen⟩,
      dtab_codes := fun _ => hcodes, dtree_rebuilt := nofun }
  | rebuildTreeStopped => exact hs.beforeRebuildTree
  | rebuilt _ tree hdtab htree =>
    exact { hs.beforeRebuildTree with dtree_dtab := fun _ => hdtab, dtree_rebuilt := fun _ => htree }

/-- A command's end adds nothing to what its body left of the products. -/
theorem Result.Leaves.productInv {x : Result} {t : State} (hx : x.Leaves State.ProductInv) (h : x.outcome = .next t) :
    t.ProductInv := by
  obtain ⟨u, hu, rfl | ⟨r, rfl⟩⟩ := hx.of_outcome h
  · exact { hu with }
  · exact { hu with }

theorem StepEffect.productInv {s t : State} (hs : s.ProductInv) (h : StepEffect s t) : t.ProductInv := by
  cases h with
  | nothing | answered | drawn | ctrlWritten | commandAccepted | commandDropped | statusWritten | inLenWritten |
      ibufWritten | obufWritten => exact { hs with }
  | commandEnded _ i _ _ hexec =>
    rw [exec_eq_outcome] at hexec
    exact (commandBody_keeps (fun _ _ _ => BodyLeaves.productInv) i hs).productInv hexec
  | illegalEnded _ r _ _ hexec => exact Result.Leaves.productInv (x := illegalBody r s) hs hexec
  | resetAsserted | resetReleased | powerApplied => exact productInv_of_valid_reset rfl

/-- Settles O59: host accesses leave the products, a reset clears every flag, and a command keeps their meaning step by step. -/
theorem everyStepKeepsTheProductsValid : Obligations.EveryStepKeepsTheProductsValid := by
  intro s t hs h
  exact step_keeps (fun s rest hs => { hs with }) (fun s t => StepEffect.productInv) hs h

/-- Settles O60: reset's buffers are empty, nothing is reported and no flag is set. -/
theorem resetMeetsTheInvariants : Obligations.ResetMeetsTheInvariants := by
  intro p
  exact ⟨⟨rfl, rfl, rfl, rfl⟩, statusInv_of_registers_reset rfl rfl rfl rfl rfl, productInv_of_valid_reset rfl⟩

end Sys2Proof.Machine
end

section
/-! REBUILD_TREE on entries of distinct symbols none of whose codes begins another (rule R164): no conflict arises, so the loop
ends. -/

namespace Sys2Proof.Machine

/-- A position that is no leaf and no node is empty. -/
theorem DTree.eq_absent_of_not {t : DTree} (hl : ∀ b, t ≠ .leaf b) (hn : ¬ t.IsNode) : t = .absent := by
  cases t with
  | absent => rfl
  | leaf b => exact absurd rfl (hl b)
  | node l r => exact absurd trivial hn

/-- A code can be grafted onto a tree: nothing stands at its end and no leaf on the way. -/
def DTree.Free (t : DTree) (c : Code) : Prop := t.at c = .absent ∧ ∀ p b, p <+: c → t.at p ≠ .leaf b

/-- Grafting one code leaves the way free for a second when neither is the beginning of the other. -/
theorem DTree.Free.graft {sym : Symbol} {c d : Code} {t : DTree} (hc : t.Free c) (hd : t.Free d) (hcd : ¬ c <+: d)
    (hdc : ¬ d <+: c) : ∃ t', DTree.graft sym c t = .ok t' ∧ t'.Free d := by
  rcases DTree.graft_cases sym c t with ⟨⟨p, b, hp, -, hb⟩, -⟩ | ⟨⟨b, hb⟩, -⟩ | ⟨hn, -⟩ | ⟨-, -, t', ht', hleaf, hnode⟩
  · exact absurd hb (hc.2 p b hp)
  · rw [hc.1] at hb; cases hb
  · rw [hc.1] at hn; exact absurd hn DTree.not_isNode_absent
  · have hfree : ∀ p b, p <+: d → t'.at p ≠ .leaf b := by
      intro p b hp hb
      rcases (hleaf p b).mp hb with hb | ⟨rfl, -⟩
      · exact hd.2 p b hp hb
      · exact hcd hp
    refine ⟨t', ht', DTree.eq_absent_of_not (fun b => hfree d b (List.prefix_refl d)) fun hn => ?_, hfree⟩
    rcases (hnode d).mp hn with hn | ⟨hp, -⟩
    · rw [hd.1] at hn; exact DTree.not_isNode_absent hn
    · exact hdc hp

/-- The loop ends with a tree when the symbols are new and distinct, the codes free, and no code begins another. -/
theorem rebuildLoop_exists {e : Nat} {seen : List Symbol} {t : DTree} {xs : List (Symbol × Code)}
    (hnodup : (xs.map Prod.fst).Nodup) (hnew : ∀ x ∈ xs, x.1 ∉ seen) (hpf : PrefixFree xs)
    (hfree : ∀ x ∈ xs, t.Free x.2) : ∃ t', rebuildLoop e seen t xs = .ok t' := by
  induction xs generalizing e seen t with
  | nil => exact ⟨t, rfl⟩
  | cons x xs ih =>
    obtain ⟨s, c⟩ := x
    obtain ⟨hs, hnodup⟩ := List.nodup_cons.mp hnodup
    obtain ⟨hc, hpf⟩ := List.pairwise_cons.mp hpf
    obtain ⟨hsnew, hnew⟩ := List.forall_mem_cons.mp hnew
    obtain ⟨hcfree, hfree⟩ := List.forall_mem_cons.mp hfree
    obtain ⟨t1, ht1, hloop⟩ := rebuildLoop_cons_ok (e := e) (xs := xs) hsnew hcfree.1 hcfree.2
    rw [hloop]
    refine ih hnodup (fun x hx => ?_) hpf fun x hx => ?_
    · rw [List.mem_cons, not_or]
      exact ⟨fun h => hs (h ▸ List.mem_map_of_mem hx), hnew x hx⟩
    · obtain ⟨hcx, hxc⟩ := hc x hx
      obtain ⟨t2, ht2, hx2⟩ := hcfree.graft (sym := s) (hfree x hx) hcx hxc
      obtain rfl : t1 = t2 := Except.ok.inj (ht1.symm.trans ht2)
      exact hx2

/-! ### The empty root -/

theorem DTree.at_emptyRoot_cons (b : Bool) (c : Code) : (DTree.node .absent .absent).at (b :: c) = .absent := by
  cases b <;> exact DTree.at_absent c

theorem DTree.at_emptyRoot_ne_leaf (p : Code) (b : Symbol) : (DTree.node .absent .absent).at p ≠ .leaf b := by
  cases p with
  | nil => exact nofun
  | cons x p => rw [DTree.at_emptyRoot_cons]; exact nofun

theorem DTree.at_emptyRoot_isNode (p : Code) : ((DTree.node .absent .absent).at p).IsNode ↔ p = [] := by
  cases p with
  | nil => simp
  | cons x p => rw [DTree.at_emptyRoot_cons]; simp

theorem DTree.emptyRoot_free {c : Code} (hc : c ≠ []) : (DTree.node .absent .absent).Free c := by
  refine ⟨?_, fun p b _ => DTree.at_emptyRoot_ne_leaf p b⟩
  obtain ⟨x, c, rfl⟩ := List.exists_cons_of_ne_nil hc
  exact DTree.at_emptyRoot_cons x c

theorem rebuildTree_exists {entries : List (Symbol × Code)} (h : GoodEntries entries) :
    ∃ tree, rebuildTree entries = .ok tree := by
  obtain ⟨hnodup, hne, hpf⟩ := h
  exact rebuildLoop_exists hnodup (fun _ _ => List.not_mem_nil) hpf fun x hx => DTree.emptyRoot_free (hne x hx)

/-- The rebuilt tree's leaves are the entries at the ends of their codes, its nodes the root and the positions on the way. -/
theorem rebuildTree_at {entries : List (Symbol × Code)} {tree : DTree} (h : rebuildTree entries = .ok tree) :
    (∀ (p : Code) (b : Symbol), tree.at p = .leaf b ↔ (b, p) ∈ entries) ∧
    (∀ p : Code, (tree.at p).IsNode ↔ p = [] ∨ ∃ e ∈ entries, p <+: e.2 ∧ p ≠ e.2) := by
  obtain ⟨hleaf, hnode, -⟩ := rebuildLoop_ok h
  refine ⟨fun p b => ?_, fun p => ?_⟩
  · rw [hleaf, or_iff_right (DTree.at_emptyRoot_ne_leaf p b)]
  · rw [hnode, DTree.at_emptyRoot_isNode]

/-- REBUILD_TREE's end step when its tree is rebuilt: only DTREE, its flag, DONE and BUSY change. -/
theorem exec_rebuildTree_of_ok {s : State} {tree : DTree} (hdtab : s.valid.dtab = true)
    (h : rebuildTree s.dec.dtab = .ok tree) :
    exec .rebuildTree s = .next { s with
      seq := .idle, done := true, dec := { s.dec with dtree := tree }, valid := { s.valid with dtree := true } } := by
  rw [exec_eq_outcome, commandBody]
  rcases rebuildTreeBody_cases s with ⟨hf, -⟩ | ⟨r, -, hr, -⟩ | ⟨tree', -, htree', hbody⟩
  · rw [hdtab] at hf; cases hf
  · rw [h] at hr; cases hr
  · obtain rfl : tree = tree' := Except.ok.inj (h.symm.trans htree')
    rw [hbody]; rfl

/-- Settles O37: good entries graft without conflict, so the loop ends, and what it ends with has just their leaves. -/
theorem rebuildTreeGrowsTheCodes : Obligations.RebuildTreeGrowsTheCodes := by
  intro s hdtab hgood
  obtain ⟨tree, htree⟩ := rebuildTree_exists hgood
  obtain ⟨hleaf, hnode⟩ := rebuildTree_at htree
  exact ⟨tree, hleaf, hnode, exec_rebuildTree_of_ok hdtab htree⟩

end Sys2Proof.Machine
end

section
/-! The CSR map as the host reads and writes it (rules R23 to R44, R54 and R55), the interrupt output (rule R57) and reset's
values (rule R58). -/

namespace Sys2Proof.Machine

/-! ### The words of the registers held by field -/

/-- A concatenation as a sum of its parts. -/
theorem toNat_append_eq_add {m n : Nat} (x : BitVec m) (y : BitVec n) : (x ++ y).toNat = x.toNat * 2 ^ n + y.toNat := by
  rw [BitVec.toNat_append, ← Nat.shiftLeft_add_eq_or_of_lt y.isLt, Nat.shiftLeft_eq]

theorem State.ctrlWord_toNat (s : State) : s.ctrlWord.toNat = s.irqEn.toNat := by
  simp only [State.ctrlWord, toNat_append_eq_add, BitVec.toNat_ofBool, BitVec.toNat_ofNat]
  omega

theorem State.statusWord_toNat (s : State) : s.statusWord.toNat =
    (s.seq == .busy).toNat + 2 * s.done.toNat + 4 * s.err.toNat + 8 * s.dropped.toNat + 256 * s.errCode.toNat := by
  simp only [State.statusWord, State.isBusy, toNat_append_eq_add, BitVec.toNat_ofBool, BitVec.toNat_ofNat]
  omega

theorem State.errInfoWord_toNat (s : State) : s.errInfoWord.toNat = s.errDetail.toNat + 256 * s.errBit.toNat := by
  simp only [State.errInfoWord, toNat_append_eq_add, BitVec.toNat_ofNat]
  omega

theorem Valid.word_toNat (v : Valid) : v.word.toNat = v.ft.toNat + 2 * v.etree.toNat + 4 * v.ct.toNat + 8 * v.etab.toNat +
    16 * v.pbuf.toNat + 32 * v.hdr.toNat + 64 * v.dtab.toNat + 128 * v.dtree.toNat := by
  simp only [Valid.word, toNat_append_eq_add, BitVec.toNat_ofBool, BitVec.toNat_ofNat]
  omega

theorem State.ctrlWord_irqEn (s : State) : s.ctrlWord.getLsbD 0 = s.irqEn := by
  simp only [State.ctrlWord, BitVec.getLsbD_append]
  simp

theorem State.statusWord_done (s : State) : s.statusWord.getLsbD 1 = s.done := by
  simp only [State.statusWord, BitVec.getLsbD_append]
  simp

theorem State.statusWord_err (s : State) : s.statusWord.getLsbD 2 = s.err := by
  simp only [State.statusWord, BitVec.getLsbD_append]
  simp

@[simp] theorem shown_true (v : Word) : shown true v = v := rfl
@[simp] theorem shown_false (v : Word) : shown false v = 0#32 := rfl

/-! ### The offsets -/

/-- CMD and every offset outside rule R23's table read 0 (rules R27 and R54). -/
theorem csrRead_reserved (s : State) {off : Nat} (hoff : off = 0x010 ∨ (off ∉ csrOffsets ∧ (off < 0x400 ∨ 0xC00 ≤ off))) :
    csrRead s off = 0#32 := by
  rcases hoff with rfl | ⟨hoff, hwin⟩
  · rfl
  · simp only [csrOffsets, List.mem_cons, List.not_mem_nil, or_false, not_or] at hoff
    have hft : ¬ (0x400 ≤ off ∧ off < 0x800) := by omega
    have hct : ¬ (0x800 ≤ off ∧ off < 0xC00) := by omega
    simp [csrRead, hoff, hft, hct]

/-- An offset of the two windows is none of the registers before them. -/
theorem csrRead_window (s : State) {off : Nat} (hoff : 0x400 ≤ off) : csrRead s off =
    if off < 0x800 then shown s.valid.ft (freqAt s.enc.ft (windowSymbol 0x400 off))
    else if off < 0xC00 then shown s.valid.ct (codeLength s.enc.ct (windowSymbol 0x800 off)) else 0#32 := by
  have hreg : ∀ k, k < 0x400 → off ≠ k := by omega
  have hct : off < 0x800 ∨ 0x800 ≤ off := by omega
  rcases hct with h | h
  · simp [csrRead, hreg, hoff, h]
  · simp [csrRead, hreg, h, Nat.not_lt.mpr h]

theorem windowSymbol_offset (base : Nat) (b : Symbol) : windowSymbol base (base + 4 * b.toNat) = b := by
  rw [windowSymbol, Nat.add_sub_cancel_left, Nat.mul_div_cancel_left _ (by decide), BitVec.ofNat_toNat, BitVec.setWidth_eq]

theorem csrRead_freq (s : State) (b : Symbol) :
    csrRead s (0x400 + 4 * b.toNat) = if s.valid.ft = true then freqAt s.enc.ft b else 0#32 := by
  have := b.isLt
  rw [csrRead_window s (by omega), if_pos (by omega), windowSymbol_offset]
  rfl

theorem codeLength_eq (t : CodeTable) (b : Symbol) :
    codeLength t b = BitVec.ofNat 32 (((codeAt t b).map List.length).getD 0) := by
  unfold codeLength
  cases codeAt t b <;> rfl

theorem csrRead_codeLength (s : State) (b : Symbol) : csrRead s (0x800 + 4 * b.toNat) =
    if s.valid.ct = true then BitVec.ofNat 32 (((codeAt s.enc.ct b).map List.length).getD 0) else 0#32 := by
  have := b.isLt
  rw [csrRead_window s (by omega), if_neg (by omega), if_pos (by omega), windowSymbol_offset, codeLength_eq]
  rfl

/-- ENC_NSYM shows the number of symbols with a count above 0 (rule R41); 256 fits the word. -/
theorem csrRead_encNsym {s : State} (h : s.valid.ft = true) : (csrRead s 0x03C).toNat =
    (allSymbols.filter fun b => decide (0 < (freqAt s.enc.ft b).toNat)).length := by
  have hword : csrRead s 0x03C = BitVec.ofNat 32 (countPresent s.enc.ft) := if_pos h
  have hpos : (fun b => decide (0 < (freqAt s.enc.ft b).toNat)) = fun b => freqAt s.enc.ft b != 0#32 := by
    funext b
    rw [Bool.eq_iff_iff, decide_eq_true_iff, bne_iff_ne, Nat.pos_iff_ne_zero, ne_eq, ne_eq, BitVec.toNat_eq]
    rfl
  have hle := countPresent_le s.enc.ft
  rw [hword, BitVec.toNat_ofNat, Nat.mod_eq_of_lt (by omega), countPresent, hpos]

/-- TOTAL_BITS stands in two words, the low one first (rule R41). -/
theorem totalBits_halves (x : BitVec 64) : x.extractLsb' 32 32 ++ x.extractLsb' 0 32 = x := by
  apply BitVec.eq_of_toNat_eq
  simp only [toNat_append_eq_add, BitVec.extractLsb'_toNat, Nat.shiftRight_eq_div_pow]
  omega

/-! ### Reads and writes that the block takes -/

theorem step_of_inputs {s : State} {e : Event} {rest : List Event} (h : s.inputs = e :: rest) :
    step s = happen e { s with inputs := rest } := by
  unfold step
  rw [h]

theorem State.takes_byte {s : State} {ap : Aperture} {a : Nat} (hap : ap ≠ .csr) (ha : a < s.apertureSize ap) :
    s.takes ap .w8 a = true := by
  simp [State.takes, hap, ha]

theorem State.takes_word {s : State} {ap : Aperture} {off : Nat} (halign : off % 4 = 0)
    (hend : off + 4 ≤ s.apertureSize ap) : s.takes ap .w32 off = true := by
  simp [State.takes, halign, hend]

theorem State.takes_csr (s : State) {off : Nat} (halign : off % 4 = 0) (hlt : off < 4096) :
    s.takes .csr .w32 off = true := by
  have hend : off + 4 ≤ s.apertureSize .csr := by rw [State.apertureSize]; omega
  exact State.takes_word halign hend

/-- A CSR read of a value that rule R257 defines. -/
theorem hostRead_csr {s : State} {off : Nat} (hreset : s.inReset = false) (halign : off % 4 = 0) (hlt : off < 4096)
    (hdef : s.seq = .idle ∨ csrUnspecifiedWhileBusy off = false) :
    hostRead .csr .w32 off s = .next (s.answer (.word (csrRead s off))) := by
  have hopen : (s.isBusy && csrUnspecifiedWhileBusy off) = false := by
    rcases hdef with h | h <;> simp [h]
  simp [hostRead, hreset, s.takes_csr halign hlt, hopen]

/-- A CSR write that the model does not refuse: one of IN_LEN while BUSY is. -/
theorem hostWrite_csr {s : State} {off : Nat} (v : Word) (hreset : s.inReset = false) (halign : off % 4 = 0)
    (hlt : off < 4096) (htaken : s.seq = .idle ∨ off ≠ 0x018) :
    hostWrite .csr .w32 off v s = .next ((csrWrite off v s).answer .written) := by
  have hopen : (s.isBusy && off == 0x018) = false := by
    rcases htaken with h | h <;> simp [h]
  simp only [hostWrite, hreset, s.takes_csr halign hlt, hopen]
  rfl

theorem step_read_csr {s : State} {off : Nat} {rest : List Event} (hreset : s.inReset = false) (halign : off % 4 = 0)
    (hlt : off < 4096) (hdef : s.seq = .idle ∨ csrUnspecifiedWhileBusy off = false)
    (hin : s.inputs = .read .csr .w32 off :: rest) :
    step s = .next { s with inputs := rest, bus := .word (csrRead s off) } := by
  rw [step_of_inputs hin]
  exact hostRead_csr (s := { s with inputs := rest }) hreset halign hlt hdef

theorem step_write_csr {s : State} {off : Nat} {v : Word} {rest : List Event} (hreset : s.inReset = false)
    (halign : off % 4 = 0) (hlt : off < 4096) (htaken : s.seq = .idle ∨ off ≠ 0x018)
    (hin : s.inputs = .write .csr .w32 off v :: rest) :
    step s = .next ((csrWrite off v { s with inputs := rest }).answer .written) := by
  rw [step_of_inputs hin]
  exact hostWrite_csr (s := { s with inputs := rest }) v hreset halign hlt htaken

/-- A read-only or reserved offset ignores a write (rules R54 and R55). -/
theorem csrWrite_ignored {off : Nat} (hoff : off ∉ [0x00C, 0x010, 0x014, 0x018]) (v : Word) (s : State) :
    csrWrite off v s = s := by
  simp only [List.mem_cons, List.not_mem_nil, or_false, not_or] at hoff
  simp [csrWrite, hoff]

/-! ### The obligations -/

/-- Settles O48: each register's offset reads the word of its rule, the two windows and the reserved offsets by their range. -/
theorem csrReadsReturnTheMap : Obligations.CsrReadsReturnTheMap := by
  intro s
  refine ⟨fun off rest hreset hidle halign hlt => step_read_csr hreset halign hlt (.inl hidle), rfl, rfl, rfl,
    s.ctrlWord_toNat, rfl, s.statusWord_toNat, rfl, rfl, rfl, s.errInfoWord_toNat, s.valid.word_toNat,
    fun h => ⟨if_pos h, csrRead_encNsym h⟩, fun h => if_pos h, fun h => ⟨if_pos h, ?_⟩,
    fun h => ⟨if_pos h, if_pos h, if_pos h⟩, fun h => ⟨if_pos h, if_pos h⟩, ?_, ?_, ?_, ?_, ?_,
    csrRead_freq s, csrRead_codeLength s, fun off _ hoff hwin => csrRead_reserved s (.inr ⟨hoff, hwin⟩)⟩
  · have hhi : csrRead s 0x044 = s.enc.totalBits.extractLsb' 32 32 := if_pos h
    have hlo : csrRead s 0x040 = s.enc.totalBits.extractLsb' 0 32 := if_pos h
    rw [hhi, hlo, totalBits_halves]
  all_goals intro h; simp [csrRead, h]

/-- Settles O49: a CSR write the block takes is `csrWrite`, which has one case per writable register. -/
theorem csrWritesChangeTheirFieldsOnly : Obligations.CsrWritesChangeTheirFieldsOnly := by
  intro s off v rest hreset hidle halign hlt hin
  have hstep := step_write_csr hreset halign hlt (.inl hidle) hin
  refine ⟨?_, ?_, ?_, fun hoff => ?_⟩
  · rintro rfl; exact hstep
  · rintro rfl; exact hstep
  · rintro rfl; exact hstep
  · rw [hstep, csrWrite_ignored hoff]; rfl

/-- Settles O54: bit 0 of CTRL and bits 1 and 2 of STATUS are the fields the output is made of. -/
theorem interruptFollowsEnableAndStatus : Obligations.InterruptFollowsEnableAndStatus := by
  refine ⟨fun s => ?_, fun s w => ?_, fun p => rfl⟩
  · have hctrl : csrRead s 0x00C = s.ctrlWord := rfl
    have hstatus : csrRead s 0x014 = s.statusWord := rfl
    rw [hctrl, hstatus, s.ctrlWord_irqEn, s.statusWord_done, s.statusWord_err, State.irq]
  · simp [State.irq]

end Sys2Proof.Machine
end

section
/-! Accesses while BUSY (rules R256 and R257), and the registers after reset (rule R58). -/

namespace Sys2Proof.Machine

/-! ### Reads while BUSY -/

/-- A read of a register that rule R257 leaves unspecified is a draw. -/
theorem hostRead_csr_free {s : State} {off : Nat} (hreset : s.inReset = false) (hbusy : s.seq = .busy)
    (halign : off % 4 = 0) (hlt : off < 4096) (hfree : csrUnspecifiedWhileBusy off = true) :
    hostRead .csr .w32 off s = .next (s.drawRead .w32) := by
  simp [hostRead, hreset, s.takes_csr halign hlt, hbusy, hfree]

/-- A read of OBUF while BUSY is a draw, whether the byte was written or not (log entry 18). -/
theorem hostRead_obuf_busy {s : State} {width : Width} {off : Nat} (hreset : s.inReset = false) (hbusy : s.seq = .busy)
    (htakes : s.takes .obuf width off = true) : hostRead .obuf width off s = .next (s.drawRead width) := by
  simp [hostRead, hreset, htakes, hbusy]

/-- A read of IBUF, busy or not, answers from the written bytes. -/
theorem hostRead_ibuf {s : State} {width : Width} {off : Nat} {r : BusResponse} (hreset : s.inReset = false)
    (htakes : s.takes .ibuf width off = true) (hread : bufferRead s.ibuf.read .unwrittenIbuf width off = .ok r) :
    hostRead .ibuf width off s = .next (s.answer r) := by
  simp [hostRead, hreset, htakes, hread, answerRead]

theorem bufferRead_byte {byteAt : Nat → Option Byte} {unwritten : Nat → Fault} {a : Nat} {b : Byte}
    (h : byteAt a = some b) : bufferRead byteAt unwritten .w8 a = .ok (.byte b) := by
  simp only [bufferRead, h]
  rfl

/-- A 32-bit read has byte k of the word at offset k (rule R67). -/
theorem bufferRead_word {byteAt : Nat → Option Byte} {unwritten : Nat → Fault} {off : Nat} {v : Word}
    (h : ∀ k, k < 4 → byteAt (off + k) = some (v.extractLsb' (8 * k) 8)) :
    bufferRead byteAt unwritten .w32 off = .ok (.word v) := by
  have h0 : byteAt off = some (v.extractLsb' 0 8) := h 0 (by decide)
  have h1 : byteAt (off + 1) = some (v.extractLsb' 8 8) := h 1 (by decide)
  have h2 : byteAt (off + 2) = some (v.extractLsb' 16 8) := h 2 (by decide)
  have h3 : byteAt (off + 3) = some (v.extractLsb' 24 8) := h 3 (by decide)
  simp only [bufferRead, h0, h1, h2, h3, bind, Except.bind, pure, Except.pure, le32_bytes]

/-! ### Writes while BUSY -/

/-- The model refuses a write of a buffer while BUSY (log entry 11). -/
theorem hostWrite_buffer_busy {s : State} {ap : Aperture} {width : Width} {off : Nat} (v : Word)
    (hreset : s.inReset = false) (hbusy : s.seq = .busy) (hap : ap ≠ .csr) (htakes : s.takes ap width off = true) :
    hostWrite ap width off v s = .refused (.hostWriteWhileBusy ap off) := by
  cases ap with
  | csr => exact absurd rfl hap
  | ibuf => simp [hostWrite, hreset, htakes, hbusy]
  | obuf => simp [hostWrite, hreset, htakes, hbusy]

/-- The model refuses a write of IN_LEN while BUSY (log entry 11). -/
theorem hostWrite_inLen_busy {s : State} (v : Word) (hreset : s.inReset = false) (hbusy : s.seq = .busy) :
    hostWrite .csr .w32 0x018 v s = .refused (.hostWriteWhileBusy .csr 0x018) := by
  simp [hostWrite, hreset, s.takes_csr (off := 0x018) rfl (by decide), hbusy]

/-! ### The offsets rule R257 leaves unspecified -/

theorem csrOffsets_bounds {off : Nat} (h : off ∈ csrOffsets) : off % 4 = 0 ∧ off < 4096 := by
  revert off; decide

theorem csrUnspecifiedWhileBusy_defined {off : Nat} (h : off ∈ [0x000, 0x004, 0x008, 0x00C, 0x014, 0x018]) :
    csrUnspecifiedWhileBusy off = false := by
  revert off; decide

/-- OUT_LEN and every register after it in rule R23's table, and the two windows. -/
theorem csrUnspecifiedWhileBusy_results {off : Nat}
    (h : (off ∈ csrOffsets ∧ 0x01C ≤ off) ∨ (off % 4 = 0 ∧ 0x400 ≤ off ∧ off < 0xC00)) :
    csrUnspecifiedWhileBusy off = true := by
  rcases h with ⟨h, hle⟩ | ⟨-, hlo, hhi⟩
  · revert off; decide
  · simp [csrUnspecifiedWhileBusy, hlo, hhi]

/-- CMD and the reserved offsets are no results. -/
theorem csrUnspecifiedWhileBusy_reserved {off : Nat}
    (h : off = 0x010 ∨ (off ∉ csrOffsets ∧ (off < 0x400 ∨ 0xC00 ≤ off))) : csrUnspecifiedWhileBusy off = false := by
  rcases h with rfl | ⟨hoff, hwin⟩
  · rfl
  · simp only [csrOffsets, List.mem_cons, List.not_mem_nil, or_false, not_or] at hoff
    have hwindow : ¬ (0x400 ≤ off ∧ off < 0xC00) := by omega
    simpa [csrUnspecifiedWhileBusy, hoff] using hwindow

/-! ### The obligations -/

/-- Settles O53: what a read or a write does while BUSY goes by its offset's class, and the refused writes by their buffer. -/
theorem accessesWhileBusy : Obligations.AccessesWhileBusy := by
  intro s rest hreset hbusy
  have hcsr {off : Nat} (v : Word) (halign : off % 4 = 0) (hlt : off < 4096) (hoff : off ≠ 0x018) :=
    step_write_csr (v := v) (rest := rest) hreset halign hlt (.inr hoff)
  have hrefused {ap : Aperture} {width : Width} {off : Nat} {v : Word} (hap : ap ≠ .csr)
      (htakes : s.takes ap width off = true) (hin : s.inputs = .write ap width off v :: rest) :
      step s = .refused (.hostWriteWhileBusy ap off) :=
    (step_of_inputs hin).trans (hostWrite_buffer_busy (s := { s with inputs := rest }) v hreset hbusy hap htakes)
  refine ⟨?definedRead, ?reservedRead, ?ibufByte, ?ibufWord, ?freeRead, ?obufByte, ?obufWord, ?ctrl, ?status, ?ignored,
    ?inLen, fun a v ha => hrefused nofun (State.takes_byte nofun ha),
    fun off v halign hend => hrefused nofun (State.takes_word halign hend),
    fun a v ha => hrefused nofun (State.takes_byte nofun ha),
    fun off v halign hend => hrefused nofun (State.takes_word halign hend)⟩
  case definedRead =>
    intro off hoff
    have hmem : off ∈ csrOffsets := by revert off; decide
    obtain ⟨halign, hlt⟩ := csrOffsets_bounds hmem
    exact step_read_csr hreset halign hlt (.inr (csrUnspecifiedWhileBusy_defined hoff))
  case reservedRead =>
    intro off halign hlt hoff hin
    rw [step_read_csr hreset halign hlt (.inr (csrUnspecifiedWhileBusy_reserved hoff)) hin, csrRead_reserved s hoff]
  case ibufByte =>
    intro a b ha hread hin
    rw [step_of_inputs hin]
    exact hostRead_ibuf (s := { s with inputs := rest }) hreset (State.takes_byte nofun ha) (bufferRead_byte hread)
  case ibufWord =>
    intro off v halign hend hread hin
    rw [step_of_inputs hin]
    exact hostRead_ibuf (s := { s with inputs := rest }) hreset (State.takes_word halign hend) (bufferRead_word hread)
  case freeRead =>
    intro off hoff hin
    have hbounds : off % 4 = 0 ∧ off < 4096 := by
      rcases hoff with ⟨hmem, -⟩ | ⟨halign, -, hhi⟩
      · exact csrOffsets_bounds hmem
      · exact ⟨halign, by omega⟩
    rw [step_of_inputs hin]
    exact hostRead_csr_free (s := { s with inputs := rest }) hreset hbusy hbounds.1 hbounds.2
      (csrUnspecifiedWhileBusy_results hoff)
  case obufByte =>
    intro a ha hin
    rw [step_of_inputs hin]
    exact hostRead_obuf_busy (s := { s with inputs := rest }) hreset hbusy (State.takes_byte nofun ha)
  case obufWord =>
    intro off halign hend hin
    rw [step_of_inputs hin]
    exact hostRead_obuf_busy (s := { s with inputs := rest }) hreset hbusy (State.takes_word halign hend)
  case inLen =>
    intro v hin
    rw [step_of_inputs hin]
    exact hostWrite_inLen_busy (s := { s with inputs := rest }) v hreset hbusy
  case ctrl =>
    intro v
    exact hcsr v rfl (by decide) (by decide)
  case status =>
    intro v
    exact hcsr v rfl (by decide) (by decide)
  case ignored =>
    intro off v halign hlt hoff hin
    have hne : off ≠ 0x018 := by rintro rfl; exact hoff (by decide)
    rw [hcsr v halign hlt hne hin, csrWrite_ignored hoff]
    rfl

/-- Settles O55: with every flag 0 each register of rules R41 to R44 reads 0, and the other fields are 0 themselves. -/
theorem resetValuesOfTheRegisters : Obligations.ResetValuesOfTheRegisters := by
  intro p
  refine ⟨rfl, rfl, rfl, fun off => ?_, fun a => ⟨rfl, rfl⟩⟩
  have hctrl : (State.resetWith p).ctrlWord = 0#32 := BitVec.eq_of_toNat_eq (State.ctrlWord_toNat _)
  have hstatus : (State.resetWith p).statusWord = 0#32 := BitVec.eq_of_toNat_eq (State.statusWord_toNat _)
  have herrInfo : (State.resetWith p).errInfoWord = 0#32 := BitVec.eq_of_toNat_eq (State.errInfoWord_toNat _)
  have hvalid : (State.resetWith p).valid.word = 0#32 := BitVec.eq_of_toNat_eq (Valid.word_toNat _)
  unfold csrRead
  rw [hctrl, hstatus, herrInfo, hvalid]
  simp [State.resetWith]

end Sys2Proof.Machine
end

section
/-! The engine's loops read IBUF and its size, and nothing else of the state but what their rules name (spec/20_memory.md rules R62
and R63). -/

namespace Sys2Proof.Machine

section
variable {s t : State} (hparams : t.params = s.params) (hibuf : t.ibuf = s.ibuf)
include hparams hibuf

theorem readIbuf_frame (a : Nat) : readIbuf t a = readIbuf s a :=
  readIbuf_congr hparams (by rw [hibuf])

theorem readIbufBytes_frame (a n : Nat) : readIbufBytes t a n = readIbufBytes s a n := by
  induction n generalizing a with
  | zero => rfl
  | succ n ih => rw [readIbufBytes, readIbufBytes, readIbuf_frame hparams hibuf, ih]

theorem readIbufLE32_frame (a : Nat) : readIbufLE32 t a = readIbufLE32 s a := by
  simp only [readIbufLE32, readIbuf_frame hparams hibuf]

theorem checkMagic_frame (len i : Nat) (ms : List Byte) : checkMagic t len i ms = checkMagic s len i ms := by
  induction ms generalizing i with
  | nil => rfl
  | cons m ms ih => rw [checkMagic, checkMagic, readIbuf_frame hparams hibuf, ih]

theorem readHeader_frame (len : Nat) : readHeader t len = readHeader s len := by
  simp only [readHeader, checkMagic_frame hparams hibuf, readIbufLE32_frame hparams hibuf]

theorem decodeEntries_frame (fin left pos : Nat) : decodeEntries t fin left pos = decodeEntries s fin left pos := by
  induction left generalizing pos with
  | zero => rfl
  | succ left ih =>
    simp only [decodeEntries, readIbuf_frame hparams hibuf, readIbufBytes_frame hparams hibuf, ih]

theorem decodeTable_frame (tlen : Nat) : decodeTable t tlen = decodeTable s tlen := by
  simp only [decodeTable, readIbuf_frame hparams hibuf, decodeEntries_frame hparams hibuf]

theorem walkPayload_frame (root : DTree) (orig poff left i : Nat) (node : DTree) (out : List Byte) :
    walkPayload t root orig poff left i node out = walkPayload s root orig poff left i node out := by
  induction left generalizing i node out with
  | zero => rfl
  | succ left ih => simp only [walkPayload, readIbuf_frame hparams hibuf, ih]

/-- PACK reads the codes too. -/
theorem packInput_frame (hct : t.enc.ct = s.enc.ct) (left i : Nat) (p : PackState) :
    packInput t left i p = packInput s left i p := by
  induction left generalizing i p with
  | zero => rfl
  | succ left ih =>
    simp only [packInput, readIbuf_frame hparams hibuf, hct, State.obufSize, hparams, ih]

theorem packAll_frame (hct : t.enc.ct = s.enc.ct) (n : Nat) : packAll t n = packAll s n := by
  simp only [packAll, packInput_frame hparams hibuf hct, State.obufSize, hparams]

theorem decodedBytes_frame (hdec : t.dec = s.dec) : decodedBytes t = decodedBytes s := by
  simp only [decodedBytes, walkPayload_frame hparams hibuf, hdec]

end

@[simp] theorem decodedBytes_finish (s : State) : decodedBytes s.finish = decodedBytes s := decodedBytes_frame rfl rfl rfl

@[simp] theorem decodedBytes_raise (s : State) (r : Report) : decodedBytes (s.raise r) = decodedBytes s :=
  decodedBytes_frame rfl rfl rfl

@[simp] theorem decodedBytes_stored (s : State) (m : Memory) (n : Word) :
    decodedBytes { s with obuf := m, outLen := n } = decodedBytes s :=
  decodedBytes_frame rfl rfl rfl

end Sys2Proof.Machine
end

section
/-! What the commands store in OBUF (spec/20_memory.md rules R60 to R64): only the last step of a storing command writes OBUF, a run
of bytes from offset 0 that fits the aperture. (`BodyLeaves` does not say how many bytes UNPACK stores before it raises.) -/

namespace Sys2Proof.Machine

/-! ### The steps before the last one -/

/-- All that a command's steps before the one that stores can change: VALID, the products and OUT_LEN. -/
def ObufFrame (s u : State) : Prop := ∃ valid enc dec outLen,
  u = { s with valid := valid, enc := enc, dec := dec, outLen := outLen }

theorem ObufFrame.refl (s : State) : ObufFrame s s := ⟨_, _, _, _, rfl⟩

theorem ObufFrame.trans {s u w : State} (h : ObufFrame s u) (h' : ObufFrame u w) : ObufFrame s w := by
  obtain ⟨_, _, _, _, rfl⟩ := h
  obtain ⟨_, _, _, _, rfl⟩ := h'
  exact ⟨_, _, _, _, rfl⟩

theorem ObufFrame.obuf_eq {s u : State} (h : ObufFrame s u) : u.obuf = s.obuf := by
  obtain ⟨_, _, _, _, rfl⟩ := h
  rfl

theorem ObufFrame.done_eq {s u : State} (h : ObufFrame s u) : u.done = s.done := by
  obtain ⟨_, _, _, _, rfl⟩ := h
  rfl

theorem BodyLeaves.obufFrame {i : Instr} {s u : State} (h : BodyLeaves i s u) (hi : i.writesObuf = false) :
    ObufFrame s u := by
  cases h with
  | containerWritten | unpacked | unpackStopped => cases hi
  | _ => exact ⟨_, _, _, _, rfl⟩

/-- A step that does not write OBUF, after steps that left it. -/
theorem commandBody_obufFrame {i : Instr} (hi : i.writesObuf = false) {s u : State} (hs : ObufFrame s u) :
    (commandBody i u).Leaves (ObufFrame s) :=
  (commandBody_leaves (by rintro rfl; cases hi) (by rintro rfl; cases hi) u).imp fun _ h => hs.trans (h.obufFrame hi)

/-- A command ends as its last step does on what the steps before it left, or one of those has ended it; they leave OBUF. -/
def EndsAs (last : State → Result) (s : State) (x : Result) : Prop :=
  (∃ u, ObufFrame s u ∧ x = last u) ∨ (∃ r u, ObufFrame s u ∧ x = .raise r u) ∨ ∃ f, x = .fault f

theorem EndsAs.andThen {s : State} {x : Result} (hx : x.Leaves (ObufFrame s)) (last : State → Result) :
    EndsAs last s (x.andThen last) := by
  cases x with
  | finish u => exact .inl ⟨u, hx, rfl⟩
  | raise r u => exact .inr (.inl ⟨r, u, hx, rfl⟩)
  | fault f => exact .inr (.inr ⟨f, rfl⟩)

/-- COMPRESS ends with WRITE_CONTAINER (rule R138). -/
theorem containerCommand_endsAs {i : Instr} (hi : i ∈ [Instr.writeContainer, .compress]) (s : State) :
    EndsAs writeContainerBody s (commandBody i s) := by
  simp only [List.mem_cons, List.not_mem_nil, or_false] at hi
  rcases hi with rfl | rfl
  · exact .inl ⟨s, .refl s, rfl⟩
  · exact .andThen ((commandBody_obufFrame (i := .freq) rfl (.refl s))
      |>.andThen (fun _ => commandBody_obufFrame (i := .buildTree) rfl)
      |>.andThen (fun _ => commandBody_obufFrame (i := .deriveCodes) rfl)
      |>.andThen (fun _ => commandBody_obufFrame (i := .encodeTable) rfl)
      |>.andThen (fun _ => commandBody_obufFrame (i := .pack) rfl)) writeContainerBody

/-- DECOMPRESS ends with UNPACK (rule R166). -/
theorem decodingCommand_endsAs {i : Instr} (hi : i ∈ [Instr.unpack, .decompress]) (s : State) :
    EndsAs unpackBody s (commandBody i s) := by
  simp only [List.mem_cons, List.not_mem_nil, or_false] at hi
  rcases hi with rfl | rfl
  · exact .inl ⟨s, .refl s, rfl⟩
  · exact .andThen ((commandBody_obufFrame (i := .readContainer) rfl (.refl s))
      |>.andThen (fun _ => commandBody_obufFrame (i := .decodeTable) rfl)
      |>.andThen (fun _ => commandBody_obufFrame (i := .rebuildTree) rfl)) unpackBody

/-! ### What is stored fits OBUF (rule R64) -/

/-- All that a command's body can change: OBUF by a run of bytes from offset 0 that fits the aperture, perhaps an empty one. -/
def StoredWithin (s u : State) : Prop := ∃ valid enc dec outLen bytes, bytes.length ≤ s.obufSize ∧
  u = { s with valid := valid, enc := enc, dec := dec, outLen := outLen, obuf := s.obuf.writeBytes 0 bytes }

theorem ObufFrame.storedWithin {s u : State} (h : ObufFrame s u) : StoredWithin s u := by
  obtain ⟨valid, enc, dec, outLen, rfl⟩ := h
  exact ⟨valid, enc, dec, outLen, [], Nat.zero_le _, rfl⟩

theorem ObufFrame.storedWithin_trans {s u w : State} (h : ObufFrame s u) (h' : StoredWithin u w) : StoredWithin s w := by
  obtain ⟨_, _, _, _, rfl⟩ := h
  exact h'

theorem writeContainerBody_storedWithin (s : State) : (writeContainerBody s).Leaves (StoredWithin s) := by
  rcases writeContainerBody_cases s with ⟨b, -, -, h⟩ | ⟨-, -, -, h⟩ | ⟨-, -, hfit, h⟩ <;> rw [h]
  · exact (ObufFrame.refl s).storedWithin
  · exact (ObufFrame.refl s).storedWithin
  · exact ⟨_, _, _, _, _, (containerBytes_length ..).trans_le hfit, rfl⟩

theorem unpackBody_storedWithin (s : State) : (unpackBody s).Leaves (StoredWithin s) := by
  rcases unpackBody_cases s with ⟨b, -, -, h⟩ | ⟨-, -, ⟨-, h⟩ | ⟨-, h⟩ | ⟨out, hfit, -, hlen, -, h⟩ |
    ⟨r, out, hfit, hlen, -, -, h⟩ | ⟨f, h⟩⟩ <;> rw [h]
  · exact (ObufFrame.refl s).storedWithin
  · exact (ObufFrame.refl s).storedWithin
  · exact ⟨_, _, _, _, [], Nat.zero_le _, rfl⟩
  · exact ⟨_, _, _, _, out, hlen.trans_le hfit, rfl⟩
  · exact ⟨_, _, _, _, out, hlen.le.trans hfit, rfl⟩
  · trivial

theorem EndsAs.storedWithin {last : State → Result} {s : State} {x : Result} (h : EndsAs last s x)
    (hlast : ∀ u, (last u).Leaves (StoredWithin u)) : x.Leaves (StoredWithin s) := by
  rcases h with ⟨u, hu, rfl⟩ | ⟨r, u, hu, rfl⟩ | ⟨f, rfl⟩
  · exact (hlast u).imp fun _ => hu.storedWithin_trans
  · exact hu.storedWithin
  · trivial

theorem commandBody_storedWithin (i : Instr) (s : State) : (commandBody i s).Leaves (StoredWithin s) := by
  cases hi : i.writesObuf with
  | false => exact (commandBody_obufFrame hi (.refl s)).imp fun _ h => h.storedWithin
  | true =>
    cases i with
    | writeContainer | compress => exact (containerCommand_endsAs (by simp) s).storedWithin writeContainerBody_storedWithin
    | unpack | decompress => exact (decodingCommand_endsAs (by simp) s).storedWithin unpackBody_storedWithin
    | _ => cases hi

/-! ### The buffers along every step -/

theorem State.MemoryInv.ibufWritten {s : State} (hs : s.MemoryInv) {off : Nat} {bytes : List Byte}
    (hfit : off + bytes.length ≤ s.ibufSize) : State.MemoryInv { s with ibuf := s.ibuf.writeBytes off bytes } :=
  { hs with
    ibuf_wf := Memory.wf_writeBytes off bytes hs.ibuf_wf
    ibuf_below := Memory.below_writeBytes bytes hfit hs.ibuf_below }

theorem State.MemoryInv.obufWritten {s : State} (hs : s.MemoryInv) {off : Nat} {bytes : List Byte}
    (hfit : off + bytes.length ≤ s.obufSize) : State.MemoryInv { s with obuf := s.obuf.writeBytes off bytes } :=
  { hs with
    obuf_wf := Memory.wf_writeBytes off bytes hs.obuf_wf
    obuf_below := Memory.below_writeBytes bytes hfit hs.obuf_below }

/-- An access the block takes stores inside the aperture (rule R70). -/
theorem State.takes_writtenBytes {s : State} {ap : Aperture} {width : Width} {off : Nat}
    (h : s.takes ap width off = true) (v : Word) : off + (writtenBytes width v).length ≤ s.apertureSize ap := by
  cases width <;> simp [State.takes, writtenBytes, bytesLE32] at h ⊢ <;> omega

theorem State.MemoryInv.storedWithin {s u : State} (hs : s.MemoryInv) (h : StoredWithin s u) : u.MemoryInv := by
  obtain ⟨_, _, _, _, bytes, hfit, rfl⟩ := h
  exact { hs.obufWritten (off := 0) (by rwa [Nat.zero_add]) with }

/-- A command's end adds nothing to what its body left of the buffers. -/
theorem Result.Leaves.memoryInv {x : Result} {t : State} (hx : x.Leaves State.MemoryInv) (h : x.outcome = .next t) :
    t.MemoryInv := by
  obtain ⟨u, hu, rfl | ⟨r, rfl⟩⟩ := hx.of_outcome h
  · exact { hu with }
  · exact { hu with }

theorem State.MemoryInv.resetAsserted {s : State} (hs : s.MemoryInv) : s.assertReset.MemoryInv := by
  unfold State.assertReset State.abandonCommand
  split
  · exact { hs with obuf_wf := rfl, obuf_below := rfl }
  · exact { hs with }

theorem StepEffect.memoryInv {s t : State} (hs : s.MemoryInv) (h : StepEffect s t) : t.MemoryInv := by
  cases h with
  | nothing | answered | drawn | ctrlWritten | commandAccepted | commandDropped | statusWritten | inLenWritten =>
    exact { hs with }
  | ibufWritten width off v _ htakes => exact { hs.ibufWritten (State.takes_writtenBytes htakes v) with }
  | obufWritten width off v _ htakes => exact { hs.obufWritten (State.takes_writtenBytes htakes v) with }
  | commandEnded _ i _ _ hexec =>
    rw [exec_eq_outcome] at hexec
    exact ((commandBody_storedWithin i s).imp fun _ => hs.storedWithin).memoryInv hexec
  | illegalEnded _ r _ _ hexec => exact Result.Leaves.memoryInv (x := illegalBody r s) hs hexec
  | resetAsserted => exact hs.resetAsserted
  | resetReleased => exact { hs with }
  | powerApplied => exact ⟨rfl, rfl, rfl, rfl⟩

/-- Settles O57: the host stores only where the block takes its access, and a command a run that fits OBUF. -/
theorem everyStepKeepsTheBuffersInOrder : Obligations.EveryStepKeepsTheBuffersInOrder := by
  intro s t hs h
  exact step_keeps (fun s rest hs => { hs with }) (fun s t => StepEffect.memoryInv) hs h

/-! ### The rest of OBUF -/

theorem Memory.read_writeBytes_zero_past (m : Memory) {a : Nat} {bytes : List Byte} (h : bytes.length ≤ a) :
    (m.writeBytes 0 bytes).read a = m.read a := by
  rw [Memory.read_writeBytes, if_neg (by omega)]

/-- WRITE_CONTAINER stores a container when it finishes, and nothing when it raises (rule R137). -/
theorem writeContainerBody_rest {s t : State} (hdone : s.done = false) (h : (writeContainerBody s).outcome = .next t) :
    (t.done = true → ∀ a, 16 + t.enc.etab.length + t.enc.pbuf.length ≤ a → t.obuf.read a = s.obuf.read a) ∧
    (t.done = false → t.obuf = s.obuf) := by
  rcases writeContainerBody_cases s with ⟨b, -, -, hb⟩ | ⟨-, -, -, hb⟩ | ⟨-, -, -, hb⟩ <;> rw [hb] at h <;> cases h
  · exact ⟨fun h => absurd h (by simp [hdone]), fun _ => rfl⟩
  · exact ⟨fun h => absurd h (by simp [hdone]), fun _ => rfl⟩
  · refine ⟨fun _ a ha => ?_, nofun⟩
    rw [State.finish_enc] at ha
    rw [State.finish_obuf, Memory.read_writeBytes_zero_past _ ((containerBytes_length ..).trans_le ha)]

/-- UNPACK stores the decoded bytes, and nothing when it raises anything but CorruptBitstream (rules R165 and R228). -/
theorem unpackBody_rest {s t : State} (h : (unpackBody s).outcome = .next t) :
    (∀ a, (decodedBytes t).length ≤ a → t.obuf.read a = s.obuf.read a) ∧
    (t.done = false → t.errCode ≠ 6#8 → t.obuf = s.obuf) := by
  rcases unpackBody_cases s with ⟨b, -, -, hb⟩ | ⟨-, -, ⟨-, hb⟩ | ⟨-, hb⟩ | ⟨out, -, -, -, hwalk, hb⟩ |
    ⟨r, out, -, -, hkind, hwalk, hb⟩ | ⟨f, hb⟩⟩ <;> rw [hb] at h <;> cases h
  · exact ⟨fun _ _ => rfl, fun _ _ => rfl⟩
  · exact ⟨fun _ _ => rfl, fun _ _ => rfl⟩
  · exact ⟨fun _ _ => rfl, fun _ _ => rfl⟩
  · refine ⟨fun a ha => ?_, nofun⟩
    rw [decodedBytes_finish, decodedBytes_stored, decodedBytes, hwalk] at ha
    exact Memory.read_writeBytes_zero_past _ ha
  · refine ⟨fun a ha => ?_, fun _ hcode => absurd (congrArg ErrorKind.code hkind) hcode⟩
    rw [decodedBytes_raise, decodedBytes_stored, decodedBytes, hwalk] at ha
    exact Memory.read_writeBytes_zero_past _ ha

/-- Settles O11: a storing command ends as its last step does, or before it with OBUF as it was. -/
theorem storingCommandsLeaveTheRestOfObuf : Obligations.StoringCommandsLeaveTheRestOfObuf := by
  intro s t hdone
  refine ⟨fun i hi h => ?_, fun i hi h => ?_⟩ <;> rw [exec_eq_outcome] at h
  · rcases containerCommand_endsAs hi s with ⟨u, hu, hb⟩ | ⟨r, u, hu, hb⟩ | ⟨f, hb⟩ <;> rw [hb] at h
    · obtain ⟨hfinish, hraise⟩ := writeContainerBody_rest (hu.done_eq.trans hdone) h
      rw [hu.obuf_eq] at hfinish hraise
      exact ⟨hfinish, fun hd a => by rw [hraise hd]⟩
    · cases h
      rw [State.raise_done, State.raise_obuf, hu.done_eq, hu.obuf_eq]
      exact ⟨fun hd => absurd hd (by simp [hdone]), fun _ _ => rfl⟩
    · cases h
  · rcases decodingCommand_endsAs hi s with ⟨u, hu, hb⟩ | ⟨r, u, hu, hb⟩ | ⟨f, hb⟩ <;> rw [hb] at h
    · obtain ⟨hpast, hraise⟩ := unpackBody_rest h
      rw [hu.obuf_eq] at hpast hraise
      exact ⟨hpast, fun hd hcode a => by rw [hraise hd hcode]⟩
    · cases h
      rw [State.raise_obuf, hu.obuf_eq]
      exact ⟨fun _ _ => rfl, fun _ _ _ => rfl⟩
    · cases h

end Sys2Proof.Machine
end

section
/-! No command reads OBUF (spec/20_memory.md rule R62): two runs of a body from states that differ only in OBUF end alike and store
the same bytes. -/

namespace Sys2Proof.Machine

/-! ### Two runs that store the same bytes -/

/-- What two runs do to their OBUFs: each byte is the same in both afterwards, or both have left it. -/
def SameOrKept (before before' after after' : Memory) : Prop :=
  ∀ a, after'.read a = after.read a ∨ (after'.read a = before'.read a ∧ after.read a = before.read a)

theorem SameOrKept.kept (before before' : Memory) : SameOrKept before before' before before' := fun _ => .inr ⟨rfl, rfl⟩

theorem SameOrKept.same (before before' after : Memory) : SameOrKept before before' after after := fun _ => .inl rfl

theorem SameOrKept.written (before before' : Memory) (bytes : List Byte) :
    SameOrKept before before' (before.writeBytes 0 bytes) (before'.writeBytes 0 bytes) := by
  intro a
  rw [Memory.read_writeBytes, Memory.read_writeBytes]
  split
  · exact .inl rfl
  · exact .inr ⟨rfl, rfl⟩

theorem SameOrKept.trans {m m' n n' p p' : Memory} (h : SameOrKept m m' n n') (h' : SameOrKept n n' p p') :
    SameOrKept m m' p p' := by
  intro a
  rcases h' a with hsame | ⟨hkept', hkept⟩
  · exact .inl hsame
  · rw [hkept', hkept]
    exact h a

/-- Two runs of a command end alike, in states that differ only in OBUF. -/
inductive AlikeButObuf (before before' : Memory) : Result → Result → Prop
  | finish (u : State) (after' : Memory) : SameOrKept before before' u.obuf after' →
      AlikeButObuf before before' (.finish u) (.finish { u with obuf := after' })
  | raise (r : Report) (u : State) (after' : Memory) : SameOrKept before before' u.obuf after' →
      AlikeButObuf before before' (.raise r u) (.raise r { u with obuf := after' })
  | fault (f : Fault) : AlikeButObuf before before' (.fault f) (.fault f)

theorem AlikeButObuf.trans {m m' n n' : Memory} {x y : Result} (h : SameOrKept m m' n n') (h' : AlikeButObuf n n' x y) :
    AlikeButObuf m m' x y := by
  cases h' with
  | finish u after' hu => exact .finish u after' (h.trans hu)
  | raise r u after' hu => exact .raise r u after' (h.trans hu)
  | fault f => exact .fault f

/-- Two runs of a loop that reads no OBUF, and of what follows it. -/
theorem AlikeButObuf.afterLoop {α : Type} {m m' : Memory} {x y : Except Stop α} {s t : State} {k l : α → Result}
    (hxy : y = x) (hraise : ∀ r, AlikeButObuf m m' (.raise r s) (.raise r t)) (hk : ∀ a, AlikeButObuf m m' (k a) (l a)) :
    AlikeButObuf m m' (.afterLoop x s k) (.afterLoop y t l) := by
  subst hxy
  rcases y with (r | f) | a
  · exact hraise r
  · exact .fault f
  · exact hk a

theorem AlikeButObuf.ite {m m' : Memory} {p : Prop} [Decidable p] {x x' y y' : Result} (hx : AlikeButObuf m m' x x')
    (hy : AlikeButObuf m m' y y') : AlikeButObuf m m' (if p then x else y) (if p then x' else y') := by
  split
  · exact hx
  · exact hy

/-- A body whose run is the same from any OBUF. -/
def BlindToObuf (body : State → Result) : Prop :=
  ∀ (s : State) (m : Memory), AlikeButObuf s.obuf m (body s) (body { s with obuf := m })

theorem BlindToObuf.andThen {body k : State → Result} (hbody : BlindToObuf body) (hk : BlindToObuf k) :
    BlindToObuf fun s => (body s).andThen k := by
  intro s m
  have h := hbody s m
  dsimp only
  generalize body s = x, body { s with obuf := m } = y at h
  cases h with
  | finish u after' hu => exact (hk u after').trans hu
  | raise r u after' hu => exact .raise r u after' hu
  | fault f => exact .fault f

theorem BlindToObuf.requireFlags (need : List ValidBit) {k : State → Result} (hk : BlindToObuf k) :
    BlindToObuf fun s => requireFlags need s k := by
  intro s m
  unfold Machine.requireFlags
  dsimp only
  split
  · exact hk s m
  · exact .raise _ s m (.kept _ _)

/-! ### The bodies -/

theorem freqBody_blind : BlindToObuf freqBody := fun _ _ =>
  .ite (.raise _ _ _ (.kept _ _)) <| .ite (.raise _ _ _ (.kept _ _)) <|
    .afterLoop (readIbufBytes_frame (by rfl) (by rfl) _ _) (fun r => .raise r _ _ (.kept _ _)) fun _ =>
      .finish _ _ (.kept _ _)

theorem buildTreeBody_blind : BlindToObuf buildTreeBody :=
  .requireFlags _ fun s m => by
    dsimp only
    cases buildTree s.enc.ft with
    | none => exact .fault _
    | some tree => exact .finish _ _ (.kept _ _)

theorem deriveCodesBody_blind : BlindToObuf deriveCodesBody :=
  .requireFlags _ fun _ _ => .finish _ _ (.kept _ _)

theorem encodeTableBody_blind : BlindToObuf encodeTableBody :=
  .requireFlags _ fun s m => by
    dsimp only
    cases encodeTable s.enc.ct with
    | error r => exact .raise r _ _ (.kept _ _)
    | ok bytes => exact .finish _ _ (.kept _ _)

theorem packBody_blind : BlindToObuf packBody :=
  .requireFlags _ fun _ _ =>
    .afterLoop (packAll_frame (by rfl) (by rfl) (by rfl) _) (fun r => .raise r _ _ (.kept _ _)) fun _ => .finish _ _ (.kept _ _)

theorem writeContainerBody_blind : BlindToObuf writeContainerBody :=
  .requireFlags _ fun s m => .ite (.raise _ _ _ (.kept _ _)) <|
    .finish _ (m.writeBytes 0 (containerBytes s.enc.ftLen s.enc.etab s.enc.pbuf)) <| by
      dsimp only
      exact .written _ _ _

theorem readContainerBody_blind : BlindToObuf readContainerBody := fun _ _ =>
  .ite (.raise _ _ _ (.kept _ _)) <|
    .afterLoop (readHeader_frame (by rfl) (by rfl) _) (fun r => .raise r _ _ (.kept _ _)) fun _ => .finish _ _ (.kept _ _)

theorem decodeTableBody_blind : BlindToObuf decodeTableBody :=
  .requireFlags _ fun _ _ =>
    .afterLoop (decodeTable_frame (by rfl) (by rfl) _) (fun r => .raise r _ _ (.kept _ _)) fun _ => .finish _ _ (.kept _ _)

theorem rebuildTreeBody_blind : BlindToObuf rebuildTreeBody :=
  .requireFlags _ fun s m => by
    dsimp only
    cases rebuildTree s.dec.dtab with
    | error r => exact .raise r _ _ (.kept _ _)
    | ok tree => exact .finish _ _ (.kept _ _)

theorem unpackBody_blind : BlindToObuf unpackBody :=
  .requireFlags _ fun s m => .ite (.raise _ _ _ (.kept _ _)) <| .ite (.finish _ _ (.kept _ _)) <| by
    dsimp only
    rw [walkPayload_frame (s := s) (t := { s with obuf := m }) rfl rfl]
    generalize walkPayload s s.dec.dtree _ _ _ _ _ _ = walk
    cases walk with
    | complete out => exact .finish _ _ (.written s.obuf m out)
    | corrupt r out => exact .raise r _ _ (.written s.obuf m out)
    | stopped e => exact .afterLoop rfl (fun r => .raise r _ _ (.kept _ _)) fun u => .finish u _ (.same _ _ _)

theorem commandBody_blind (i : Instr) : BlindToObuf (commandBody i) := by
  cases i with
  | nop => exact fun _ _ => .finish _ _ (.kept _ _)
  | compress =>
    exact freqBody_blind.andThen buildTreeBody_blind |>.andThen deriveCodesBody_blind |>.andThen encodeTableBody_blind
      |>.andThen packBody_blind |>.andThen writeContainerBody_blind
  | decompress =>
    exact readContainerBody_blind.andThen decodeTableBody_blind |>.andThen rebuildTreeBody_blind
      |>.andThen unpackBody_blind
  | freq => exact freqBody_blind
  | buildTree => exact buildTreeBody_blind
  | deriveCodes => exact deriveCodesBody_blind
  | encodeTable => exact encodeTableBody_blind
  | pack => exact packBody_blind
  | writeContainer => exact writeContainerBody_blind
  | readContainer => exact readContainerBody_blind
  | decodeTable => exact decodeTableBody_blind
  | rebuildTree => exact rebuildTreeBody_blind
  | unpack => exact unpackBody_blind
  | clear => exact fun _ _ => .finish _ _ (.kept _ _)

/-- Settles O46: the two runs' bodies end alike, and a command's end does not touch OBUF. -/
theorem noCommandReadsObuf : Obligations.NoCommandReadsObuf := by
  intro i s t m h
  have hblind := commandBody_blind i s m
  rw [exec_eq_outcome] at h ⊢
  generalize commandBody i s = x, commandBody i { s with obuf := m } = y at hblind h ⊢
  cases hblind with
  | finish u after' hu => cases h; exact ⟨after', rfl, hu⟩
  | raise r u after' hu => cases h; exact ⟨after', rfl, hu⟩
  | fault f => cases h

end Sys2Proof.Machine
end

section
/-! The host's accesses of the buffers (spec/20_memory.md rules R67 to R72): what is refused, what a read changes, and the bytes a
read returns and a write stores. -/

namespace Sys2Proof.Machine

/-! ### Refused accesses -/

/-- The accesses the block takes: bytes of the buffers, and aligned words of any aperture, inside it (rules R69 and R70). -/
theorem State.takes_iff {s : State} {ap : Aperture} {width : Width} {off : Nat} : s.takes ap width off = true ↔
    (width = .w8 ∧ ap ≠ .csr ∧ off < s.apertureSize ap) ∨
    (width = .w32 ∧ off % 4 = 0 ∧ off + 4 ≤ s.apertureSize ap) := by
  cases width <;> simp [State.takes]

theorem State.apertureSize_buffer (s : State) {ap : Aperture} (hap : ap ≠ .csr) :
    s.apertureSize ap = if ap = .ibuf then s.ibufSize else s.obufSize := by
  cases ap with
  | csr => exact absurd rfl hap
  | ibuf => rfl
  | obuf => rfl

theorem hostRead_refused {s : State} {ap : Aperture} {width : Width} {off : Nat} (h : ¬ s.takes ap width off = true) :
    hostRead ap width off s = .next (s.answer .busError) := by
  simp [hostRead, h]

theorem hostWrite_refused {s : State} {ap : Aperture} {width : Width} {off : Nat} (v : Word)
    (h : ¬ s.takes ap width off = true) : hostWrite ap width off v s = .next (s.answer .busError) := by
  simp [hostWrite, h]

/-- Settles O47: the listed accesses are those the block does not take. -/
theorem refusedAccessesChangeNothing : Obligations.RefusedAccessesChangeNothing := by
  intro s ap width off v rest hbad
  have htakes : ¬ State.takes { s with inputs := rest } ap width off = true := by
    rcases hbad with ⟨rfl, hbad⟩ | ⟨hap, hbad⟩ <;> rw [State.takes_iff]
    · rintro (⟨-, hap, -⟩ | ⟨rfl, halign, hend⟩)
      · exact hap rfl
      · rw [State.apertureSize] at hend
        rcases hbad with hwidth | hmisaligned | hpast
        · exact hwidth rfl
        · exact hmisaligned halign
        · omega
    · rw [State.apertureSize_buffer _ hap]
      rintro (⟨rfl, -, hlt⟩ | ⟨rfl, halign, hend⟩)
      · rcases hbad with hwidth | ⟨hwidth, -⟩ | hpast
        · cases hwidth
        · cases hwidth
        · rw [if_pos rfl] at hpast
          exact Nat.not_lt.mpr hlt hpast
      · rcases hbad with hwidth | ⟨-, hmisaligned⟩ | hpast
        · cases hwidth
        · exact hmisaligned halign
        · exact Nat.not_lt.mpr hend hpast
  refine ⟨fun hin => ?_, fun hin => ?_⟩ <;> rw [step_of_inputs hin]
  · exact hostRead_refused htakes
  · exact hostWrite_refused v htakes

/-! ### Reads -/

theorem answerRead_frame {s t : State} {x : Except Fault BusResponse} (h : answerRead s x = .next t) :
    t = { s with bus := t.bus, draws := t.draws } := by
  cases x with
  | ok r => cases h; rfl
  | error f => cases h

/-- A read of any aperture moves the bus's answer and the count of draws alone (rules R72 and R257). -/
theorem hostRead_frame {s t : State} {ap : Aperture} {width : Width} {off : Nat} (h : hostRead ap width off s = .next t) :
    t = { s with bus := t.bus, draws := t.draws } := by
  unfold hostRead at h
  split at h
  · cases h; rfl
  · split at h
    · cases h; rfl
    · cases ap with
      | csr => dsimp only at h; split at h <;> cases h <;> rfl
      | ibuf => exact answerRead_frame h
      | obuf =>
        dsimp only at h
        split at h
        · cases h; rfl
        · exact answerRead_frame h

/-- Settles O52: a step that takes a read is that read. -/
theorem readsHaveNoSideEffects : Obligations.ReadsHaveNoSideEffects := by
  intro s t ap width off rest hin h
  rw [step_of_inputs hin] at h
  exact hostRead_frame h

/-! ### The bytes of a buffer -/

/-- A byte of IBUF or OBUF as the host reads it while IDLE (rules R61, R62 and R253). -/
def State.bufferByte (s : State) (ap : Aperture) (a : Nat) : Option Byte :=
  if ap = .ibuf then s.ibuf.read a else s.obufByte a

/-- The fault of a read of a byte never written (rule R75). -/
def unwrittenFault (ap : Aperture) (a : Nat) : Fault := if ap = .ibuf then .unwrittenIbuf a else .unwrittenObuf a

/-- Bytes stored in a buffer; the CSR aperture has none. -/
def State.storeBuffer (s : State) (ap : Aperture) (off : Nat) (bytes : List Byte) : State :=
  match ap with
  | .csr => s
  | .ibuf => { s with ibuf := s.ibuf.writeBytes off bytes }
  | .obuf => { s with obuf := s.obuf.writeBytes off bytes }

/-- A read of a buffer that rule R257 does not leave free. -/
theorem hostRead_buffer {s : State} {ap : Aperture} {width : Width} {off : Nat} (hreset : s.inReset = false)
    (hap : ap ≠ .csr) (hdef : ap = .ibuf ∨ s.seq = .idle) (htakes : s.takes ap width off = true) :
    hostRead ap width off s = answerRead s (bufferRead (s.bufferByte ap) (unwrittenFault ap) width off) := by
  cases ap with
  | csr => exact absurd rfl hap
  | ibuf => simp only [hostRead, hreset, htakes]; rfl
  | obuf =>
    have hidle : s.seq = .idle := hdef.resolve_left nofun
    simp only [hostRead, hreset, htakes, s.isBusy_idle hidle]; rfl

theorem hostWrite_buffer_idle {s : State} {ap : Aperture} {width : Width} {off : Nat} (v : Word)
    (hreset : s.inReset = false) (hidle : s.seq = .idle) (hap : ap ≠ .csr) (htakes : s.takes ap width off = true) :
    hostWrite ap width off v s = .next ((s.storeBuffer ap off (writtenBytes width v)).answer .written) := by
  unfold hostWrite
  rw [if_neg (by simp [hreset]), if_neg (by simp [htakes])]
  cases ap with
  | csr => exact absurd rfl hap
  | ibuf | obuf => exact if_neg (by simp [hidle])

theorem State.bufferByte_storeBuffer (s : State) {ap : Aperture} (hap : ap ≠ .csr) (off : Nat) (bytes : List Byte) (a : Nat) :
    (s.storeBuffer ap off bytes).bufferByte ap a =
      if off ≤ a ∧ a < off + bytes.length then bytes[a - off]? else s.bufferByte ap a := by
  cases ap with
  | csr => exact absurd rfl hap
  | ibuf => exact Memory.read_writeBytes ..
  | obuf =>
    by_cases h : off ≤ a ∧ a < off + bytes.length
    · have hget : bytes[a - off]? = some bytes[a - off] := List.getElem?_eq_getElem (by omega)
      simp [State.bufferByte, State.storeBuffer, State.obufByte, Memory.read_writeBytes, h, hget]
    · simp [State.bufferByte, State.storeBuffer, State.obufByte, Memory.read_writeBytes, h]

theorem bytesLE32_get {v : Word} {k : Nat} (hk : k < 4) : (bytesLE32 v)[k]? = some (v.extractLsb' (8 * k) 8) := by
  match k, hk with
  | 0, _ | 1, _ | 2, _ | 3, _ => rfl

/-- A write the block takes while IDLE changes the bytes it names, in its own buffer, and the bus's answer. -/
theorem step_write_buffer {s : State} {ap : Aperture} {width : Width} {off : Nat} {v : Word} {rest : List Event}
    (hreset : s.inReset = false) (hidle : s.seq = .idle) (hap : ap ≠ .csr)
    (htakes : s.takes ap width off = true) (hin : s.inputs = .write ap width off v :: rest) :
    ∃ t, step s = .next t ∧ t = { s with inputs := rest, bus := .written, ibuf := t.ibuf, obuf := t.obuf } ∧
      (if ap = .ibuf then t.obuf = s.obuf else t.ibuf = s.ibuf) ∧
      ∀ a, t.bufferByte ap a =
        if off ≤ a ∧ a < off + (writtenBytes width v).length then (writtenBytes width v)[a - off]? else s.bufferByte ap a := by
  have hstep := hostWrite_buffer_idle (s := { s with inputs := rest }) v hreset hidle hap htakes
  refine ⟨_, (step_of_inputs hin).trans hstep, ?_, ?_, State.bufferByte_storeBuffer { s with inputs := rest } hap _ _⟩
  · cases ap with
    | csr => exact absurd rfl hap
    | ibuf | obuf => rfl
  · cases ap with
    | csr => exact absurd rfl hap
    | ibuf | obuf => rfl

theorem step_read_buffer {s : State} {ap : Aperture} {width : Width} {off : Nat} {rest : List Event}
    (hreset : s.inReset = false) (hap : ap ≠ .csr) (hdef : ap = .ibuf ∨ s.seq = .idle)
    (htakes : s.takes ap width off = true) (hin : s.inputs = .read ap width off :: rest) :
    step s = answerRead { s with inputs := rest } (bufferRead (s.bufferByte ap) (unwrittenFault ap) width off) :=
  (step_of_inputs hin).trans (hostRead_buffer (s := { s with inputs := rest }) hreset hap hdef htakes)

/-- Settles O50: a byte read back is the one of the run the write stored, or the one that stood there. -/
theorem bufferAccessesUseLittleEndianLanes : Obligations.BufferAccessesUseLittleEndianLanes := by
  intro s ap off v rest hreset hidle hap size byteOf
  have hsize : s.apertureSize ap = size := s.apertureSize_buffer hap
  refine ⟨fun hin halign hend => ?_, fun hin hlt => ?_, fun hin hlt b hb => ?_, fun hin halign hend hbytes => ?_⟩
  · obtain ⟨t, hstep, hframe, hother, hbyte⟩ :=
      step_write_buffer hreset hidle hap (State.takes_word halign (hsize ▸ hend)) hin
    refine ⟨t, hstep, hframe, hother, fun k hk => (hbyte _).trans ?_, fun a ha => (hbyte a).trans ?_⟩
    · have hin : off ≤ off + k ∧ off + k < off + (writtenBytes .w32 v).length := ⟨by omega, Nat.add_lt_add_left hk off⟩
      rw [if_pos hin, Nat.add_sub_cancel_left]
      exact bytesLE32_get hk
    · have hout : ¬ (off ≤ a ∧ a < off + 4) := by omega
      exact if_neg hout
  · obtain ⟨t, hstep, hframe, hother, hbyte⟩ :=
      step_write_buffer hreset hidle hap (State.takes_byte hap (hsize ▸ hlt)) hin
    refine ⟨t, hstep, hframe, hother, (hbyte _).trans ?_, fun a ha => (hbyte a).trans ?_⟩
    · simp [writtenBytes]
    · have hout : ¬ (off ≤ a ∧ a < off + 1) := by omega
      exact if_neg hout
  · rw [step_read_buffer hreset hap (.inr hidle) (State.takes_byte hap (hsize ▸ hlt)) hin,
      bufferRead_byte (byteAt := s.bufferByte ap) hb]
    rfl
  · rw [step_read_buffer hreset hap (.inr hidle) (State.takes_word halign (hsize ▸ hend)) hin,
      bufferRead_word (byteAt := s.bufferByte ap) hbytes]
    rfl

end Sys2Proof.Machine
end

section
/-! The header and the payload read from IBUF: READ_CONTAINER on a header whose lengths fit (rule R161), UNPACK along the paths of
the payload's bits (rule R165). -/

namespace Sys2Proof.Machine

/-! ### The header -/

theorem readHeader_ok {s : State} {len : Nat} {orig plen tlen : Word} (hlen : len ≤ s.ibufSize)
    (hread : s.ibuf.readBytes 0 16 = some (headerLayout orig plen tlen)) (hfit : 16 + tlen.toNat + plen.toNat ≤ len) :
    readHeader s len = .ok (orig, plen, tlen) := by
  obtain ⟨hfirst, htlen⟩ :=
    (Memory.readBytes_append s.ibuf 0 (magic ++ bytesLE32 orig ++ bytesLE32 plen) (bytesLE32 tlen)).mp hread
  obtain ⟨hfirst, hplen⟩ := (Memory.readBytes_append s.ibuf 0 (magic ++ bytesLE32 orig) (bytesLE32 plen)).mp hfirst
  obtain ⟨hmagic, horig⟩ := (Memory.readBytes_append s.ibuf 0 magic (bytesLE32 orig)).mp hfirst
  have hcheck : checkMagic s len 0 magic = .ok () :=
    checkMagic_ok (by rw [show magic.length = 4 from rfl]; omega) hlen hmagic
  unfold readHeader
  rw [hcheck, readIbufLE32_ok (a := 4) (by omega) horig, readIbufLE32_ok (a := 8) (by omega) hplen,
    readIbufLE32_ok (a := 12) (by omega) htlen]
  simp only [bind, Except.bind, pure, Except.pure]
  rw [if_neg (by omega), if_neg (by omega), if_neg (by omega)]

/-- With IN_LEN inside IBUF, READ_CONTAINER ends as the header's read does (rule R161). -/
theorem readContainerBody_of_fits {s : State} (hlen : s.inLen.toNat ≤ s.ibufSize) :
    readContainerBody s = .afterLoop (readHeader s s.inLen.toNat) { s with valid := s.valid.beforeReadContainer } fun h =>
      .finish { s with
        valid := { s.valid.beforeReadContainer with hdr := true }
        dec := { s.dec with hdrOrig := h.1, hdrPlen := h.2.1, hdrTlen := h.2.2 } } := by
  rw [← readHeader_frame (s := s) (t := { s with valid := s.valid.beforeReadContainer }) rfl rfl]
  exact if_neg (Nat.not_lt.mpr hlen)

/-- Settles O32: the header's bytes are the magic and the three lengths, one after another. -/
theorem readContainerParsesTheHeader : Obligations.ReadContainerParsesTheHeader := by
  intro s orig plen tlen hlen hread hfit
  rw [exec_eq_outcome, commandBody, readContainerBody_of_fits hlen, readHeader_ok hlen hread hfit]
  rfl

/-! ### UNPACK's ends -/

section
variable {s : State} (hhdr : s.valid.hdr = true) (hdtree : s.valid.dtree = true)
  (hfit : s.dec.hdrOrig.toNat ≤ s.obufSize)
include hhdr hdtree hfit

theorem unpackBody_of_zero (hzero : s.dec.hdrOrig.toNat = 0) : unpackBody s = .finish { s with outLen := 0#32 } := by
  unfold unpackBody
  rw [requireFlags_hdr_dtree _ _ hhdr hdtree]
  exact (if_neg (Nat.not_lt.mpr hfit)).trans (if_pos hzero)

theorem unpackBody_of_complete (hpos : s.dec.hdrOrig.toNat ≠ 0) {out : List Byte}
    (hwalk : walkPayload s s.dec.dtree s.dec.hdrOrig.toNat (16 + s.dec.hdrTlen.toNat) s.dec.hdrPlen.toNat 0 s.dec.dtree [] =
      .complete out) :
    unpackBody s = .finish { s with obuf := s.obuf.writeBytes 0 out, outLen := s.dec.hdrOrig } := by
  unfold unpackBody
  rw [requireFlags_hdr_dtree _ _ hhdr hdtree]
  refine ((if_neg (Nat.not_lt.mpr hfit)).trans (if_neg hpos)).trans ?_
  rw [hwalk]
  rfl

theorem unpackBody_of_stopped (hpos : s.dec.hdrOrig.toNat ≠ 0) {f : Fault}
    (hwalk : walkPayload s s.dec.dtree s.dec.hdrOrig.toNat (16 + s.dec.hdrTlen.toNat) s.dec.hdrPlen.toNat 0 s.dec.dtree [] =
      .stopped (.fault f)) :
    unpackBody s = .fault f := by
  unfold unpackBody
  rw [requireFlags_hdr_dtree _ _ hhdr hdtree]
  refine ((if_neg (Nat.not_lt.mpr hfit)).trans (if_neg hpos)).trans ?_
  rw [hwalk]
  rfl

end

/-- Bits that are the paths of all the output's leaves complete the walk, whatever follows them in the payload. -/
theorem walkPayload_complete {s : State} {steps : List (Symbol × Code)} {payload : List Byte} {padding : List Bool}
    (hroot : s.dec.dtree.IsNode) (hleaves : ∀ e ∈ steps, s.dec.dtree.at e.2 = .leaf e.1)
    (hcount : steps.length = s.dec.hdrOrig.toNat) (hne : steps ≠ []) (hpayload : PayloadStartsWith s payload)
    (hbits : payload.flatMap bitsOfByte = steps.flatMap Prod.snd ++ padding) :
    walkPayload s s.dec.dtree s.dec.hdrOrig.toNat (16 + s.dec.hdrTlen.toNat) s.dec.hdrPlen.toNat 0 s.dec.dtree [] =
      .complete (steps.map Prod.fst) := by
  obtain ⟨hread, hsize, hplen⟩ := hpayload
  obtain ⟨left, hleft⟩ := Nat.exists_eq_add_of_le hplen
  rw [hleft, walkPayload_bytes (poff := 16 + s.dec.hdrTlen.toNat) (i := 0) hread hsize, hbits, indexedBits_append,
    walkBits_steps_complete (out := []) hroot (indexedBits_snd ..) hne hleaves ((Nat.zero_add _).trans hcount)]
  rfl

/-- Settles O39: with nothing to decode UNPACK stores nothing; otherwise its walk completes with the paths' symbols. -/
theorem unpackWalksThePaths : Obligations.UnpackWalksThePaths := by
  intro s steps payload padding hhdr hdtree hfit hroot hleaves hcount hpayload hbits _
  rw [exec_eq_outcome, commandBody]
  by_cases hzero : s.dec.hdrOrig.toNat = 0
  · have hsteps : steps.length = 0 := hcount.trans hzero
    have horig : s.dec.hdrOrig = 0#32 := BitVec.eq_of_toNat_eq hzero
    rw [unpackBody_of_zero hhdr hdtree hfit hzero]
    exact ⟨_, rfl, by rw [horig]; rfl, fun a => by rw [if_neg (by omega)]; rfl⟩
  · have hne : steps ≠ [] := by
      rintro rfl
      exact hzero hcount.symm
    rw [unpackBody_of_complete hhdr hdtree hfit hzero
      (walkPayload_complete hroot hleaves hcount hne hpayload hbits)]
    refine ⟨_, rfl, rfl, fun a => (Memory.read_writeBytes ..).trans ?_⟩
    simp

end Sys2Proof.Machine
end

section
/-! Reads of bytes not written since power-on (spec/20_memory.md rules R73 and R75): where the host's reads and each command's stop. -/

namespace Sys2Proof.Machine

/-! ### The host's reads -/

theorem bufferRead_byte_unwritten {byteAt : Nat → Option Byte} {a : Nat} (unwritten : Nat → Fault)
    (h : byteAt a = none) : bufferRead byteAt unwritten .w8 a = .error (unwritten a) := by
  simp only [bufferRead, h]
  rfl

/-- A 32-bit read stops at the first of its four bytes that was never written. -/
theorem bufferRead_word_unwritten {byteAt : Nat → Option Byte} {off k : Nat} (unwritten : Nat → Fault) (hk : k < 4)
    (hbefore : ∀ j, j < k → (byteAt (off + j)).isSome = true) (h : byteAt (off + k) = none) :
    bufferRead byteAt unwritten .w32 off = .error (unwritten (off + k)) := by
  have hget (j : Nat) (hj : j < k) : ∃ b, byteAt (off + j) = some b := Option.isSome_iff_exists.mp (hbefore j hj)
  match k, hk with
  | 0, _ =>
    simp only [bufferRead, show byteAt off = none from h]
    rfl
  | 1, _ =>
    obtain ⟨b0, h0⟩ := hget 0 (by decide)
    simp only [bufferRead, show byteAt off = some b0 from h0, h]
    rfl
  | 2, _ =>
    obtain ⟨b0, h0⟩ := hget 0 (by decide)
    obtain ⟨b1, h1⟩ := hget 1 (by decide)
    simp only [bufferRead, show byteAt off = some b0 from h0, h1, h]
    rfl
  | 3, _ =>
    obtain ⟨b0, h0⟩ := hget 0 (by decide)
    obtain ⟨b1, h1⟩ := hget 1 (by decide)
    obtain ⟨b2, h2⟩ := hget 2 (by decide)
    simp only [bufferRead, show byteAt off = some b0 from h0, h1, h2, h]
    rfl

section
variable {s : State} {ap : Aperture} {rest : List Event} (hreset : s.inReset = false) (hap : ap ≠ .csr)
  (hdef : ap = .ibuf ∨ s.seq = .idle)
include hreset hap hdef

theorem step_read_byte_unwritten {a : Nat} (ha : a < s.apertureSize ap) (h : s.bufferByte ap a = none)
    (hin : s.inputs = .read ap .w8 a :: rest) : step s = .fault (unwrittenFault ap a) := by
  rw [step_read_buffer hreset hap hdef (State.takes_byte hap ha) hin, bufferRead_byte_unwritten _ h]
  rfl

theorem step_read_word_unwritten {off k : Nat} (halign : off % 4 = 0) (hend : off + 4 ≤ s.apertureSize ap) (hk : k < 4)
    (hbefore : ∀ j, j < k → (s.bufferByte ap (off + j)).isSome = true) (h : s.bufferByte ap (off + k) = none)
    (hin : s.inputs = .read ap .w32 off :: rest) : step s = .fault (unwrittenFault ap (off + k)) := by
  rw [step_read_buffer hreset hap hdef (State.takes_word halign hend) hin, bufferRead_word_unwritten _ hk hbefore h]
  rfl

end

theorem State.obufByte_of_written {s : State} {a : Nat} (h : (s.obuf.read a).isSome = true) :
    (s.obufByte a).isSome = true := by
  obtain ⟨b, hb⟩ := Option.isSome_iff_exists.mp h
  simp [State.obufByte, hb]

/-- With no abandoned command before it, an OBUF byte never written has no value (log entry 6). -/
theorem State.obufByte_unwritten {s : State} {a : Nat} (h : s.obuf.read a = none) (hlost : s.obufLost = none) :
    s.obufByte a = none := by
  simp [State.obufByte, h, hlost]

/-! ### FREQ and PACK -/

theorem freqBody_of_fault {s : State} {f : Fault} (hlen : s.inLen.toNat ≤ s.ibufSize) (hpos : s.inLen.toNat ≠ 0)
    (h : readIbufBytes s 0 s.inLen.toNat = .error (.fault f)) : freqBody s = .fault f := by
  rw [← readIbufBytes_frame (s := s) (t := { s with valid := s.valid.beforeFreq }) rfl rfl] at h
  refine ((if_neg (Nat.not_lt.mpr hlen)).trans (if_neg hpos)).trans ?_
  rw [h]
  rfl

theorem freqBody_unwritten {s : State} {a : Nat} {before : List Byte} (hlen : s.inLen.toNat ≤ s.ibufSize)
    (ha : a < s.inLen.toNat) (hread : s.ibuf.readBytes 0 a = some before) (h : s.ibuf.read a = none) :
    freqBody s = .fault (.unwrittenIbuf a) := by
  have hstop := readIbufBytes_unwritten (s := s) (a := 0) ha (by omega) hread (by rwa [Nat.zero_add])
  rw [Nat.zero_add] at hstop
  exact freqBody_of_fault hlen (by omega) hstop

/-- Input bytes that have codes and fit are packed, and the loop goes on after them. -/
theorem packInput_coded {s : State} {coded : List Byte} {left i : Nat} {p : PackState} {bits : List Bool}
    (hread : s.ibuf.readBytes i coded.length = some coded) (hend : i + coded.length ≤ s.ibufSize)
    (hcodes : ∀ b ∈ coded, (codeAt s.enc.ct b).isSome = true) (hp : p.After bits)
    (hfit : (bits ++ codeBits s.enc.ct coded).length / 8 ≤ s.obufSize) :
    ∃ p', p'.After (bits ++ codeBits s.enc.ct coded) ∧
      packInput s (coded.length + left) i p = packInput s left (i + coded.length) p' := by
  induction coded generalizing i p bits with
  | nil => exact ⟨p, by simpa [codeBits] using hp, by simp⟩
  | cons b coded ih =>
    obtain ⟨hb, hread⟩ := (Memory.readBytes_cons ..).mp hread
    obtain ⟨c, hc⟩ := Option.isSome_iff_exists.mp (hcodes b (List.mem_cons_self ..))
    have hbits : bits ++ codeBits s.enc.ct (b :: coded) = bits ++ c ++ codeBits s.enc.ct coded := by
      simp [codeBits, hc]
    rw [hbits] at hfit ⊢
    rw [List.length_cons] at hend ⊢
    have hcode := packCode_after s.obufSize i c hp (by simp at hfit; omega)
    rw [if_pos (by simp at hfit ⊢; omega)] at hcode
    obtain ⟨q, hq, hafter⟩ := hcode
    obtain ⟨p', hp', hgo⟩ := ih hread (by omega) (fun d hd => hcodes d (List.mem_cons_of_mem _ hd)) hafter hfit
    refine ⟨p', hp', ?_⟩
    rw [show coded.length + 1 + left = (coded.length + left) + 1 by omega, packInput, readIbuf_ok (by omega) hb]
    dsimp only
    rw [hc]
    dsimp only
    rw [hq]
    dsimp only
    rw [hgo, show i + 1 + coded.length = i + (coded.length + 1) by omega]

theorem packBody_of_fault {s : State} {f : Fault} (hct : s.valid.ct = true)
    (h : packAll s s.enc.ftLen.toNat = .error (.fault f)) : packBody s = .fault f := by
  rw [← packAll_frame (s := s) (t := { s with valid := s.valid.beforePack }) rfl rfl rfl] at h
  rw [packBody, requireFlags_ct _ _ hct]
  dsimp only
  rw [h]
  rfl

theorem packAll_unwritten {s : State} {n : Nat} {coded : List Byte} (hsize : n ≤ s.ibufSize) (hlen : coded.length < n)
    (hread : s.ibuf.readBytes 0 coded.length = some coded) (hcodes : ∀ b ∈ coded, (codeAt s.enc.ct b).isSome = true)
    (hfit : (codeBits s.enc.ct coded).length / 8 ≤ s.obufSize) (h : s.ibuf.read coded.length = none) :
    packAll s n = .error (.fault (.unwrittenIbuf coded.length)) := by
  obtain ⟨left, rfl⟩ := Nat.exists_eq_add_of_lt hlen
  obtain ⟨p, -, hgo⟩ := packInput_coded (left := left + 1) (i := 0) hread (by omega) hcodes packStart_after hfit
  rw [packAll, Nat.add_assoc, hgo, packInput, Nat.zero_add, readIbuf_unwritten (by omega) h]

/-! ### The header -/

/-- The magic's bytes before one never written match, so the comparison reaches that one. -/
theorem checkMagic_unwritten {s : State} {len i : Nat} {before after : List Byte} {m : Byte} (hlen : len ≤ s.ibufSize)
    (hin : i + before.length < len) (hread : s.ibuf.readBytes i before.length = some before)
    (h : s.ibuf.read (i + before.length) = none) :
    checkMagic s len i (before ++ m :: after) = .error (.fault (.unwrittenIbuf (i + before.length))) := by
  induction before generalizing i with
  | nil =>
    rw [List.length_nil, Nat.add_zero] at hin h ⊢
    rw [List.nil_append, checkMagic, if_neg (by omega), readIbuf_unwritten (by omega) h]
  | cons b before ih =>
    obtain ⟨hb, hread⟩ := (Memory.readBytes_cons ..).mp hread
    rw [List.length_cons] at hin h ⊢
    rw [List.cons_append, checkMagic, if_neg (by omega), readIbuf_ok (by omega) hb]
    dsimp only
    rw [if_pos rfl, ih (by omega) hread (by rwa [show i + 1 + before.length = i + (before.length + 1) by omega]),
      show i + 1 + before.length = i + (before.length + 1) by omega]

theorem readIbuf_written {s : State} {a : Nat} (ha : a < s.ibufSize) (h : (s.ibuf.read a).isSome = true) :
    ∃ b, readIbuf s a = .ok b := by
  obtain ⟨b, hb⟩ := Option.isSome_iff_exists.mp h
  exact ⟨b, readIbuf_ok ha hb⟩

/-- Four bytes that are written are a word. -/
theorem readIbufLE32_written {s : State} {a : Nat} (hend : a + 4 ≤ s.ibufSize)
    (h : ∀ j, j < 4 → (s.ibuf.read (a + j)).isSome = true) : ∃ w, readIbufLE32 s a = .ok w := by
  obtain ⟨b0, h0⟩ := readIbuf_written (by omega) (h 0 (by decide))
  obtain ⟨b1, h1⟩ := readIbuf_written (by omega) (h 1 (by decide))
  obtain ⟨b2, h2⟩ := readIbuf_written (by omega) (h 2 (by decide))
  obtain ⟨b3, h3⟩ := readIbuf_written (by omega) (h 3 (by decide))
  refine ⟨le32 b0 b1 b2 b3, ?_⟩
  rw [readIbufLE32, show readIbuf s a = .ok b0 from h0, h1, h2, h3]
  rfl

/-- A word's read stops at the first of its four bytes that was never written. -/
theorem readIbufLE32_unwritten {s : State} {a k : Nat} (hk : k < 4) (ha : a + k < s.ibufSize)
    (hbefore : ∀ j, j < k → (s.ibuf.read (a + j)).isSome = true) (h : s.ibuf.read (a + k) = none) :
    readIbufLE32 s a = .error (.fault (.unwrittenIbuf (a + k))) := by
  have hget (j : Nat) (hj : j < k) : ∃ b, readIbuf s (a + j) = .ok b := readIbuf_written (by omega) (hbefore j hj)
  have hstop := readIbuf_unwritten ha h
  match k, hk with
  | 0, _ =>
    rw [readIbufLE32, show readIbuf s a = _ from hstop]
    rfl
  | 1, _ =>
    obtain ⟨b0, h0⟩ := hget 0 (by decide)
    rw [readIbufLE32, show readIbuf s a = .ok b0 from h0, hstop]
    rfl
  | 2, _ =>
    obtain ⟨b0, h0⟩ := hget 0 (by decide)
    obtain ⟨b1, h1⟩ := hget 1 (by decide)
    rw [readIbufLE32, show readIbuf s a = .ok b0 from h0, h1, hstop]
    rfl
  | 3, _ =>
    obtain ⟨b0, h0⟩ := hget 0 (by decide)
    obtain ⟨b1, h1⟩ := hget 1 (by decide)
    obtain ⟨b2, h2⟩ := hget 2 (by decide)
    rw [readIbufLE32, show readIbuf s a = .ok b0 from h0, h1, h2, hstop]
    rfl

/-- The header's read stops at its first byte never written, after a magic that matches as far as it is there (rule R161). -/
theorem readHeader_unwritten {s : State} {len k : Nat} {before : List Byte} (hlen : len ≤ s.ibufSize) (hk : k < 16)
    (hin : k < len) (hwhole : 4 ≤ k → 16 ≤ len) (hread : s.ibuf.readBytes 0 k = some before)
    (hmagic : before.take 4 = magic.take k) (h : s.ibuf.read k = none) :
    readHeader s len = .error (.fault (.unwrittenIbuf k)) := by
  have hbefore : before.length = k := Memory.readBytes_length hread
  unfold readHeader
  by_cases hk4 : k < 4
  · have hkm : k < magic.length := hk4
    have hsplit : magic = before ++ magic[k] :: magic.drop (k + 1) := by
      rw [← List.drop_eq_getElem_cons, ← List.take_of_length_le (l := before) (i := 4) (by omega), hmagic,
        List.take_append_drop]
    have hcheck := checkMagic_unwritten (i := 0) (m := magic[k]) (after := magic.drop (k + 1)) (before := before) hlen
      (by omega) (by rwa [hbefore]) (by rwa [hbefore, Nat.zero_add])
    rw [← hsplit, hbefore, Nat.zero_add] at hcheck
    rw [hcheck]
    rfl
  · have hwritten (j : Nat) (hj : j < k) : (s.ibuf.read j).isSome = true := by
      have hget := Memory.readBytes_get hread hj
      rw [Nat.zero_add] at hget
      rw [hget, List.getElem?_eq_getElem (by omega)]
      rfl
    have hcheck : checkMagic s len 0 magic = .ok () := by
      refine checkMagic_ok (by rw [show magic.length = 4 from rfl]; omega) hlen ?_
      rw [Memory.readBytes_eq_some_iff]
      refine ⟨rfl, fun j hj => ?_⟩
      have hj4 : j < 4 := hj
      rw [Memory.readBytes_get hread (by omega), ← List.getElem?_take_of_lt hj4, hmagic,
        List.getElem?_take_of_lt (by omega)]
    have hlater {a : Nat} (ha : a + 4 ≤ k) : ∃ w, readIbufLE32 s a = .ok w :=
      readIbufLE32_written (by omega) fun j hj => hwritten _ (by omega)
    have hstop {a : Nat} (hak : a ≤ k) (hka : k < a + 4) : readIbufLE32 s a = .error (.fault (.unwrittenIbuf k)) := by
      obtain ⟨j, rfl⟩ := Nat.exists_eq_add_of_le hak
      exact readIbufLE32_unwritten (by omega) (by omega) (fun i hi => hwritten _ (by omega)) h
    rw [hcheck]
    simp only [bind, Except.bind]
    rw [if_neg (by omega)]
    by_cases hk8 : k < 8
    · rw [hstop (a := 4) (by omega) hk8]
    · obtain ⟨orig, horig⟩ := hlater (a := 4) (by omega)
      rw [horig]
      by_cases hk12 : k < 12
      · rw [hstop (a := 8) (by omega) hk12]
      · obtain ⟨plen, hplen⟩ := hlater (a := 8) (by omega)
        rw [hplen, hstop (a := 12) (by omega) hk]

theorem readContainerBody_of_fault {s : State} {f : Fault} (hlen : s.inLen.toNat ≤ s.ibufSize)
    (h : readHeader s s.inLen.toNat = .error (.fault f)) : readContainerBody s = .fault f := by
  rw [readContainerBody_of_fits hlen, h]
  rfl

/-! ### The table -/

theorem decodeTableBody_of_fault {s : State} {f : Fault} (hhdr : s.valid.hdr = true)
    (h : decodeTable s s.dec.hdrTlen.toNat = .error (.fault f)) : decodeTableBody s = .fault f := by
  rw [← decodeTable_frame (s := s) (t := { s with valid := s.valid.beforeDecodeTable }) rfl rfl] at h
  rw [decodeTableBody, requireFlags_hdr _ _ hhdr]
  dsimp only
  rw [h]
  rfl

theorem decodeTable_unwritten_count {s : State} {tlen : Nat} (hpos : 0 < tlen) (hsize : 16 < s.ibufSize)
    (h : s.ibuf.read 16 = none) : decodeTable s tlen = .error (.fault (.unwrittenIbuf 16)) := by
  rw [decodeTable, if_neg (by omega), readIbuf_unwritten hsize h]
  rfl

theorem declaredCount_eq_declared (count : Byte) : declaredCount count = declared count := by
  have hzero : count.toNat = 0 ↔ count = 0#8 := ⟨fun h => BitVec.eq_of_toNat_eq h, fun h => by rw [h]; rfl⟩
  simp only [declaredCount, declared, hzero]

/-- A table whose first entries are whole and do not use up the count stops where its next entry does. -/
theorem decodeTable_next_entry {s : State} {count : Byte} {raw : List RawEntry} {e : Stop}
    (htable : TableStartsWith s count raw) (hcount : raw.length < declared count)
    (h : ∀ left, decodeEntries s (16 + s.dec.hdrTlen.toNat) (left + 1) (17 + (raw.flatMap RawEntry.bytes).length) =
      .error e) :
    decodeTable s s.dec.hdrTlen.toNat = .error e := by
  obtain ⟨hcomplete, hread, hsize, hfin⟩ := htable
  rw [Nat.add_comm 1, ← List.length_cons (a := count), Memory.readBytes_cons] at hread
  obtain ⟨hcountByte, hentries⟩ := hread
  obtain ⟨left, hleft⟩ := Nat.exists_eq_add_of_lt hcount
  rw [decodeTable, if_neg (by omega), readIbuf_ok (by omega) hcountByte]
  simp only [bind, Except.bind]
  rw [declaredCount_eq_declared, hleft, Nat.add_assoc, decodeEntries_raw hcomplete hentries (by omega) (by omega), h left]
  rfl

section
variable {s : State} {fin pos : Nat} (hfin : fin ≤ s.ibufSize) (hpos : pos < fin)
include hfin hpos

theorem decodeEntries_unwritten_symbol (h : s.ibuf.read pos = none) (left : Nat) :
    decodeEntries s fin (left + 1) pos = .error (.fault (.unwrittenIbuf pos)) := by
  rw [decodeEntries, if_pos hpos, readIbuf_unwritten (by omega) h]
  rfl

theorem decodeEntries_unwritten_length (hsym : (s.ibuf.read pos).isSome = true) (hlen : pos + 1 < fin)
    (h : s.ibuf.read (pos + 1) = none) (left : Nat) :
    decodeEntries s fin (left + 1) pos = .error (.fault (.unwrittenIbuf (pos + 1))) := by
  obtain ⟨sym, hsym⟩ := readIbuf_written (by omega) hsym
  rw [decodeEntries, if_pos hpos, hsym]
  simp only [bind, Except.bind]
  rw [if_neg (by omega), readIbuf_unwritten (by omega) h]

theorem decodeEntries_unwritten_code {len : Byte} {k : Nat} {before : List Byte}
    (hsym : (s.ibuf.read pos).isSome = true) (hlen : s.ibuf.read (pos + 1) = some len) (hne : len ≠ 0#8)
    (hend : pos + 2 + ceilDiv8 len.toNat ≤ fin) (hk : k < ceilDiv8 len.toNat)
    (hread : s.ibuf.readBytes (pos + 2) k = some before) (h : s.ibuf.read (pos + 2 + k) = none) (left : Nat) :
    decodeEntries s fin (left + 1) pos = .error (.fault (.unwrittenIbuf (pos + 2 + k))) := by
  obtain ⟨sym, hsym⟩ := readIbuf_written (by omega) hsym
  have hnonzero : len.toNat ≠ 0 := fun hzero => hne (BitVec.eq_of_toNat_eq hzero)
  rw [decodeEntries, if_pos hpos, hsym]
  simp only [bind, Except.bind]
  rw [if_neg (by omega), readIbuf_ok (by omega) hlen]
  dsimp only
  rw [if_neg hnonzero, if_neg (by omega), readIbufBytes_unwritten hk (by omega) hread h]

end

/-! ### The payload -/

/-- Whole paths and the start of one lead the walk to the next payload byte, at which it stops if it was never written. -/
theorem walkPayload_unwritten {s : State} {steps : List (Symbol × Code)} {c : Code} {payload : List Byte}
    (hleaves : ∀ e ∈ steps, s.dec.dtree.at e.2 = .leaf e.1) (hcount : steps.length < s.dec.hdrOrig.toNat)
    (hroot : s.dec.dtree.IsNode) (hnode : (s.dec.dtree.at c).IsNode) (hpayload : PayloadStartsWith s payload)
    (hbits : payload.flatMap bitsOfByte = steps.flatMap Prod.snd ++ c) (hmore : payload.length < s.dec.hdrPlen.toNat)
    (hsize : 16 + s.dec.hdrTlen.toNat + payload.length < s.ibufSize)
    (h : s.ibuf.read (16 + s.dec.hdrTlen.toNat + payload.length) = none) :
    walkPayload s s.dec.dtree s.dec.hdrOrig.toNat (16 + s.dec.hdrTlen.toNat) s.dec.hdrPlen.toNat 0 s.dec.dtree [] =
      .stopped (.fault (.unwrittenIbuf (16 + s.dec.hdrTlen.toNat + payload.length))) := by
  obtain ⟨hread, hend, -⟩ := hpayload
  obtain ⟨left, hleft⟩ := Nat.exists_eq_add_of_lt hmore
  have hwalk (j : Nat) : walkBits s.dec.dtree s.dec.hdrOrig.toNat (indexedBits j (steps.flatMap Prod.snd ++ c))
      s.dec.dtree [] = .more (s.dec.dtree.at c) (steps.map Prod.fst) := by
    rw [indexedBits_append, walkBits_steps (out := []) hroot (indexedBits_snd ..) hleaves (by simpa using hcount),
      ← List.append_nil (indexedBits _ c), walkBits_to_node _ _ (indexedBits_snd ..) hnode, walkBits, List.nil_append]
  rw [hleft, Nat.add_assoc, walkPayload_bytes (poff := 16 + s.dec.hdrTlen.toNat) (i := 0) hread hend, hbits, hwalk]
  dsimp only
  rw [walkPayload, Nat.zero_add, readIbuf_unwritten hsize h]

/-! ### The obligation -/

/-- Settles O51: each read, the host's or a command's, goes through the bytes before the first one never written and stops there. -/
theorem unwrittenBytesFault : Obligations.UnwrittenBytesFault := by
  refine ⟨?ibufByte, ?ibufWord, ?obufByte, ?obufWord, ?input, ?pack, ?header, ?count, ?entry, ?payload⟩
  case ibufByte =>
    intro s a rest hreset ha h hin
    exact step_read_byte_unwritten (ap := .ibuf) hreset nofun (.inl rfl) ha h hin
  case ibufWord =>
    intro s off k rest hreset halign hend hk hbefore h hin
    exact step_read_word_unwritten (ap := .ibuf) hreset nofun (.inl rfl) halign hend hk hbefore h hin
  case obufByte =>
    intro s a rest hreset hidle ha h hlost hin
    exact step_read_byte_unwritten (ap := .obuf) hreset nofun (.inr hidle) ha (State.obufByte_unwritten h hlost) hin
  case obufWord =>
    intro s off k rest hreset hidle halign hend hk hbefore h hlost hin
    exact step_read_word_unwritten (ap := .obuf) hreset nofun (.inr hidle) halign hend hk
      (fun j hj => State.obufByte_of_written (hbefore j hj)) (State.obufByte_unwritten h hlost) hin
  case input =>
    intro i hi s a before hlen ha hread h
    have hfreq := freqBody_unwritten hlen ha hread h
    simp only [List.mem_cons, List.not_mem_nil, or_false] at hi
    rw [exec_eq_outcome]
    rcases hi with rfl | rfl
    · rw [commandBody, hfreq]
      rfl
    · rw [commandBody, compressBody, hfreq]
      rfl
  case pack =>
    intro s coded hct hsize hlen hread hcodes hfit h
    rw [exec_eq_outcome, commandBody, packBody_of_fault hct (packAll_unwritten hsize hlen hread hcodes hfit h)]
    rfl
  case header =>
    intro i hi s k before hlen hk hin hwhole hread hmagic h
    have hheader := readContainerBody_of_fault hlen (readHeader_unwritten hlen hk hin hwhole hread hmagic h)
    simp only [List.mem_cons, List.not_mem_nil, or_false] at hi
    rw [exec_eq_outcome]
    rcases hi with rfl | rfl
    · rw [commandBody, hheader]
      rfl
    · rw [commandBody, decompressBody, hheader]
      rfl
  case count =>
    intro s hhdr hpos hsize h
    rw [exec_eq_outcome, commandBody, decodeTableBody_of_fault hhdr (decodeTable_unwritten_count hpos hsize h)]
    rfl
  case entry =>
    intro s count raw hhdr htable hcount pos fin hfin hpos
    have hstop {f : Fault} (h : ∀ left, decodeEntries s fin (left + 1) pos = .error (.fault f)) :
        exec .decodeTable s = .fault f := by
      rw [exec_eq_outcome, commandBody, decodeTableBody_of_fault hhdr (decodeTable_next_entry htable hcount h)]
      rfl
    refine ⟨fun h => ?_, fun hsym hlen h => ?_, fun len k before hsym hlen hne hend hk hread h => ?_⟩
    · exact hstop (decodeEntries_unwritten_symbol hfin hpos h)
    · exact hstop (decodeEntries_unwritten_length hfin hpos hsym hlen h)
    · exact hstop (decodeEntries_unwritten_code hfin hpos hsym hlen hne hend hk hread h)
  case payload =>
    intro s steps c payload hhdr hdtree hfit hleaves hcount hroot hnode hpayload hbits hmore hsize h
    rw [exec_eq_outcome, commandBody, unpackBody_of_stopped hhdr hdtree hfit (by omega)
      (walkPayload_unwritten hleaves hcount hroot hnode hpayload hbits hmore hsize h)]
    rfl

end Sys2Proof.Machine
end

section
/-! The opcode map (spec/30_encoding.md rules R85 to R89): what the decoder answers for each of the 2^32 words, told by the word's
value, and the encoder as its inverse. -/

namespace Sys2Proof

/-! ### The fields of a command word -/

/-- RSV is 0 exactly in the words below 256 (rule R85). -/
theorem reserved_eq_zero_iff (w : Word) : w.extractLsb' 8 24 = 0#24 ↔ w.toNat < 256 := by
  have hw := w.isLt
  rw [← BitVec.toNat_inj, BitVec.extractLsb'_toNat, Nat.shiftRight_eq_div_pow, BitVec.toNat_ofNat]
  omega

theorem opcode_toNat_of_lt {w : Word} (h : w.toNat < 256) : (w.extractLsb' 0 8).toNat = w.toNat := by
  rw [BitVec.extractLsb'_toNat, Nat.shiftRight_zero, Nat.mod_eq_of_lt h]

theorem encode_toNat (i : Instr) : (encode i).toNat = (opcodeOf i).toNat := by
  cases i <;> rfl

/-! ### The opcode map -/

theorem commandOf_opcodeOf (i : Instr) : commandOf (opcodeOf i).toNat = some i := by
  cases i <;> rfl

theorem commandOf_eq_some_iff {n : Nat} {i : Instr} : commandOf n = some i ↔ n = (opcodeOf i).toNat := by
  constructor
  · intro h
    unfold commandOf at h
    split at h <;> cases h <;> rfl
  · rintro rfl
    exact commandOf_opcodeOf i

theorem mem_hcmdOpcodes_iff (n : Nat) : n ∈ hcmdOpcodes ↔ ∃ i, commandOf n = some i := by
  constructor
  · intro hn
    have hall : ∀ m ∈ hcmdOpcodes, (commandOf m).isSome = true := by decide
    exact Option.isSome_iff_exists.mp (hall n hn)
  · rintro ⟨i, h⟩
    rw [commandOf_eq_some_iff.mp h]
    cases i <;> decide

theorem mem_hcmdOpcodeMap_iff (w : Word) (i : Instr) : (i, w) ∈ hcmdOpcodeMap ↔ w = encode i := by
  cases i <;> simp [hcmdOpcodeMap, encode, opcodeOf]

/-! ### The decoder -/

/-- Every word is answered in one of three ways, by its value (rule R89). -/
theorem decode_cases (w : Word) :
    (256 ≤ w.toNat ∧ decode w = .error .reservedBits) ∨
    (w.toNat < 256 ∧ w.toNat ∉ hcmdOpcodes ∧ decode w = .error .unassignedOpcode) ∨
    ∃ i, w.toNat < 256 ∧ w.toNat ∈ hcmdOpcodes ∧ w = encode i ∧ decode w = .ok i := by
  unfold decode
  rcases Nat.lt_or_ge w.toNat 256 with hlt | hge
  · rw [if_neg (not_not.mpr ((reserved_eq_zero_iff w).mpr hlt)), opcode_toNat_of_lt hlt, mem_hcmdOpcodes_iff]
    right
    cases hc : commandOf w.toNat with
    | none => exact .inl ⟨hlt, nofun, rfl⟩
    | some i =>
      have hvalue : w.toNat = (encode i).toNat := (commandOf_eq_some_iff.mp hc).trans (encode_toNat i).symm
      exact .inr ⟨i, hlt, ⟨i, rfl⟩, BitVec.eq_of_toNat_eq hvalue, rfl⟩
  · rw [if_pos fun hrsv => Nat.not_lt.mpr hge ((reserved_eq_zero_iff w).mp hrsv)]
    exact .inl ⟨hge, rfl⟩

theorem decode_encode (i : Instr) : decode (encode i) = .ok i := by
  cases i <;> rfl

theorem decode_eq_ok_iff {w : Word} {i : Instr} : decode w = .ok i ↔ w = encode i := by
  constructor
  · intro h
    rcases decode_cases w with ⟨-, hd⟩ | ⟨-, -, hd⟩ | ⟨j, -, -, hw, hd⟩ <;> rw [hd] at h <;> cases h
    exact hw
  · rintro rfl
    exact decode_encode i

theorem decode_eq_reservedBits_iff (w : Word) : decode w = .error .reservedBits ↔ 256 ≤ w.toNat := by
  rcases decode_cases w with ⟨hge, hd⟩ | ⟨hlt, -, hd⟩ | ⟨i, hlt, -, -, hd⟩
  · simp [hd, hge]
  · simp [hd, hlt]
  · simp [hd, hlt]

theorem decode_eq_unassignedOpcode_iff (w : Word) :
    decode w = .error .unassignedOpcode ↔ w.toNat < 256 ∧ w.toNat ∉ hcmdOpcodes := by
  rcases decode_cases w with ⟨hge, hd⟩ | ⟨hlt, hout, hd⟩ | ⟨i, -, hin, -, hd⟩
  · simp [hd, Nat.not_lt.mpr hge]
  · simp [hd, hlt, hout]
  · simp [hd, hin]

/-! ### The obligations -/

/-- Settles O1: a word decodes to a command exactly when it is the command's encoding, and the other words are told apart by their
value. -/
theorem decodeAndEncodeFollowTheOpcodeMap : Obligations.DecodeAndEncodeFollowTheOpcodeMap := by
  refine ⟨fun w i => ?_, fun i => ⟨?_, decode_encode i⟩, by decide, rfl, decode_eq_reservedBits_iff,
    decode_eq_unassignedOpcode_iff⟩
  · rw [decode_eq_ok_iff, mem_hcmdOpcodeMap_iff]
  · rw [mem_hcmdOpcodeMap_iff]

/-- Settles O2: the sample words are closed terms, on which the decoder computes. -/
theorem sampleWordsDecode : Obligations.SampleWordsDecode :=
  ⟨rfl, rfl, rfl, rfl, rfl, rfl, rfl⟩

end Sys2Proof
end

section
/-! Bits in bytes (spec/30_encoding.md rule R103) and the encoder commands' ends when what they make fits: the serialized table
(rules R101 to R104), the packed payload (rules R106 to R108) and the container (rules R92 and R93). -/

namespace Sys2Proof.Machine

/-! ### Bits in bytes -/

theorem unpackMSB_get {n j : Nat} (hj : j < n) (bytes : List Byte) :
    (unpackMSB n bytes)[j]? = (bytes[j / 8]?).map fun b => b.getLsbD (7 - j % 8) := by
  rw [unpackMSB, List.getElem?_take_of_lt hj, flatMap_bitsOfByte_get]

/-- Settles O24: `packMSB` is described bit by bit, and unpacking reads the bits where packing puts them. -/
theorem bitsArePackedMostSignificantFirst : Obligations.BitsArePackedMostSignificantFirst :=
  ⟨fun bits => ⟨packMSB_length bits, fun _ _ _ hm hb => packMSB_bit hm hb, unpackMSB_packMSB bits⟩,
    fun _ bytes hn => ⟨unpackMSB_length hn, fun _ hj => unpackMSB_get hj bytes⟩⟩

/-! ### ENCODE_TABLE -/

/-- The count byte is the count itself, or 0 for 256 (rule R101). -/
theorem countByte_eq {n : Nat} (hn : n ≤ 256) :
    BitVec.ofNat 8 (n % 256) = if n = 256 then 0#8 else BitVec.ofNat 8 n := by
  split
  · next h => rw [h]
  · rw [Nat.mod_eq_of_lt (by omega)]

/-- Settles O22: codes of legal lengths are written as a count byte and one entry each, in the order of the symbols. -/
theorem encodeTableSerializesTheCodes : Obligations.EncodeTableSerializesTheCodes := by
  intro s hct hne hlen
  have hcount := tableEntries_length_le s.enc.ct
  have htable := encodeTable_ok hne hlen
  rw [countByte_eq hcount] at htable
  exact ⟨mem_tableEntries s.enc.ct, tableEntries_pairwise s.enc.ct, hcount, exec_encodeTable_of_ok hct htable⟩

/-! ### PACK -/

/-- Input bytes that all have codes, whose payload fits, are packed whole (rule R136). -/
theorem packAll_coded {s : State} {input : List Byte} (hread : s.ibuf.readBytes 0 input.length = some input)
    (hsize : input.length ≤ s.ibufSize) (hcodes : ∀ b ∈ input, (codeAt s.enc.ct b).isSome = true)
    (hfit : ((codeBits s.enc.ct input).length + 7) / 8 ≤ s.obufSize) :
    ∃ p, packAll s input.length = .ok p ∧ p.bytes = packMSB (codeBits s.enc.ct input) ∧
      p.bits = (codeBits s.enc.ct input).length := by
  have hfull : (codeBits s.enc.ct input).length / 8 ≤ s.obufSize := by omega
  obtain ⟨p, hp, hgo⟩ := packInput_coded (left := 0) hread (by omega) hcodes packStart_after hfull
  rw [List.nil_append] at hp
  have hflush := packFlush_after s.obufSize input.length hp hfull
  rw [if_pos hfit] at hflush
  refine ⟨{ p with bytes := packMSB (codeBits s.enc.ct input) }, ?_, rfl, hp.1⟩
  rw [packAll, ← Nat.add_zero input.length, hgo]
  exact hflush

/-- PACK's end step when its loops end: only its two products, their flag, DONE and BUSY change. -/
theorem exec_pack_of_ok {s : State} {p : PackState} (hct : s.valid.ct = true)
    (h : packAll s s.enc.ftLen.toNat = .ok p) :
    exec .pack s = .next { s with
      seq := .idle, done := true, valid := { s.valid with pbuf := true },
      enc := { s.enc with pbuf := p.bytes, totalBits := BitVec.ofNat 64 p.bits } } := by
  rw [← packAll_frame (s := s) (t := { s with valid := s.valid.beforePack }) rfl rfl rfl] at h
  rw [exec_eq_outcome, commandBody, packBody, requireFlags_ct _ _ hct]
  dsimp only
  rw [h]
  rfl

/-- Settles O25: the loops pack the whole input, and the flush completes the packed bits. -/
theorem packEncodesTheInput : Obligations.PackEncodesTheInput := by
  intro s input hct hsize hread hcodes hfit
  have hlen : input.length = s.enc.ftLen.toNat := Memory.readBytes_length hread
  rw [← hlen] at hread hsize
  obtain ⟨p, hpack, hbytes, hbits⟩ := packAll_coded hread hsize hcodes hfit
  rw [hlen] at hpack
  rw [exec_pack_of_ok hct hpack, hbytes, hbits]

/-! ### WRITE_CONTAINER -/

theorem exec_writeContainer_of_fits {s : State} (hetab : s.valid.etab = true) (hpbuf : s.valid.pbuf = true)
    (hfit : 16 + s.enc.etab.length + s.enc.pbuf.length ≤ s.obufSize) :
    exec .writeContainer s = .next { s with
      seq := .idle, done := true, obuf := s.obuf.writeBytes 0 (containerBytes s.enc.ftLen s.enc.etab s.enc.pbuf),
      outLen := BitVec.ofNat 32 (16 + s.enc.etab.length + s.enc.pbuf.length) } := by
  rw [exec_eq_outcome, commandBody, writeContainerBody, requireFlags_etab_pbuf _ _ hetab hpbuf]
  dsimp only
  rw [if_neg (Nat.not_lt.mpr hfit), Result.outcome_finish, State.finish]

theorem exec_writeContainer_of_overflow {s : State} (hetab : s.valid.etab = true) (hpbuf : s.valid.pbuf = true)
    (hover : s.obufSize < 16 + s.enc.etab.length + s.enc.pbuf.length) :
    exec .writeContainer s = .next (s.captures 10#8 2#8 0#32 0#3) := by
  rw [exec_eq_outcome, commandBody, writeContainerBody, requireFlags_etab_pbuf _ _ hetab hpbuf]
  dsimp only
  rw [if_pos hover]
  rfl

/-- Settles O27: a container that fits is one run of bytes stored from OBUF 0; one that does not is reported before any store. -/
theorem writeContainerStoresTheContainer : Obligations.WriteContainerStoresTheContainer := by
  intro s hetab hpbuf
  refine ⟨fun hfit => ⟨_, exec_writeContainer_of_fits hetab hpbuf hfit, by dsimp only, fun a => ?_⟩,
    exec_writeContainer_of_overflow hetab hpbuf⟩
  dsimp only
  rw [Memory.read_writeBytes, containerBytes_length, Nat.zero_add]
  simp only [Nat.zero_le, true_and]
  rfl

end Sys2Proof.Machine
end

section
/-! READ_CONTAINER's errors in the order of its checks (spec/41_decoder.md rule R161, spec/30_encoding.md rule R98), and DECODE_TABLE
on whole entries (rule R162). -/

namespace Sys2Proof.Machine

/-! ### The header -/

/-- The comparison stops at the first byte of the magic that is missing or differs, after ones that match (rule R161). -/
theorem checkMagic_stops {s : State} {len i : Nat} {same rest : List Byte} {m : Byte} (hlen : len ≤ s.ibufSize)
    (hread : s.ibuf.readBytes i same.length = some same)
    (h : len = i + same.length ∨
      (i + same.length < len ∧ ∃ b, s.ibuf.read (i + same.length) = some b ∧ b ≠ m)) :
    checkMagic s len i (same ++ m :: rest) =
      .error (.raise { kind := .invalidMagic, offset := i + same.length }) := by
  induction same generalizing i with
  | nil =>
    rw [List.length_nil, Nat.add_zero] at h ⊢
    rw [List.nil_append, checkMagic]
    rcases h with rfl | ⟨hin, b, hb, hne⟩
    · rw [if_pos (Nat.le_refl _)]
    · rw [if_neg (by omega), readIbuf_ok (by omega) hb]
      exact if_neg hne
  | cons b same ih =>
    obtain ⟨hb, hread⟩ := (Memory.readBytes_cons ..).mp hread
    rw [List.length_cons, show i + (same.length + 1) = i + 1 + same.length by omega] at h ⊢
    rw [List.cons_append, checkMagic, if_neg (by omega), readIbuf_ok (by omega) hb]
    exact (if_pos rfl).trans (ih hread h)

theorem readHeader_invalidMagic {s : State} {len k : Nat} (hk : k < 4) (hlen : len ≤ s.ibufSize)
    (hread : s.ibuf.readBytes 0 k = some (magic.take k))
    (h : len = k ∨ (k < len ∧ ∃ b, s.ibuf.read k = some b ∧ magic[k]? ≠ some b)) :
    readHeader s len = .error (.raise { kind := .invalidMagic, offset := k }) := by
  have hkm : k < magic.length := hk
  have hsame : (magic.take k).length = k := List.length_take_of_le (Nat.le_of_lt hkm)
  have hsplit : magic = magic.take k ++ magic[k] :: magic.drop (k + 1) := by
    rw [← List.drop_eq_getElem_cons, List.take_append_drop]
  have hcheck := checkMagic_stops (i := 0) (m := magic[k]) (rest := magic.drop (k + 1)) (same := magic.take k) hlen
    (by rwa [hsame]) (by
      rw [hsame, Nat.zero_add]
      refine h.imp_right fun ⟨hin, b, hb, hne⟩ => ⟨hin, b, hb, fun heq => hne ?_⟩
      rw [heq, List.getElem?_eq_getElem hkm])
  rw [← hsplit, hsame, Nat.zero_add] at hcheck
  unfold readHeader
  rw [hcheck]
  rfl

theorem readHeader_short {s : State} {len : Nat} (hlen : len ≤ s.ibufSize) (hmagic : 4 ≤ len) (hshort : len < 16)
    (hread : s.ibuf.readBytes 0 4 = some magic) :
    readHeader s len = .error (.raise { kind := .truncatedInput, detail := 1#8, offset := len }) := by
  unfold readHeader
  rw [checkMagic_ok (by rw [show magic.length = 4 from rfl]; omega) hlen hread]
  exact if_pos hshort

/-- A whole header is read, and its lengths are then compared with the buffer's, the table's first (rules R98 and R161). -/
theorem readHeader_of_layout {s : State} {len : Nat} {orig plen tlen : Word} (hlen : len ≤ s.ibufSize) (hwhole : 16 ≤ len)
    (hread : s.ibuf.readBytes 0 16 = some (headerLayout orig plen tlen)) :
    readHeader s len =
      if len < 16 + tlen.toNat then .error (.raise { kind := .truncatedInput, detail := 2#8, offset := 12 })
      else if len < 16 + tlen.toNat + plen.toNat then
        .error (.raise { kind := .truncatedInput, detail := 3#8, offset := 8 })
      else .ok (orig, plen, tlen) := by
  obtain ⟨hfirst, htlen⟩ :=
    (Memory.readBytes_append s.ibuf 0 (magic ++ bytesLE32 orig ++ bytesLE32 plen) (bytesLE32 tlen)).mp hread
  obtain ⟨hfirst, hplen⟩ := (Memory.readBytes_append s.ibuf 0 (magic ++ bytesLE32 orig) (bytesLE32 plen)).mp hfirst
  obtain ⟨hmagic, horig⟩ := (Memory.readBytes_append s.ibuf 0 magic (bytesLE32 orig)).mp hfirst
  have hcheck : checkMagic s len 0 magic = .ok () :=
    checkMagic_ok (by rw [show magic.length = 4 from rfl]; omega) hlen hmagic
  unfold readHeader
  rw [hcheck, readIbufLE32_ok (a := 4) (by omega) horig, readIbufLE32_ok (a := 8) (by omega) hplen,
    readIbufLE32_ok (a := 12) (by omega) htlen]
  exact if_neg (Nat.not_lt.mpr hwhole)

/-! ### READ_CONTAINER -/

/-- READ_CONTAINER ends with what its header's read raises, the three decoder flags 0. -/
theorem exec_readContainer_of_raise {s : State} {r : Report} (hlen : s.inLen.toNat ≤ s.ibufSize)
    (h : readHeader s s.inLen.toNat = .error (.raise r)) :
    exec .readContainer s = .next ({ s with valid := s.valid.beforeReadContainer }.raise r) := by
  rw [exec_eq_outcome, commandBody, readContainerBody_of_fits hlen, h]
  rfl

/-- Settles O33: LengthRange comes before the header is read; the others are what its read raises, in the order of its checks. -/
theorem readContainerRaisesInOrder : Obligations.ReadContainerRaisesInOrder := by
  intro s s1
  refine ⟨?range, ?magic, ?header, ?lengths⟩
  case range =>
    intro hlong
    have hbody : readContainerBody s = .raise { kind := .lengthRange } s1 := if_pos hlong
    rw [exec_eq_outcome, commandBody, hbody]
    rfl
  case magic =>
    intro k hk hlen hread h
    exact exec_readContainer_of_raise hlen (readHeader_invalidMagic hk hlen hread h)
  case header =>
    intro hlen hmagic hshort hread
    rw [exec_readContainer_of_raise hlen (readHeader_short hlen hmagic hshort hread), State.raise, BitVec.ofNat_toNat,
      BitVec.setWidth_eq]
    rfl
  case lengths =>
    intro orig plen tlen hlen hwhole hread
    have hheader := readHeader_of_layout hlen hwhole hread
    refine ⟨fun htable => ?_, fun htable hpayload => ?_⟩
    · rw [if_pos htable] at hheader
      exact exec_readContainer_of_raise hlen hheader
    · rw [if_neg (Nat.not_lt.mpr htable), if_pos hpayload] at hheader
      exact exec_readContainer_of_raise hlen hheader

/-! ### DECODE_TABLE -/

/-- Whole entries are read until the declared count is used up or the table ends (rule R162). -/
theorem decodeTable_whole {s : State} {count : Byte} {raw : List RawEntry} (htable : TableStartsWith s count raw)
    (hend : raw.length = declared count ∨
      (raw.length < declared count ∧ 1 + (raw.flatMap RawEntry.bytes).length = s.dec.hdrTlen.toNat)) :
    decodeTable s s.dec.hdrTlen.toNat = .ok (declared count, raw.map RawEntry.entry) := by
  obtain ⟨hcomplete, hread, hsize, hfin⟩ := htable
  rw [Nat.add_comm 1, ← List.length_cons (a := count), Memory.readBytes_cons] at hread
  obtain ⟨hcountByte, hentries⟩ := hread
  obtain ⟨left, hleft⟩ := Nat.exists_eq_add_of_le (show raw.length ≤ declared count by omega)
  rw [decodeTable, if_neg (by omega), readIbuf_ok (by omega) hcountByte]
  simp only [bind, Except.bind]
  rw [declaredCount_eq_declared, hleft, decodeEntries_raw hcomplete hentries (by omega) (by omega),
    decodeEntries_stop s (by omega)]
  simp [Except.map, pure, Except.pure]

/-- DECODE_TABLE's end step when its table is read: only its two products, the decoder's flags, DONE and BUSY change. -/
theorem exec_decodeTable_of_ok {s : State} {decl : Nat} {entries : List (Symbol × Code)} (hhdr : s.valid.hdr = true)
    (h : decodeTable s s.dec.hdrTlen.toNat = .ok (decl, entries)) :
    exec .decodeTable s = .next { s with
      seq := .idle, done := true, dec := { s.dec with dtab := entries, decl := decl },
      valid := { s.valid with dtab := true, dtree := false } } := by
  rw [← decodeTable_frame (s := s) (t := { s with valid := s.valid.beforeDecodeTable }) rfl rfl] at h
  rw [exec_eq_outcome, commandBody, decodeTableBody, requireFlags_hdr _ _ hhdr]
  dsimp only
  rw [h]
  rfl

/-- Settles O34: the loop reads the entries as they stand and stops after the last. -/
theorem decodeTableReadsTheEntries : Obligations.DecodeTableReadsTheEntries := by
  intro s count raw hhdr htable hend
  exact exec_decodeTable_of_ok hhdr (decodeTable_whole htable hend)

end Sys2Proof.Machine
end

section
/-! What each command leaves of the products and of VALID (spec/40_encoder.md rules R120 to R124, spec/41_decoder.md rule R160),
how its first missing prerequisite ends it (rule R121), and FREQ's three ends (rule R123). -/

namespace Sys2Proof.Machine

/-! ### The steps of the composites -/

/-- The end of a command writes STATUS and the capture registers, so what its body left of the rest, the command leaves. -/
theorem Result.Leaves.of_exec {P : State → Prop} {i : Instr} {s t : State} (hx : (commandBody i s).Leaves P)
    (hend : ∀ u, P u → P u.finish ∧ ∀ r, P (u.raise r)) (h : exec i s = .next t) : P t := by
  rw [exec_eq_outcome] at h
  obtain ⟨u, hu, rfl | ⟨r, rfl⟩⟩ := hx.of_outcome h
  · exact (hend u hu).1
  · exact (hend u hu).2 r

/-- COMPRESS's steps in order (rule R138). -/
def compressSteps : List Instr := [.freq, .buildTree, .deriveCodes, .encodeTable, .pack, .writeContainer]

/-- DECOMPRESS's steps in order (rule R166). -/
def decompressSteps : List Instr := [.readContainer, .decodeTable, .rebuildTree, .unpack]

theorem commandBody_step_keeps {P : State → Prop} {steps : List Instr} (hc : .compress ∉ steps) (hd : .decompress ∉ steps)
    (hP : ∀ i ∈ steps, ∀ s u, P s → BodyLeaves i s u → P u) {i : Instr} (hi : i ∈ steps) (s : State) (hs : P s) :
    (commandBody i s).Leaves P :=
  (commandBody_leaves (fun h => hc (h ▸ hi)) (fun h => hd (h ▸ hi)) s).imp fun u => hP i hi s u hs

/-- What each of its steps keeps, COMPRESS keeps. -/
theorem compressBody_keeps {P : State → Prop} (hP : ∀ i ∈ compressSteps, ∀ s u, P s → BodyLeaves i s u → P u) {s : State}
    (hs : P s) : (compressBody s).Leaves P := by
  have hstep {i : Instr} := commandBody_step_keeps (i := i) (by decide) (by decide) hP
  exact (hstep (i := .freq) (by decide) s hs).andThen (hstep (i := .buildTree) (by decide))
    |>.andThen (hstep (i := .deriveCodes) (by decide)) |>.andThen (hstep (i := .encodeTable) (by decide))
    |>.andThen (hstep (i := .pack) (by decide)) |>.andThen (hstep (i := .writeContainer) (by decide))

/-- What each of its steps keeps, DECOMPRESS keeps. -/
theorem decompressBody_keeps {P : State → Prop} (hP : ∀ i ∈ decompressSteps, ∀ s u, P s → BodyLeaves i s u → P u)
    {s : State} (hs : P s) : (decompressBody s).Leaves P := by
  have hstep {i : Instr} := commandBody_step_keeps (i := i) (by decide) (by decide) hP
  exact (hstep (i := .readContainer) (by decide) s hs).andThen (hstep (i := .decodeTable) (by decide))
    |>.andThen (hstep (i := .rebuildTree) (by decide)) |>.andThen (hstep (i := .unpack) (by decide))

/-! ### The products -/

/-- Nothing of the decoder changes: neither its products nor its flags. -/
def DecoderKept (s u : State) : Prop :=
  u.dec = s.dec ∧ u.valid.hdr = s.valid.hdr ∧ u.valid.dtab = s.valid.dtab ∧ u.valid.dtree = s.valid.dtree

/-- Nothing of the encoder changes: neither its products nor its flags. -/
def EncoderKept (s u : State) : Prop :=
  u.enc = s.enc ∧ u.valid = { s.valid with hdr := u.valid.hdr, dtab := u.valid.dtab, dtree := u.valid.dtree }

theorem DecoderKept.trans {s u w : State} (h : DecoderKept s u) (h' : DecoderKept u w) : DecoderKept s w := by
  obtain ⟨hdec, hhdr, hdtab, hdtree⟩ := h
  obtain ⟨hdec', hhdr', hdtab', hdtree'⟩ := h'
  exact ⟨hdec'.trans hdec, hhdr'.trans hhdr, hdtab'.trans hdtab, hdtree'.trans hdtree⟩

theorem EncoderKept.trans {s u w : State} (h : EncoderKept s u) (h' : EncoderKept u w) : EncoderKept s w := by
  obtain ⟨henc, hvalid⟩ := h
  obtain ⟨henc', hvalid'⟩ := h'
  refine ⟨henc'.trans henc, ?_⟩
  rw [hvalid] at hvalid'
  exact hvalid'

theorem BodyLeaves.decoderKept {i : Instr} {s u : State} (hi : i ∈ compressSteps) (h : BodyLeaves i s u) :
    DecoderKept s u := by
  cases h with
  | cleared | readContainerStopped | headerRead | decodeTableStopped | decoded | rebuildTreeStopped | rebuilt |
      unpackedNothing | unpacked | unpackStopped => exact absurd hi (by decide)
  | _ => exact ⟨rfl, rfl, rfl, rfl⟩

theorem BodyLeaves.encoderKept {i : Instr} {s u : State} (hi : i ∈ decompressSteps) (h : BodyLeaves i s u) :
    EncoderKept s u := by
  cases h with
  | unchanged | readContainerStopped | headerRead | decodeTableStopped | decoded | rebuildTreeStopped | rebuilt |
      unpackedNothing | unpacked | unpackStopped => exact ⟨rfl, rfl⟩
  | _ => exact absurd hi (by decide)

theorem compressBody_decoderKept (s : State) : (compressBody s).Leaves (DecoderKept s) :=
  compressBody_keeps (fun _ hi _ _ hs h => hs.trans (h.decoderKept hi)) ⟨rfl, rfl, rfl, rfl⟩

theorem decompressBody_encoderKept (s : State) : (decompressBody s).Leaves (EncoderKept s) :=
  decompressBody_keeps (fun _ hi _ _ hs h => hs.trans (h.encoderKept hi)) ⟨rfl, rfl⟩

/-- Settles O9: a command of one step leaves what its body's ends say, a composite what each of its steps leaves. The commands
whose invalidation the statement asks for need the cases of their own bodies, which tell a missing prerequisite apart. -/
theorem commandsWriteOnlyTheirOwnProducts : Obligations.CommandsWriteOnlyTheirOwnProducts := by
  intro s t
  refine ⟨?nop, ?clear, ?freq, ?buildTree, ?deriveCodes, ?encodeTable, ?pack, ?writeContainer, ?compress, ?readContainer,
    ?decodeTable, ?rebuildTree, ?unpack, ?decompress⟩ <;> intro hexec <;>
    apply Result.Leaves.of_exec (t := t) (hend := fun _ h => ⟨h, fun _ => h⟩) (h := hexec)
  case nop => exact ⟨rfl, rfl, rfl⟩
  case clear => exact ⟨rfl, rfl⟩
  case freq =>
    rw [commandBody]
    rcases freqBody_cases s with ⟨-, h⟩ | ⟨-, -, h⟩ | ⟨bytes, -, -, -, -, h⟩ | ⟨f, h⟩ <;> rw [h]
    · exact ⟨rfl, rfl, rfl⟩
    · exact ⟨rfl, rfl, rfl⟩
    · exact ⟨rfl, rfl, rfl⟩
    · trivial
  case buildTree =>
    rw [commandBody]
    rcases buildTreeBody_cases s with ⟨hft, h⟩ | ⟨tree, -, -, h⟩ | ⟨-, -, h⟩ <;> rw [h]
    · exact ⟨rfl, rfl, fun hset => absurd (hft.symm.trans hset) nofun⟩
    · exact ⟨rfl, rfl, fun _ => rfl⟩
    · trivial
  case deriveCodes =>
    rw [commandBody]
    rcases deriveCodesBody_cases s with ⟨hetree, h⟩ | ⟨-, h⟩ <;> rw [h]
    · exact ⟨rfl, rfl, fun hset => absurd (hetree.symm.trans hset) nofun⟩
    · exact ⟨rfl, rfl, fun _ => rfl⟩
  case encodeTable =>
    refine (encodeTableBody_leaves s).imp fun u hu => ?_
    cases hu <;> exact ⟨rfl, rfl, rfl⟩
  case pack =>
    refine (packBody_leaves s).imp fun u hu => ?_
    cases hu <;> exact ⟨rfl, rfl, rfl⟩
  case writeContainer =>
    refine (writeContainerBody_leaves s).imp fun u hu => ?_
    cases hu <;> exact ⟨rfl, rfl, rfl⟩
  case compress => exact compressBody_decoderKept s
  case readContainer =>
    rw [commandBody]
    rcases readContainerBody_cases s with ⟨r, -, h⟩ | ⟨hdr, -, -, h⟩ | ⟨f, h⟩ <;> rw [h]
    · exact ⟨rfl, rfl, rfl⟩
    · exact ⟨rfl, rfl, rfl⟩
    · trivial
  case decodeTable =>
    rw [commandBody]
    rcases decodeTableBody_cases s with ⟨hhdr, h⟩ | ⟨r, -, -, h⟩ | ⟨d, -, -, h⟩ | ⟨f, h⟩ <;> rw [h]
    · exact ⟨rfl, rfl, fun hset => absurd (hhdr.symm.trans hset) nofun⟩
    · exact ⟨rfl, rfl, fun _ => rfl⟩
    · exact ⟨rfl, rfl, fun _ => rfl⟩
    · trivial
  case rebuildTree =>
    refine (rebuildTreeBody_leaves s).imp fun u hu => ?_
    cases hu <;> exact ⟨rfl, rfl, rfl⟩
  case unpack =>
    refine (unpackBody_leaves s).imp fun u hu => ?_
    cases hu <;> exact ⟨rfl, rfl, rfl⟩
  case decompress => exact decompressBody_encoderKept s

/-! ### Prerequisites -/

/-- A command that needs a flag begins with the check of its flags. -/
theorem commandBody_eq_requireFlags {i : Instr} (h : needs i ≠ []) :
    ∃ k, ∀ s, commandBody i s = requireFlags (needs i) s k := by
  cases i with
  | nop | compress | decompress | freq | readContainer | clear => exact absurd rfl h
  | _ => exact ⟨_, fun _ => rfl⟩

/-- Settles O13: the check comes first in the body and stops at its first flag that is 0. -/
theorem missingFlagRaisesSequenceError : Obligations.MissingFlagRaisesSequenceError := by
  intro i before after b s hneeds hbefore hb
  obtain ⟨k, hk⟩ := commandBody_eq_requireFlags (i := i) (by simp [hneeds])
  rw [exec_eq_outcome, hk, hneeds, requireFlags_missing k (firstMissing_some hbefore hb)]
  rfl

/-! ### FREQ -/

theorem freqBody_of_long {s : State} (h : s.ibufSize < s.inLen.toNat) :
    freqBody s = .raise { kind := .lengthRange } { s with valid := s.valid.beforeFreq } := if_pos h

theorem freqBody_of_empty {s : State} (h : s.inLen.toNat = 0) :
    freqBody s = .raise { kind := .emptyInput } { s with valid := s.valid.beforeFreq } :=
  have hfits : ¬ s.ibufSize < s.inLen.toNat := by omega
  (if_neg hfits).trans (if_pos h)

/-- Settles O14: FREQ's body compares IN_LEN with its two bounds and then counts the bytes it reads. -/
theorem freqCountsTheInput : Obligations.FreqCountsTheInput := by
  intro s cleared
  refine ⟨fun input hpos hle hread => ⟨countSymbols input, freqAt_countSymbols input, ?_⟩, fun hlong => ?_, fun hzero => ?_⟩
  · rw [exec_eq_outcome, commandBody, freqBody_finish hpos hle hread]
    rfl
  · rw [exec_eq_outcome, commandBody, freqBody_of_long hlong]
    rfl
  · rw [exec_eq_outcome, commandBody, freqBody_of_empty hzero]
    rfl

/-- Only FREQ writes the counts and FT_LEN; CLEAR too leaves the products themselves (log entry 4). -/
theorem BodyLeaves.counts_eq {i : Instr} {s u : State} (hi : i ≠ .freq) (h : BodyLeaves i s u) :
    u.enc.ft = s.enc.ft ∧ u.enc.ftLen = s.enc.ftLen := by
  cases h with
  | freqStopped | counted => exact absurd rfl hi
  | _ => exact ⟨rfl, rfl⟩

/-- Settles O15: FREQ counts every byte of its input once, and none of the other bodies writes the counts. -/
theorem freqCountsSumToTheLength : Obligations.FreqCountsSumToTheLength := by
  intro s t
  refine ⟨fun h hft => ?_, fun i hfreq hcompress _ h => ?_⟩
  · rw [exec_eq_outcome, commandBody] at h
    rcases freqBody_cases s with ⟨-, hb⟩ | ⟨-, -, hb⟩ | ⟨bytes, -, -, -, hlen, hb⟩ | ⟨f, hb⟩ <;> rw [hb] at h <;> cases h
    · cases hft
    · cases hft
    · exact ⟨(freqSum_countSymbols (hlen ▸ s.inLen.isLt)).trans hlen, rfl⟩
  · apply Result.Leaves.of_exec (t := t) (hend := fun _ h => ⟨h, fun _ => h⟩) (h := h)
    by_cases hd : i = .decompress
    · subst hd
      exact (decompressBody_encoderKept s).imp fun u ⟨henc, _⟩ => ⟨by rw [henc], by rw [henc]⟩
    · exact (commandBody_leaves hcompress hd s).imp fun u hu => hu.counts_eq hfreq

end Sys2Proof.Machine
end

section
/-! BUILD_TREE (rules R125 to R131): it finishes whenever a symbol is present, by merges of the two lowest nodes, and what its
tree's weights, sizes and depths are. -/

namespace Sys2Proof.Machine

/-! ### The command -/

theorem buildTreeBody_of_some {s : State} {tree : ETree} (hft : s.valid.ft = true) (h : buildTree s.enc.ft = some tree) :
    buildTreeBody s = .finish { s with
      valid := { s.valid.beforeBuildTree with etree := true }, enc := { s.enc with etree := tree } } := by
  rw [buildTreeBody, requireFlags_ft _ _ hft]
  dsimp only
  rw [h]

/-- BUILD_TREE's end step when the counts have a tree: only ETREE, the flags its rule names, DONE and BUSY change. -/
theorem exec_buildTree_of_some {s : State} {tree : ETree} (hft : s.valid.ft = true) (h : buildTree s.enc.ft = some tree) :
    exec .buildTree s = .next { s with
      seq := .idle, done := true, enc := { s.enc with etree := tree },
      valid := { s.valid with etree := true, ct := false, etab := false, pbuf := false } } := by
  rw [exec_eq_outcome, commandBody, buildTreeBody_of_some hft h]
  rfl

theorem queueOrder_irrefl (x : QNode) : ¬ queueOrder x x := by
  rintro (h | ⟨-, h⟩) <;> exact Nat.lt_irrefl _ h

/-- Two nodes of the collection are two leaves of different symbols, so with one symbol present there is one node. -/
theorem initialQueue_of_one {t : FreqTable} {b : Symbol} (hb : freqAt t b ≠ 0#32)
    (honly : ∀ c : Symbol, c ≠ b → freqAt t c = 0#32) : initialQueue t = [leafNode t b] := by
  have hleaf : ∀ x ∈ initialQueue t, x = leafNode t b := by
    intro x hx
    obtain ⟨c, hc, rfl⟩ := mem_initialQueue.mp hx
    by_cases hcb : c = b
    · rw [hcb]
    · exact absurd (honly c hcb) hc
  have hsorted := initialQueue_pairwise t
  match hq : initialQueue t with
  | [] => exact absurd (mem_initialQueue.mpr ⟨b, hb, rfl⟩) (hq ▸ List.not_mem_nil)
  | [x] => rw [hleaf x (hq ▸ List.mem_cons_self ..)]
  | x :: y :: q =>
    have hx := hleaf x (hq ▸ List.mem_cons_self ..)
    have hy := hleaf y (hq ▸ List.mem_cons_of_mem x (List.mem_cons_self ..))
    rw [hq, hx, hy] at hsorted
    exact absurd ((List.pairwise_cons.mp hsorted).1 _ (List.mem_cons_self ..)) (queueOrder_irrefl _)

theorem buildTree_of_queue_singleton {t : FreqTable} {x : QNode} (h : initialQueue t = [x]) :
    buildTree t = some (.single x.weight x.tree) := by
  rcases buildTree_cases t with ⟨hq, -⟩ | ⟨y, hq, ht⟩ | ⟨tree, hlen, -, -⟩
  · exact absurd (h.symm.trans hq) nofun
  · rw [h] at hq
    cases hq
    exact ht
  · rw [h] at hlen
    exact absurd hlen (by simp)

/-- Settles O16: a symbol present puts a leaf into the collection; a single one is the collection. -/
theorem buildTreeFinishes : Obligations.BuildTreeFinishes := by
  intro s hft hpresent
  obtain ⟨tree, htree⟩ := (buildTree_isSome_iff s.enc.ft).mpr hpresent
  refine ⟨tree, htree, fun b hb honly => ?_, exec_buildTree_of_some hft htree⟩
  rw [buildTree_of_queue_singleton (initialQueue_of_one hb honly)] at htree
  cases htree
  rfl

/-! ### The merges -/

/-- With two symbols or more the tree is the merge loop's (rule R127). -/
theorem buildTree_eq_mergeLoop {t : FreqTable} (h : 2 ≤ countPresent t) :
    buildTree t = mergeLoop (initialQueue t).length 0 (initialQueue t) := by
  rw [← initialQueue_length] at h
  rcases buildTree_cases t with ⟨hq, -⟩ | ⟨x, hq, -⟩ | ⟨tree, -, hloop, ht⟩
  · rw [hq] at h
    exact absurd h (by simp)
  · rw [hq] at h
    exact absurd h (by simp)
  · rw [ht, hloop]

theorem buildTree_mergesTo {t : FreqTable} {tree : ETree} (htwo : 2 ≤ countPresent t) (hsum : freqSum t < 2 ^ 32)
    (h : buildTree t = some tree) : MergesTo 0 (presentLeaves t) tree := by
  rw [buildTree_eq_mergeLoop htwo] at h
  exact (mergeLoop_mergesTo hsum (initialQueue_mergeInv t) h).of_perm (initialQueue_perm t).symm

/-- Settles O17: the laws of the collection, and the loop's tree as the merges that its order makes the rule's. -/
theorem mergesTakeTheTwoLowest : Obligations.MergesTakeTheTwoLowest := by
  refine ⟨fun t => ⟨initialQueue_mergeInv t, initialQueue_perm t⟩, fun x q => ⟨enqueue_perm x q, enqueue_pairwise⟩,
    fun total m x y q htotal hinv => ?merge, fun _ _ _ _ _ => rfl, fun t => buildTree_eq_mergeLoop,
    fun s hft htwo hsum => ?finish⟩
  case merge =>
    obtain ⟨hweight, hinv'⟩ := hinv.merge htotal
    obtain ⟨hx, hsorted⟩ := List.pairwise_cons.mp hinv.sorted
    exact ⟨hweight, hx, (List.pairwise_cons.mp hsorted).1, hinv'⟩
  case finish =>
    obtain ⟨tree, htree⟩ := mergeLoop_isSome (fuel := (initialQueue s.enc.ft).length) (m := 0)
      (q := initialQueue s.enc.ft) (List.ne_nil_of_length_pos (by rw [initialQueue_length]; omega)) (Nat.le_succ _)
    rw [← buildTree_eq_mergeLoop htwo] at htree
    exact ⟨tree, buildTree_mergesTo htwo hsum htree, htree, exec_buildTree_of_some hft htree⟩

/-! ### The weights -/

theorem initialQueue_weights {t : FreqTable} {x : QNode} (h : x ∈ initialQueue t) :
    x.tree.weight = x.weight ∧ x.tree.WeightsFrom t := by
  obtain ⟨b, hb, rfl⟩ := mem_initialQueue.mp h
  exact ⟨rfl, rfl, hb⟩

/-- Rule R128 for every table whose counts' sum is a u32. -/
theorem buildTree_weights {t : FreqTable} {tree : ETree} (hsum : freqSum t < 2 ^ 32) (h : buildTree t = some tree) :
    tree.WeightsFrom t ∧ tree.weight.toNat = freqSum t := by
  rcases buildTree_cases t with ⟨-, h'⟩ | ⟨x, hq, h'⟩ | ⟨tree', -, hloop, h'⟩ <;> rw [h'] at h <;> cases h
  · have htotal := (initialQueue_mergeInv t).total
    rw [hq, List.map_singleton, List.sum_singleton] at htotal
    obtain ⟨hweight, hfrom⟩ := initialQueue_weights (t := t) (x := x) (hq ▸ List.mem_cons_self ..)
    exact ⟨⟨hweight.symm, hfrom⟩, htotal⟩
  · exact mergeLoop_weights hsum (initialQueue_mergeInv t) (fun _ => initialQueue_weights) hloop

/-- Settles O18: under the invariant the counts sum to FT_LEN, a u32. -/
theorem treeWeightsAreTheCounts : Obligations.TreeWeightsAreTheCounts := by
  refine ⟨fun t tree => buildTree_weights, fun s hs hetree => ?_⟩
  have hsum := hs.ft_sum (hs.etree_ft hetree)
  obtain ⟨hfrom, hweight⟩ := buildTree_weights (hsum ▸ s.enc.ftLen.isLt) (hs.etree_built hetree)
  exact ⟨hfrom, BitVec.eq_of_toNat_eq (hweight.trans hsum)⟩

/-! ### The size and the depth -/

/-- Every internal node has two children: the trees of the merge loop, which makes no rule R131 root. -/
def ETree.Full : ETree → Prop
  | .leaf _ _ => True
  | .node _ l r => l.Full ∧ r.Full
  | .single _ _ => False

theorem mergeLoop_full {fuel m : Nat} {q : List QNode} {tree : ETree} (hq : ∀ x ∈ q, x.tree.Full)
    (h : mergeLoop fuel m q = some tree) : tree.Full := by
  obtain ⟨n, x, hx, rfl⟩ := mergeLoop_result (P := fun _ q => ∀ x ∈ q, x.tree.Full)
    (fun m x y q hq z hz => by
      rcases List.mem_cons.mp ((enqueue_perm _ q).mem_iff.mp hz) with rfl | hz
      · exact ⟨hq x (.head _), hq y (.tail _ (.head _))⟩
      · exact hq z (.tail _ (.tail _ hz))) hq h
  exact hx x (.head _)

/-- The two shapes of a built tree (rules R127 and R131): a root above the one leaf, or two children everywhere. -/
theorem buildTree_shape {t : FreqTable} {tree : ETree} (h : buildTree t = some tree) :
    (countPresent t = 1 ∧ ∃ w s v, tree = .single w (.leaf s v)) ∨ (2 ≤ countPresent t ∧ tree.Full) := by
  have hfull : ∀ x ∈ initialQueue t, x.tree.Full := by
    intro x hx
    obtain ⟨b, -, rfl⟩ := mem_initialQueue.mp hx
    trivial
  rw [← initialQueue_length]
  rcases buildTree_cases t with ⟨-, h'⟩ | ⟨x, hq, h'⟩ | ⟨tree', hlen, hloop, h'⟩ <;> rw [h'] at h <;> cases h
  · obtain ⟨b, -, rfl⟩ := (mem_initialQueue (t := t) (x := x)).mp (hq ▸ List.mem_cons_self ..)
    exact .inl ⟨by rw [hq]; rfl, _, _, _, rfl⟩
  · exact .inr ⟨hlen, mergeLoop_full hfull hloop⟩

theorem ETree.leafCount_eq (e : ETree) : e.leafCount = e.symbols.length := by
  induction e with
  | leaf s w => rfl
  | node w l r ihl ihr => rw [leafCount, symbols, List.length_append, ihl, ihr]
  | single w l ih => exact ih

theorem ETree.Full.internalCount {e : ETree} (h : e.Full) : e.internalCount + 1 = e.leafCount := by
  induction e with
  | leaf s w => rfl
  | node w l r ihl ihr =>
    have hl := ihl h.1
    have hr := ihr h.2
    rw [ETree.internalCount, leafCount]
    omega
  | single w l => exact h.elim

/-- Settles O19: the leaves are the symbols present, two children everywhere count the nodes, and no leaf is deeper than the
other leaves are many. -/
theorem treeDepthIsBounded : Obligations.TreeDepthIsBounded := by
  intro t tree h
  have hleaves : tree.leafCount = countPresent t := by rw [ETree.leafCount_eq, buildTree_symbols_length h]
  refine ⟨hleaves, fun htwo => ?_, fun c b hc => ?_⟩
  · rcases buildTree_shape h with ⟨hone, -⟩ | ⟨-, hfull⟩
    · omega
    · have := hfull.internalCount
      omega
  · obtain ⟨hpos, hmax⟩ := buildTree_depth_bounds h hc
    have := buildTree_depth_le h hc
    exact ⟨hpos, hmax, by omega, by omega⟩

end Sys2Proof.Machine
end

section
/-! DERIVE_CODES (rules R132 to R134): the codes are the paths of the tree's leaves; none begins another, and their lengths fill
the code space. -/

namespace Sys2Proof.Machine

/-! ### The command -/

theorem deriveCodesBody_of_valid {s : State} (h : s.valid.etree = true) :
    deriveCodesBody s = .finish { s with
      valid := { s.valid.beforeDeriveCodes with ct := true }, enc := { s.enc with ct := deriveCodes s.enc.etree } } := by
  rw [deriveCodesBody, requireFlags_etree _ _ h]

/-- DERIVE_CODES's end step with ETREE valid: only CT, the flags its rule names, DONE and BUSY change. -/
theorem exec_deriveCodes_of_valid {s : State} (h : s.valid.etree = true) :
    exec .deriveCodes s = .next { s with
      seq := .idle, done := true, enc := { s.enc with ct := deriveCodes s.enc.etree },
      valid := { s.valid with ct := true, etab := false, pbuf := false } } := by
  rw [exec_eq_outcome, commandBody, deriveCodesBody_of_valid h]
  rfl

/-- Settles O20: the walk records each leaf's path. -/
theorem deriveCodesRecordsThePaths : Obligations.DeriveCodesRecordsThePaths := by
  intro s hetree hunique
  exact ⟨deriveCodes s.enc.etree, codeAt_deriveCodes hunique, exec_deriveCodes_of_valid hetree⟩

/-! ### The paths of a tree's leaves -/

/-- The leaves' symbols with their paths, from left to right. -/
def ETree.paths : ETree → List (Symbol × Code)
  | .leaf s _ => [(s, [])]
  | .node _ l r => l.paths.map (Prod.map id (false :: ·)) ++ r.paths.map (Prod.map id (true :: ·))
  | .single _ l => l.paths.map (Prod.map id (false :: ·))

theorem ETree.paths_symbols (e : ETree) : e.paths.map Prod.fst = e.symbols := by
  induction e with
  | leaf s w => rfl
  | node w l r ihl ihr => simp [paths, symbols, ← ihl, ← ihr, Function.comp_def]
  | single w l ih => simp [paths, symbols, ← ih, Function.comp_def]

theorem ETree.mem_paths {e : ETree} {b : Symbol} {c : Code} : (b, c) ∈ e.paths ↔ e.leafAt c = some b := by
  induction e generalizing c with
  | leaf s w => cases c <;> simp [paths, leafAt, eq_comm]
  | node w l r ihl ihr =>
    match c with
    | [] => simp [paths, leafAt]
    | false :: c => simp [paths, leafAt, ← ihl]
    | true :: c => simp [paths, leafAt, ← ihr]
  | single w l ih =>
    match c with
    | [] => simp [paths, leafAt]
    | false :: c => simp [paths, leafAt, ← ih]
    | true :: c => simp [paths, leafAt]

/-- A path to a leaf goes through no other leaf. -/
theorem ETree.leafAt_prefix {e : ETree} {c d : Code} {b a : Symbol} (hc : e.leafAt c = some b) (hd : e.leafAt d = some a)
    (h : c <+: d) : b = a := by
  induction e generalizing c d with
  | leaf s w =>
    match c, d, hc, hd with
    | [], [], hc, hd => exact Option.some.inj (hc.symm.trans hd)
  | node w l r ihl ihr =>
    match c, d, hc, hd, h with
    | false :: c, false :: d, hc, hd, h => exact ihl hc hd (List.cons_prefix_cons.mp h).2
    | true :: c, true :: d, hc, hd, h => exact ihr hc hd (List.cons_prefix_cons.mp h).2
    | false :: c, true :: d, _, _, h => exact absurd (List.cons_prefix_cons.mp h).1 nofun
    | true :: c, false :: d, _, _, h => exact absurd (List.cons_prefix_cons.mp h).1 nofun
  | single w l ih =>
    match c, d, hc, hd, h with
    | false :: c, false :: d, hc, hd, h => exact ih hc hd (List.cons_prefix_cons.mp h).2

/-- A built tree's codes are its paths, in ascending order of the symbols. -/
theorem buildTree_tableEntries_perm {t : FreqTable} {tree : ETree} (h : buildTree t = some tree) :
    (tableEntries (deriveCodes tree)).Perm tree.paths := by
  have hpaths : tree.paths.Nodup := .of_map Prod.fst (by rw [ETree.paths_symbols]; exact buildTree_symbols_nodup h)
  refine (List.perm_ext_iff_of_nodup (.of_map Prod.fst (tableEntries_nodup _)) hpaths).mpr fun ⟨b, c⟩ => ?_
  rw [mem_tableEntries, buildTree_codeAt_iff h, ETree.mem_paths]

theorem buildTree_tableEntries_length {t : FreqTable} {tree : ETree} (h : buildTree t = some tree) :
    (tableEntries (deriveCodes tree)).length = countPresent t := by
  rw [(buildTree_tableEntries_perm h).length_eq, ← List.length_map (f := Prod.fst), ETree.paths_symbols,
    buildTree_symbols_length h]

theorem buildTree_codeAt_isSome_iff {t : FreqTable} {tree : ETree} (h : buildTree t = some tree) (b : Symbol) :
    (codeAt (deriveCodes tree) b).isSome = true ↔ freqAt t b ≠ 0#32 := by
  rw [← buildTree_leafAt_iff h, Option.isSome_iff_exists]
  exact exists_congr fun c => buildTree_codeAt_iff h b c

/-! ### No code begins another -/

theorem buildTree_not_prefix {t : FreqTable} {tree : ETree} (h : buildTree t = some tree) {b c : Symbol} {x y : Code}
    (hne : b ≠ c) (hx : codeAt (deriveCodes tree) b = some x) (hy : codeAt (deriveCodes tree) c = some y) : ¬ x <+: y :=
  fun hp => hne (ETree.leafAt_prefix ((buildTree_codeAt_iff h b x).mp hx) ((buildTree_codeAt_iff h c y).mp hy) hp)

theorem buildTree_prefixFree {t : FreqTable} {tree : ETree} (h : buildTree t = some tree) :
    PrefixFree (tableEntries (deriveCodes tree)) := by
  refine (tableEntries_pairwise _).imp_of_mem fun {e f} he hf hlt => ?_
  have hne : e.1 ≠ f.1 := fun heq => Nat.lt_irrefl _ (heq ▸ hlt)
  have hx := (mem_tableEntries _ e.1 e.2).mp he
  have hy := (mem_tableEntries _ f.1 f.2).mp hf
  exact ⟨buildTree_not_prefix h hne hx hy, buildTree_not_prefix h hne.symm hy hx⟩

/-! ### The code space -/

/-- The part of the code space that entries take: the sum of 2^(−length) (rule R133). -/
def codeSpace (entries : List (Symbol × Code)) : ℚ := (entries.map fun e => (1 / 2 : ℚ) ^ e.2.length).sum

theorem codeSpace_append (xs ys : List (Symbol × Code)) : codeSpace (xs ++ ys) = codeSpace xs + codeSpace ys := by
  simp [codeSpace]

/-- One bit more on every path halves the part they take. -/
theorem codeSpace_cons (b : Bool) (entries : List (Symbol × Code)) :
    codeSpace (entries.map (Prod.map id (b :: ·))) = 1 / 2 * codeSpace entries := by
  rw [codeSpace, codeSpace, ← List.sum_map_mul_left, List.map_map]
  simp [Function.comp_def, pow_succ, mul_comm]

theorem ETree.Full.codeSpace_paths {e : ETree} (h : e.Full) : codeSpace e.paths = 1 := by
  induction e with
  | leaf s w => simp [paths, codeSpace]
  | node w l r ihl ihr =>
    rw [paths, codeSpace_append, codeSpace_cons, codeSpace_cons, ihl h.1, ihr h.2]
    norm_num
  | single w l => exact h.elim

theorem buildTree_codeSpace {t : FreqTable} {tree : ETree} (h : buildTree t = some tree) :
    codeSpace (tableEntries (deriveCodes tree)) = if countPresent t = 1 then 1 / 2 else 1 := by
  have hperm : codeSpace (tableEntries (deriveCodes tree)) = codeSpace tree.paths :=
    ((buildTree_tableEntries_perm h).map _).sum_eq
  rw [hperm]
  rcases buildTree_shape h with ⟨hone, w, s, v, rfl⟩ | ⟨htwo, hfull⟩
  · rw [if_pos hone, ETree.paths, codeSpace_cons, ETree.Full.codeSpace_paths (e := .leaf s v) trivial, mul_one]
  · rw [if_neg (by omega), hfull.codeSpace_paths]

/-- Settles O21: DERIVE_CODES only finishes with ETREE valid, and the invariant makes that a tree BUILD_TREE made. -/
theorem derivedCodesAreAPrefixCode : Obligations.DerivedCodesAreAPrefixCode := by
  intro s t hs h hct
  have hetree : s.valid.etree = true := by
    rw [exec_eq_outcome, commandBody] at h
    rcases deriveCodesBody_cases s with ⟨-, hb⟩ | ⟨hetree, -⟩
    · rw [hb] at h
      cases h
      exact hs.ct_etree hct
    · exact hetree
  rw [exec_deriveCodes_of_valid hetree] at h
  cases h
  have htree := hs.etree_built hetree
  exact ⟨buildTree_codeAt_isSome_iff htree, buildTree_prefixFree htree, fun b c x y => buildTree_not_prefix htree,
    buildTree_codeSpace htree, fun b c hc => (buildTree_depth_bounds htree ((buildTree_codeAt_iff htree b c).mp hc)).1⟩

end Sys2Proof.Machine
end

section
/-! PACK's errors (rule R136): the first input byte without a code, or the one whose bits or whose final partial byte OBUF_SIZE
leaves no room for. -/

namespace Sys2Proof.Machine

/-! ### Where the loops stop -/

section
variable {s : State} {n : Nat} {coded : List Byte} (hsize : n ≤ s.ibufSize)
  (hread : s.ibuf.readBytes 0 coded.length = some coded) (hcodes : ∀ b ∈ coded, (codeAt s.enc.ct b).isSome = true)
  (hfit : (codeBits s.enc.ct coded).length / 8 ≤ s.obufSize)
include hsize hread hcodes hfit

theorem packAll_noCode {b : Byte} (hlen : coded.length < n) (hb : s.ibuf.read coded.length = some b)
    (hnone : codeAt s.enc.ct b = none) :
    packAll s n = .error (.raise { kind := .noCode, offset := coded.length }) := by
  obtain ⟨left, rfl⟩ := Nat.exists_eq_add_of_lt hlen
  obtain ⟨p, -, hgo⟩ := packInput_coded (left := left + 1) (i := 0) hread (by omega) hcodes packStart_after hfit
  rw [packAll, Nat.add_assoc, hgo, packInput, Nat.zero_add, readIbuf_ok (by omega) hb]
  dsimp only
  rw [hnone]

/-- A code whose bits fill a byte too many overflows at its input byte. -/
theorem packAll_overflow_at {b : Byte} {c : Code} (hlen : coded.length < n) (hb : s.ibuf.read coded.length = some b)
    (hc : codeAt s.enc.ct b = some c) (hover : s.obufSize < (codeBits s.enc.ct (coded ++ [b])).length / 8) :
    packAll s n = .error (.raise (packOverflow coded.length)) := by
  obtain ⟨left, rfl⟩ := Nat.exists_eq_add_of_lt hlen
  obtain ⟨p, hp, hgo⟩ := packInput_coded (left := left + 1) (i := 0) hread (by omega) hcodes packStart_after hfit
  have hbits : codeBits s.enc.ct (coded ++ [b]) = codeBits s.enc.ct coded ++ c := by simp [codeBits, hc]
  have hcode := packCode_after s.obufSize coded.length c hp hfit
  rw [List.nil_append, ← hbits, if_neg (Nat.not_le.mpr hover)] at hcode
  rw [packAll, Nat.add_assoc, hgo, packInput, Nat.zero_add, readIbuf_ok (by omega) hb]
  dsimp only
  rw [hc]
  dsimp only
  rw [hcode]

/-- With the whole input placed, a last partial byte without room overflows at the last input byte. -/
theorem packAll_overflow_last (hlen : coded.length = n) (hover : s.obufSize < ((codeBits s.enc.ct coded).length + 7) / 8) :
    packAll s n = .error (.raise (packOverflow (n - 1))) := by
  obtain ⟨p, hp, hgo⟩ := packInput_coded (left := 0) (i := 0) hread (by omega) hcodes packStart_after hfit
  have hflush := packFlush_after s.obufSize n hp hfit
  rw [List.nil_append, if_neg (Nat.not_le.mpr hover)] at hflush
  rw [packAll, ← hlen, ← Nat.add_zero coded.length, hgo, Nat.add_zero, hlen]
  exact hflush

end

/-! ### The command -/

theorem packBody_of_ok {s : State} {p : PackState} (hct : s.valid.ct = true) (h : packAll s s.enc.ftLen.toNat = .ok p) :
    packBody s = .finish { s with
      valid := { s.valid.beforePack with pbuf := true }
      enc := { s.enc with pbuf := p.bytes, totalBits := BitVec.ofNat 64 p.bits } } := by
  rw [← packAll_frame (s := s) (t := { s with valid := s.valid.beforePack }) rfl rfl rfl] at h
  rw [packBody, requireFlags_ct _ _ hct]
  dsimp only
  rw [h]
  rfl

theorem packBody_of_raise {s : State} {r : Report} (hct : s.valid.ct = true)
    (h : packAll s s.enc.ftLen.toNat = .error (.raise r)) :
    packBody s = .raise r { s with valid := s.valid.beforePack } := by
  rw [← packAll_frame (s := s) (t := { s with valid := s.valid.beforePack }) rfl rfl rfl] at h
  rw [packBody, requireFlags_ct _ _ hct]
  dsimp only
  rw [h]
  rfl

/-- Settles O26: the loops place the codes of the bytes before and then stop as the statement says. -/
theorem packRaisesNoCodeOrOutputOverflow : Obligations.PackRaisesNoCodeOrOutputOverflow := by
  intro s done hct hsize _ hread hcodes hfit s1
  refine ⟨fun b hlen hb hnone => ?_, fun b c hlen hb hc hover => ?_, fun hlen hover => ?_⟩ <;>
    rw [exec_eq_outcome, commandBody]
  · rw [packBody_of_raise hct (packAll_noCode hsize hread hcodes hfit hlen hb hnone)]
    rfl
  · rw [packBody_of_raise hct (packAll_overflow_at hsize hread hcodes hfit hlen hb hc hover)]
    rfl
  · rw [packBody_of_raise hct (packAll_overflow_last hsize hread hcodes hfit hlen hover), ← hlen]
    rfl

/-! ### A payload that does not fit -/

/-- Bits that fill too many bytes do so from some input byte on. -/
theorem codeBits_overflow {t : CodeTable} {cap : Nat} {input : List Byte} (h : cap < (codeBits t input).length / 8) :
    ∃ before b after, input = before ++ b :: after ∧ (codeBits t before).length / 8 ≤ cap ∧
      cap < (codeBits t (before ++ [b])).length / 8 := by
  induction input using List.reverseRecOn with
  | nil => exact absurd h (by simp [codeBits])
  | append_singleton input b ih =>
    by_cases hfit : (codeBits t input).length / 8 ≤ cap
    · exact ⟨input, b, [], rfl, hfit, h⟩
    · obtain ⟨before, d, after, rfl, hbefore, hover⟩ := ih (Nat.not_le.mp hfit)
      exact ⟨before, d, after ++ [b], by simp, hbefore, hover⟩

/-- Input bytes that all have codes, whose payload does not fit, make PACK overflow at one of them. -/
theorem packAll_overflows {s : State} {input : List Byte} (hsize : input.length ≤ s.ibufSize)
    (hread : s.ibuf.readBytes 0 input.length = some input) (hcodes : ∀ b ∈ input, (codeAt s.enc.ct b).isSome = true)
    (hover : s.obufSize < ((codeBits s.enc.ct input).length + 7) / 8) :
    ∃ i, packAll s input.length = .error (.raise (packOverflow i)) := by
  by_cases hfit : (codeBits s.enc.ct input).length / 8 ≤ s.obufSize
  · exact ⟨_, packAll_overflow_last hsize hread hcodes hfit rfl hover⟩
  · obtain ⟨before, b, after, rfl, hbefore, hbyte⟩ := codeBits_overflow (Nat.not_le.mp hfit)
    obtain ⟨hreadBefore, hreadAfter⟩ := (Memory.readBytes_append ..).mp hread
    obtain ⟨hb, -⟩ := (Memory.readBytes_cons ..).mp hreadAfter
    obtain ⟨c, hc⟩ := Option.isSome_iff_exists.mp (hcodes b (by simp))
    exact ⟨_, packAll_overflow_at hsize hreadBefore (fun d hd => hcodes d (List.mem_append_left _ hd)) hbefore (by simp)
      (by rwa [Nat.zero_add] at hb) hc hbyte⟩

/-- PACK's loops read the sizes, the codes and the input bytes, and nothing else. -/
theorem packInput_congr {s t : State} {n : Nat} (hparams : s.params = t.params) (hct : s.enc.ct = t.enc.ct)
    (hread : ∀ a, a < n → s.ibuf.read a = t.ibuf.read a) {left i : Nat} (p : PackState) (hend : i + left ≤ n) :
    packInput s left i p = packInput t left i p := by
  induction left generalizing i p with
  | zero => rfl
  | succ left ih =>
    have hnext : packInput s left (i + 1) = packInput t left (i + 1) := funext fun p => ih p (by omega)
    rw [packInput, packInput, readIbuf_congr hparams (hread i (by omega)), hct, hnext, State.obufSize, State.obufSize, hparams]

theorem packAll_congr {s t : State} {n : Nat} (hparams : s.params = t.params) (hct : s.enc.ct = t.enc.ct)
    (hread : ∀ a, a < n → s.ibuf.read a = t.ibuf.read a) : packAll s n = packAll t n := by
  rw [packAll, packAll, packInput_congr hparams hct hread _ (by omega), State.obufSize, State.obufSize, hparams]

end Sys2Proof.Machine
end

section
/-! COMPRESS (rules R138 and R139): its six steps run on a written input, where each can raise, and what the container it leaves
says of its size. -/

namespace Sys2Proof.Machine

/-! ### The counts of a written input -/

theorem freqAt_countSymbols_ne_zero {input : List Byte} (hlen : input.length < 2 ^ 32) {b : Byte} (hb : b ∈ input) :
    freqAt (countSymbols input) b ≠ 0#32 := by
  intro h
  have hcount := freqAt_countSymbols_toNat hlen b
  rw [h] at hcount
  exact absurd hcount.symm (Nat.ne_of_gt (List.count_pos_iff.mpr hb))

/-- Every input byte has a code of the tree of the input's counts. -/
theorem countSymbols_coded {input : List Byte} {tree : ETree} (hlen : input.length < 2 ^ 32)
    (h : buildTree (countSymbols input) = some tree) : ∀ b ∈ input, (codeAt (deriveCodes tree) b).isSome = true :=
  fun b hb => (buildTree_codeAt_isSome_iff h b).mpr (freqAt_countSymbols_ne_zero hlen hb)

theorem buildTree_countSymbols {input : List Byte} (hpos : 1 ≤ input.length) (hlen : input.length < 2 ^ 32) :
    ∃ tree, buildTree (countSymbols input) = some tree := by
  obtain ⟨b, hb⟩ := List.exists_mem_of_length_pos hpos
  exact (buildTree_isSome_iff _).mpr ⟨b, freqAt_countSymbols_ne_zero hlen hb⟩

/-! ### The steps -/

/-- A written input of legal length, with the tree and the serialized table that COMPRESS's steps make of it. -/
structure CompressRun (s : State) (input : List Byte) (tree : ETree) (table : List Byte) : Prop where
  pos : 1 ≤ s.inLen.toNat
  le : s.inLen.toNat ≤ s.ibufSize
  read : s.ibuf.readBytes 0 s.inLen.toNat = some input
  built : buildTree (countSymbols input) = some tree
  encoded : encodeTable (deriveCodes tree) = .ok table

theorem exists_compressRun {s : State} {input : List Byte} (hpos : 1 ≤ s.inLen.toNat) (hle : s.inLen.toNat ≤ s.ibufSize)
    (hread : s.ibuf.readBytes 0 s.inLen.toNat = some input) : ∃ tree table, CompressRun s input tree table := by
  have hlen := Memory.readBytes_length hread
  obtain ⟨tree, htree⟩ := buildTree_countSymbols (hlen ▸ hpos) (hlen ▸ s.inLen.isLt)
  obtain ⟨table, htable, -⟩ := buildTree_encodeTable_ok htree
  exact ⟨tree, table, hpos, hle, hread, htree, htable⟩

/-- The payload that PACK makes of an input with the codes of a tree (rule R106). -/
abbrev payloadOf (tree : ETree) (input : List Byte) : List Byte := packMSB (codeBits (deriveCodes tree) input)

/-- What COMPRESS's first four steps leave. -/
def State.tabled (s : State) (input : List Byte) (tree : ETree) (table : List Byte) : State :=
  { s with
    valid := { s.valid with ft := true, etree := true, ct := true, etab := true, pbuf := false }
    enc := { s.enc with
      ft := countSymbols input, ftLen := s.inLen, etree := tree, ct := deriveCodes tree, etab := table } }

/-- What COMPRESS's first five steps leave. -/
def State.payloadPacked (s : State) (input : List Byte) (tree : ETree) (table : List Byte) : State :=
  { s with
    valid := { s.valid with ft := true, etree := true, ct := true, etab := true, pbuf := true }
    enc := {
      ft := countSymbols input, ftLen := s.inLen, etree := tree, ct := deriveCodes tree, etab := table
      pbuf := payloadOf tree input
      totalBits := BitVec.ofNat 64 (codeBits (deriveCodes tree) input).length } }

/-- What all six steps leave, with `obuf` as the OBUF that WRITE_CONTAINER makes. -/
def State.compressed (s : State) (input : List Byte) (tree : ETree) (table : List Byte) (obuf : Memory) : State :=
  { s.payloadPacked input tree table with
    obuf := obuf
    outLen := BitVec.ofNat 32 (16 + table.length + (payloadOf tree input).length) }

@[simp] theorem State.compressed_obuf (s : State) (input : List Byte) (tree : ETree) (table : List Byte) (obuf : Memory) :
    (s.compressed input tree table obuf).obuf = obuf := rfl

theorem encodeTableBody_of_ok {s : State} {table : List Byte} (hct : s.valid.ct = true)
    (h : encodeTable s.enc.ct = .ok table) :
    encodeTableBody s = .finish { s with
      valid := { s.valid.beforeEncodeTable with etab := true }, enc := { s.enc with etab := table } } := by
  rw [encodeTableBody, requireFlags_ct _ _ hct]
  dsimp only
  rw [h]

theorem compressBody_of_long {s : State} (h : s.ibufSize < s.inLen.toNat) :
    compressBody s = .raise { kind := .lengthRange } { s with valid := s.valid.beforeFreq } := by
  rw [compressBody, freqBody_of_long h]
  rfl

theorem compressBody_of_empty {s : State} (h : s.inLen.toNat = 0) :
    compressBody s = .raise { kind := .emptyInput } { s with valid := s.valid.beforeFreq } := by
  rw [compressBody, freqBody_of_empty h]
  rfl

/-- COMPRESS gets past FREQ only with a written input of legal length. -/
theorem compressBody_cases (s : State) : s.ibufSize < s.inLen.toNat ∨ s.inLen.toNat = 0 ∨
    (∃ input tree table, CompressRun s input tree table) ∨ ∃ f, compressBody s = .fault f := by
  rcases freqBody_cases s with ⟨hlong, -⟩ | ⟨-, hzero, -⟩ | ⟨input, hpos, hle, hread, -, -⟩ | ⟨f, hfreq⟩
  · exact .inl hlong
  · exact .inr (.inl hzero)
  · exact .inr (.inr (.inl ⟨input, exists_compressRun hpos hle hread⟩))
  · exact .inr (.inr (.inr ⟨f, by rw [compressBody, hfreq]; rfl⟩))

namespace CompressRun

section
variable {s : State} {input : List Byte} {tree : ETree} {table : List Byte} (h : CompressRun s input tree table)
include h

theorem length_eq : input.length = s.inLen.toNat := Memory.readBytes_length h.read

theorem length_lt : input.length < 2 ^ 32 := h.length_eq ▸ s.inLen.isLt

theorem read_input : s.ibuf.readBytes 0 input.length = some input := by rw [h.length_eq, h.read]

theorem body_eq : compressBody s = (packBody (s.tabled input tree table)).andThen writeContainerBody := by
  rw [compressBody, freqBody_finish h.pos h.le h.read, Result.andThen_finish,
    buildTreeBody_of_some (tree := tree) rfl h.built, Result.andThen_finish, deriveCodesBody_of_valid rfl,
    Result.andThen_finish, encodeTableBody_of_ok (table := table) rfl h.encoded, Result.andThen_finish]
  rfl

theorem body_of_pack_raise {r : Report} (hpack : packAll (s.tabled input tree table) s.inLen.toNat = .error (.raise r)) :
    compressBody s = .raise r (s.tabled input tree table) := by
  rw [h.body_eq, packBody_of_raise rfl hpack]
  rfl

theorem pack_overflows (hover : s.obufSize < (payloadOf tree input).length) :
    ∃ i, packAll (s.tabled input tree table) s.inLen.toNat = .error (.raise (packOverflow i)) := by
  rw [packMSB_length] at hover
  rw [← h.length_eq]
  exact packAll_overflows (s := s.tabled input tree table) (h.length_eq ▸ h.le) h.read_input
    (countSymbols_coded h.length_lt h.built) hover

theorem body_of_payload_fits (hfit : (payloadOf tree input).length ≤ s.obufSize) :
    compressBody s = writeContainerBody (s.payloadPacked input tree table) := by
  rw [packMSB_length] at hfit
  obtain ⟨p, hpack, hbytes, hbits⟩ := packAll_coded (s := s.tabled input tree table) h.read_input (h.length_eq ▸ h.le)
    (countSymbols_coded h.length_lt h.built) hfit
  rw [h.length_eq] at hpack
  rw [h.body_eq, packBody_of_ok rfl hpack, Result.andThen_finish, hbytes, hbits]
  rfl

theorem body_of_container_overflow (hfit : (payloadOf tree input).length ≤ s.obufSize)
    (hover : s.obufSize < 16 + table.length + (payloadOf tree input).length) :
    compressBody s = .raise { kind := .outputOverflow, detail := 2#8 } (s.payloadPacked input tree table) := by
  rw [h.body_of_payload_fits hfit, writeContainerBody, requireFlags_etab_pbuf _ _ rfl rfl]
  exact if_pos hover

/-- The memory has a name here, so that no later proof evaluates the stores of the container. -/
theorem body_of_fits (hfit : 16 + table.length + (payloadOf tree input).length ≤ s.obufSize) :
    ∃ m, m = s.obuf.writeBytes 0 (containerBytes s.inLen table (payloadOf tree input)) ∧
      compressBody s = .finish (s.compressed input tree table m) := by
  refine ⟨_, rfl, ?_⟩
  rw [h.body_of_payload_fits (by omega), writeContainerBody, requireFlags_etab_pbuf _ _ rfl rfl]
  exact if_neg (Nat.not_lt.mpr hfit)

end

end CompressRun

/-! ### The ends -/

theorem read_writeBytes_container (m : Memory) (orig : Word) (table payload : List Byte) (a : Nat) :
    (m.writeBytes 0 (containerBytes orig table payload)).read a =
      if a < 16 + table.length + payload.length then (containerLayout orig table payload)[a]? else m.read a := by
  rw [Memory.read_writeBytes, containerBytes_length, Nat.zero_add]
  simp only [Nat.zero_le, true_and]
  rfl

/-- Settles O28: the steps' products, one after another. -/
theorem compressWritesTheContainer : Obligations.CompressWritesTheContainer := by
  intro s input hpos hle hread
  obtain ⟨tree, table, h⟩ := exists_compressRun hpos hle hread
  refine ⟨tree, table, h.built, h.encoded, fun hfit => ?_⟩
  obtain ⟨m, hm, hbody⟩ := h.body_of_fits hfit
  refine ⟨(s.compressed input tree table m).finish, ?_, rfl, fun a => ?_⟩
  · rw [exec_eq_outcome, commandBody, hbody, Result.outcome_finish]
  · rw [State.finish_obuf, State.compressed_obuf, hm, read_writeBytes_container]

/-- Settles O29: each error is a step's, raised on what the steps before it left. -/
theorem compressRaisesTheStepsErrors : Obligations.CompressRaisesTheStepsErrors := by
  intro s cleared
  simp only [exec_eq_outcome, commandBody]
  refine ⟨fun hlong => ?_, fun hzero => ?_, fun input hpos hle hread => ?_⟩
  · rw [compressBody_of_long hlong]
    rfl
  · rw [compressBody_of_empty hzero]
    rfl
  · obtain ⟨tree, table, h⟩ := exists_compressRun hpos hle hread
    refine ⟨tree, table, h.built, h.encoded, fun hover => ?_, fun hfit hover => ?_⟩
    · obtain ⟨i, hpack⟩ := h.pack_overflows hover
      rw [h.body_of_pack_raise hpack]
      exact ⟨_, rfl, rfl, rfl, rfl, rfl, rfl, rfl⟩
    · rw [h.body_of_container_overflow hfit hover]
      exact ⟨_, rfl, rfl, rfl, rfl, rfl, rfl, rfl, rfl⟩

/-- A COMPRESS that has finished ran on a written input whose container fits. -/
theorem compress_finished {s t : State} (hs : s.done = false) (h : exec .compress s = .next t) (ht : t.done = true) :
    ∃ input tree table m, CompressRun s input tree table ∧
      16 + table.length + (payloadOf tree input).length ≤ s.obufSize ∧
      m = s.obuf.writeBytes 0 (containerBytes s.inLen table (payloadOf tree input)) ∧
      t = (s.compressed input tree table m).finish := by
  rw [exec_eq_outcome, commandBody] at h
  have hraise {r : Report} {u : State} (hb : compressBody s = .raise r u) (hu : u.done = s.done) : False := by
    rw [hb] at h
    cases h
    rw [State.raise_done, hu, hs] at ht
    cases ht
  rcases compressBody_cases s with hlong | hzero | ⟨input, tree, table, hrun⟩ | ⟨f, hb⟩
  · exact (hraise (compressBody_of_long hlong) rfl).elim
  · exact (hraise (compressBody_of_empty hzero) rfl).elim
  · by_cases hpayload : (payloadOf tree input).length ≤ s.obufSize
    · by_cases hfit : 16 + table.length + (payloadOf tree input).length ≤ s.obufSize
      · obtain ⟨m, hm, hb⟩ := hrun.body_of_fits hfit
        rw [hb] at h
        cases h
        exact ⟨input, tree, table, m, hrun, hfit, hm, rfl⟩
      · exact (hraise (hrun.body_of_container_overflow hpayload (Nat.not_le.mp hfit)) rfl).elim
    · obtain ⟨i, hpack⟩ := hrun.pack_overflows (Nat.not_le.mp hpayload)
      exact (hraise (hrun.body_of_pack_raise hpack) rfl).elim
  · rw [hb] at h
    cases h

/-! ### The size accounting -/

/-- The fields of a container that stands in a memory from address 0 (rule R92). -/
theorem container_fields {m : Memory} {orig : Word} {table payload : List Byte}
    (h : m.readBytes 0 (containerBytes orig table payload).length = some (containerBytes orig table payload)) :
    m.readBytes 4 4 = some (bytesLE32 orig) ∧ m.readBytes 8 4 = some (bytesLE32 (BitVec.ofNat 32 payload.length)) ∧
      m.readBytes 16 table.length = some table := by
  obtain ⟨h, -⟩ := (Memory.readBytes_append ..).mp h
  obtain ⟨h, htable⟩ := (Memory.readBytes_append ..).mp h
  obtain ⟨h, -⟩ := (Memory.readBytes_append ..).mp h
  obtain ⟨h, hplen⟩ := (Memory.readBytes_append ..).mp h
  obtain ⟨-, horig⟩ := (Memory.readBytes_append ..).mp h
  exact ⟨horig, hplen, htable⟩

/-- A serialized table begins with its count byte: the number of symbols present, mod 256 (rule R101). -/
theorem buildTree_countByte {t : FreqTable} {tree : ETree} {table : List Byte} (h : buildTree t = some tree)
    (htable : encodeTable (deriveCodes tree) = .ok table) :
    ∃ entries, table = BitVec.ofNat 8 (countPresent t) :: entries := by
  rw [encodeTable_ok (buildTree_tableEntries_ne_nil h) (buildTree_tableEntries_length_bounds h),
    buildTree_tableEntries_length h] at htable
  refine ⟨_, (Except.ok.inj htable).symm.trans (congrArg (· :: _) ?_)⟩
  exact BitVec.eq_of_toNat_eq (by simp)

theorem csrRead_outLen (s : State) : csrRead s 0x01C = s.outLen := rfl

theorem csrRead_encTlen {s : State} (h : s.valid.etab = true) : csrRead s 0x034 = BitVec.ofNat 32 s.enc.etab.length :=
  if_pos h

theorem csrRead_encPlen {s : State} (h : s.valid.pbuf = true) : csrRead s 0x038 = BitVec.ofNat 32 s.enc.pbuf.length :=
  if_pos h

theorem csrRead_countPresent {s : State} (h : s.valid.ft = true) : (csrRead s 0x03C).toNat = countPresent s.enc.ft := by
  have hword : csrRead s 0x03C = BitVec.ofNat 32 (countPresent s.enc.ft) := if_pos h
  have hle := countPresent_le s.enc.ft
  rw [hword, BitVec.toNat_ofNat, Nat.mod_eq_of_lt (by omega)]

theorem csrRead_encBits {s : State} (h : s.valid.pbuf = true) :
    csrRead s 0x044 ++ csrRead s 0x040 = s.enc.totalBits := by
  have hhigh : csrRead s 0x044 = s.enc.totalBits.extractLsb' 32 32 := if_pos h
  have hlow : csrRead s 0x040 = s.enc.totalBits.extractLsb' 0 32 := if_pos h
  rw [hhigh, hlow, totalBits_halves]

/-- Settles O30: a finished COMPRESS leaves the container of its products, all of them valid and shown by the registers. -/
theorem compressSizeAccounting : Obligations.CompressSizeAccounting := by
  intro s t hdone hexec htdone
  obtain ⟨input, tree, table, m, h, hfit, hm, ht⟩ := compress_finished hdone hexec htdone
  obtain ⟨hft, hetab, hpbuf⟩ : t.valid.ft = true ∧ t.valid.etab = true ∧ t.valid.pbuf = true := by
    rw [ht]
    exact ⟨rfl, rfl, rfl⟩
  have hobuf : s.obufSize < 2 ^ 32 := s.params.obufSize.isLt
  have hpayload : (payloadOf tree input).length = _ := packMSB_length (codeBits (deriveCodes tree) input)
  have hword {n : Nat} (hn : n ≤ s.obufSize) : (BitVec.ofNat 32 n).toNat = n := by
    rw [BitVec.toNat_ofNat, Nat.mod_eq_of_lt (by omega)]
  have hbits : (BitVec.ofNat 64 (codeBits (deriveCodes tree) input).length).toNat =
      (codeBits (deriveCodes tree) input).length := by
    rw [BitVec.toNat_ofNat, Nat.mod_eq_of_lt (by omega)]
  obtain ⟨horig, hplen, htable⟩ := container_fields (hm ▸ Memory.readBytes_writeBytes s.obuf 0 _)
  obtain ⟨entries, rfl⟩ := buildTree_countByte h.built h.encoded
  rw [csrRead_outLen, csrRead_encTlen hetab, csrRead_encPlen hpbuf, csrRead_countPresent hft, csrRead_encBits hpbuf, ht]
  refine ⟨?lengths, horig, ?payloadLength, rfl, buildTree_tableEntries_length h.built,
    ((Memory.readBytes_cons ..).mp htable).1, buildTree_prefixFree h.built⟩
  case lengths =>
    have htlen := hword (n := (BitVec.ofNat 8 (countPresent (countSymbols input)) :: entries).length) (by omega)
    have hplen := hword (n := (payloadOf tree input).length) (by omega)
    exact (hword hfit).trans (congrArg₂ (16 + · + ·) htlen.symm hplen.symm)
  case payloadLength =>
    rw [hpayload, ← hbits] at hplen
    exact hplen

/-! ### Two runs on the same input -/

theorem CompressRun.of_same_input {s u : State} {input : List Byte} {tree : ETree} {table : List Byte}
    (h : CompressRun s input tree table) (hparams : s.params = u.params) (hlen : s.inLen = u.inLen)
    (hread : ∀ a, a < s.inLen.toNat → s.ibuf.read a = u.ibuf.read a) : CompressRun u input tree table where
  pos := hlen ▸ h.pos
  le := by
    rw [← hlen, State.ibufSize, ← hparams]
    exact h.le
  read := by
    rw [← hlen, Memory.readBytes_eq_some_iff]
    refine ⟨h.length_eq, fun k hk => ?_⟩
    rw [← Memory.readBytes_get h.read hk, hread (0 + k) (by omega)]
  built := h.built
  encoded := h.encoded

/-- What two runs that end alike have in common: the end itself, and the products with the output, or the report. -/
def EndAlike (t1 t2 : State) : Prop :=
  t1.done = t2.done ∧
  (t1.done = true → t1.outLen = t2.outLen ∧ t1.enc = t2.enc ∧
    ∀ a, a < t1.outLen.toNat → t1.obuf.read a = t2.obuf.read a) ∧
  (t1.done = false → t1.errCode = t2.errCode ∧ t1.errOffset = t2.errOffset ∧ t1.errDetail = t2.errDetail)

theorem endAlike_of_raise {x1 x2 : Result} {r : Report} {u1 u2 t1 t2 : State} (hx1 : x1 = .raise r u1) (hx2 : x2 = .raise r u2)
    (hu1 : u1.done = false) (hu2 : u2.done = false) (h1 : x1.outcome = .next t1) (h2 : x2.outcome = .next t2) :
    EndAlike t1 t2 := by
  rw [hx1] at h1
  rw [hx2] at h2
  cases h1
  cases h2
  exact ⟨hu1.trans hu2.symm, fun ht => absurd (hu1.symm.trans ht) nofun, fun _ => ⟨rfl, rfl, rfl⟩⟩

/-- Settles O31: both runs meet the same lengths and the same bytes, so the same step ends both, with the same products or the
same report. -/
theorem compressDependsOnTheInputAlone : Obligations.CompressDependsOnTheInputAlone := by
  intro s1 s2 t1 t2 hdone1 hdone2 hparams hlen hread h1 h2
  change EndAlike t1 t2
  have hibuf : s1.ibufSize = s2.ibufSize := by rw [State.ibufSize, State.ibufSize, hparams]
  have hobuf : s1.obufSize = s2.obufSize := by rw [State.obufSize, State.obufSize, hparams]
  rw [exec_eq_outcome, commandBody] at h1 h2
  rcases compressBody_cases s1 with hlong | hzero | ⟨input, tree, table, hrun1⟩ | ⟨f, hb⟩
  · exact endAlike_of_raise (compressBody_of_long hlong) (compressBody_of_long (hibuf ▸ hlen ▸ hlong)) hdone1 hdone2 h1 h2
  · exact endAlike_of_raise (compressBody_of_empty hzero) (compressBody_of_empty (hlen ▸ hzero)) hdone1 hdone2 h1 h2
  · have hrun2 := hrun1.of_same_input hparams hlen hread
    by_cases hpayload : (payloadOf tree input).length ≤ s1.obufSize
    · by_cases hfit : 16 + table.length + (payloadOf tree input).length ≤ s1.obufSize
      · obtain ⟨m1, hm1, hb1⟩ := hrun1.body_of_fits hfit
        obtain ⟨m2, hm2, hb2⟩ := hrun2.body_of_fits (hobuf ▸ hfit)
        rw [hb1] at h1
        rw [hb2] at h2
        cases h1
        cases h2
        refine ⟨rfl, fun _ => ⟨rfl, ?_, fun a ha => ?_⟩, nofun⟩
        · simp only [State.finish_enc, State.compressed, State.payloadPacked, hlen]
        · have hin := ha.trans_le ((BitVec.toNat_ofNat ..).trans_le (Nat.mod_le ..))
          rw [State.finish_obuf, State.finish_obuf, State.compressed_obuf, State.compressed_obuf, hm1, hm2,
            read_writeBytes_container, read_writeBytes_container, if_pos hin, if_pos hin, hlen]
      · rw [Nat.not_le] at hfit
        exact endAlike_of_raise (hrun1.body_of_container_overflow hpayload hfit)
          (hrun2.body_of_container_overflow (hobuf ▸ hpayload) (hobuf ▸ hfit)) hdone1 hdone2 h1 h2
    · obtain ⟨i, hpack⟩ := hrun1.pack_overflows (Nat.not_le.mp hpayload)
      have hsame : packAll (s1.tabled input tree table) s1.inLen.toNat =
          packAll (s2.tabled input tree table) s2.inLen.toNat := by
        rw [packAll_congr (s := s1.tabled input tree table) (t := s2.tabled input tree table) hparams rfl hread, hlen]
      exact endAlike_of_raise (hrun1.body_of_pack_raise hpack) (hrun2.body_of_pack_raise (hsame ▸ hpack)) hdone1 hdone2
        h1 h2
  · rw [hb] at h1
    cases h1

end Sys2Proof.Machine
end

section
/-! REBUILD_TREE (rules R164 and R167): a tree is known by what stands at its positions, so the codes of an encoder's tree give
that tree back, and where an entry meets an earlier one is told by their two codes. -/

namespace Sys2Proof.Machine

/-! ### A tree is known by its positions -/

/-- Trees with the same leaves and the same nodes at every position are the same tree. -/
theorem DTree.ext_at {t u : DTree} (hleaf : ∀ p b, t.at p = .leaf b ↔ u.at p = .leaf b)
    (hnode : ∀ p, (t.at p).IsNode ↔ (u.at p).IsNode) : t = u := by
  induction t generalizing u with
  | absent =>
    exact (DTree.eq_absent_of_not (fun b hb => absurd ((hleaf [] b).mpr hb) nofun) fun hn => (hnode []).mpr hn).symm
  | leaf b => exact ((hleaf [] b).mp rfl).symm
  | node l r ihl ihr =>
    cases u with
    | absent => exact ((hnode []).mp trivial).elim
    | leaf b => exact ((hnode []).mp trivial).elim
    | node l' r' =>
      exact congrArg₂ DTree.node (ihl (fun p b => hleaf (false :: p) b) fun p => hnode (false :: p))
        (ihr (fun p b => hleaf (true :: p) b) fun p => hnode (true :: p))

/-! ### The encoder's tree without its weights (rule R167) -/

theorem ETree.forget_at_eq_leaf_iff (e : ETree) (p : Code) (b : Symbol) :
    e.forget.at p = .leaf b ↔ e.leafAt p = some b := by
  induction e generalizing p with
  | leaf s w => cases p <;> simp [forget, leafAt]
  | node w l r ihl ihr =>
    match p with
    | [] => simp [forget, leafAt]
    | false :: p => exact ihl p
    | true :: p => exact ihr p
  | single w l ih =>
    match p with
    | [] => simp [forget, leafAt]
    | false :: p => exact ih p
    | true :: p => simp [forget, leafAt, DTree.child]

theorem ETree.exists_leafAt (e : ETree) : ∃ c b, e.leafAt c = some b := by
  obtain ⟨b, hb⟩ := List.exists_mem_of_length_pos e.symbols_length_pos
  obtain ⟨c, hc⟩ := (e.mem_symbols b).mp hb
  exact ⟨c, b, hc⟩

/-- At or below every position of an encoder's tree that is there, there is a leaf. -/
theorem ETree.exists_leafAt_below {e : ETree} {p : Code} (h : e.forget.at p ≠ .absent) :
    ∃ c b, e.leafAt c = some b ∧ p <+: c := by
  induction p generalizing e with
  | nil =>
    obtain ⟨c, b, hc⟩ := e.exists_leafAt
    exact ⟨c, b, hc, List.nil_prefix⟩
  | cons x p ih =>
    match e, x, h with
    | .leaf _ _, x, h => exact absurd (by simp [forget]) h
    | .node _ l _, false, h =>
      obtain ⟨c, b, hc, hp⟩ := ih (e := l) h
      exact ⟨false :: c, b, hc, (List.prefix_cons_inj false).mpr hp⟩
    | .node _ _ r, true, h =>
      obtain ⟨c, b, hc, hp⟩ := ih (e := r) h
      exact ⟨true :: c, b, hc, (List.prefix_cons_inj true).mpr hp⟩
    | .single _ l, false, h =>
      obtain ⟨c, b, hc, hp⟩ := ih (e := l) h
      exact ⟨false :: c, b, hc, (List.prefix_cons_inj false).mpr hp⟩
    | .single _ _, true, h => exact absurd (DTree.at_absent p) h

/-- The nodes are the positions on the way to a leaf. -/
theorem ETree.forget_at_isNode_iff (e : ETree) (p : Code) :
    (e.forget.at p).IsNode ↔ ∃ c b, e.leafAt c = some b ∧ p <+: c ∧ p ≠ c := by
  constructor
  · intro h
    obtain ⟨c, b, hc, hp⟩ := ETree.exists_leafAt_below (e := e) (p := p) fun ha => by rw [ha] at h; exact h
    refine ⟨c, b, hc, hp, ?_⟩
    rintro rfl
    rw [(e.forget_at_eq_leaf_iff p b).mpr hc] at h
    exact DTree.not_isNode_leaf b h
  · rintro ⟨c, b, hc, hp, hne⟩
    refine DTree.isNode_of_prefix ?_ hp hne
    rw [(e.forget_at_eq_leaf_iff c b).mpr hc]
    exact nofun

theorem mem_tableEntries_iff_leafAt {t : FreqTable} {tree : ETree} (h : buildTree t = some tree) (b : Symbol) (c : Code) :
    (b, c) ∈ tableEntries (deriveCodes tree) ↔ tree.leafAt c = some b := by
  rw [mem_tableEntries, buildTree_codeAt_iff h]

theorem buildTree_goodEntries {t : FreqTable} {tree : ETree} (h : buildTree t = some tree) :
    GoodEntries (tableEntries (deriveCodes tree)) :=
  ⟨tableEntries_nodup _,
    fun e he => List.length_pos_iff.mp (buildTree_tableEntries_length_bounds h e he).1, buildTree_prefixFree h⟩

/-- Settles O43: the rebuilt tree and the encoder's have the same leaves, and so the same nodes above them. -/
theorem rebuiltTreeIsTheEncodersTree : Obligations.RebuiltTreeIsTheEncodersTree := by
  intro t tree h
  obtain ⟨rebuilt, hrebuilt⟩ := rebuildTree_exists (buildTree_goodEntries h)
  obtain ⟨hleaf, hnode⟩ := rebuildTree_at hrebuilt
  rw [hrebuilt]
  congr 1
  refine DTree.ext_at (fun p b => ?_) fun p => ?_
  · rw [hleaf, mem_tableEntries_iff_leafAt h, ETree.forget_at_eq_leaf_iff]
  · rw [hnode, ETree.forget_at_isNode_iff]
    constructor
    · rintro (rfl | ⟨⟨b, c⟩, he, hp, hne⟩)
      · obtain ⟨c, b, hc⟩ := tree.exists_leafAt
        refine ⟨c, b, hc, List.nil_prefix, ?_⟩
        rintro rfl
        exact absurd (hc.symm.trans (buildTree_root h)) nofun
      · exact ⟨c, b, (mem_tableEntries_iff_leafAt h b c).mp he, hp, hne⟩
    · rintro ⟨c, b, hc, hp, hne⟩
      exact .inr ⟨(b, c), (mem_tableEntries_iff_leafAt h b c).mpr hc, hp, hne⟩

/-! ### The entry that does not fit (rules R164 and R224) -/

theorem DTree.graft_of_leaf {sym b : Symbol} {c : Code} {t : DTree} (h : t.at c = .leaf b) :
    DTree.graft sym c t = .error 2#8 := by
  rcases DTree.graft_cases sym c t with ⟨⟨p, a, hp, hne, ha⟩, -⟩ | ⟨-, he⟩ | ⟨hn, -⟩ | ⟨ha, -⟩
  · exact absurd (h.symm.trans (DTree.at_below_leaf ha hp hne)) nofun
  · exact he
  · rw [h] at hn; exact hn.elim
  · exact absurd (h.symm.trans ha) nofun

theorem DTree.graft_of_leaf_above {sym b : Symbol} {c p : Code} {t : DTree} (h : t.at p = .leaf b) (hp : p <+: c)
    (hne : p ≠ c) : DTree.graft sym c t = .error 3#8 := by
  have hc := DTree.at_below_leaf h hp hne
  rcases DTree.graft_cases sym c t with ⟨-, he⟩ | ⟨⟨a, ha⟩, -⟩ | ⟨hn, -⟩ | ⟨-, hfree, -⟩
  · exact he
  · exact absurd (hc.symm.trans ha) nofun
  · rw [hc] at hn; exact hn.elim
  · exact absurd h (hfree p b hp)

theorem DTree.graft_of_node {sym : Symbol} {c : Code} {t : DTree} (h : (t.at c).IsNode) :
    DTree.graft sym c t = .error 4#8 := by
  rcases DTree.graft_cases sym c t with ⟨⟨p, a, hp, hne, ha⟩, -⟩ | ⟨⟨a, ha⟩, -⟩ | ⟨-, he⟩ | ⟨ha, -⟩
  · rw [DTree.at_below_leaf ha hp hne] at h; exact h.elim
  · rw [ha] at h; exact h.elim
  · exact he
  · rw [ha] at h; exact h.elim

/-- REBUILD_TREE's end step when an entry does not fit: DTREE's flag is 0 and the report is captured. -/
theorem exec_rebuildTree_of_error {s : State} {r : Report} (hdtab : s.valid.dtab = true)
    (h : rebuildTree s.dec.dtab = .error r) :
    exec .rebuildTree s = .next ({ s with valid := s.valid.beforeRebuildTree }.raise r) := by
  rw [exec_eq_outcome, commandBody, rebuildTreeBody, requireFlags_dtab _ _ hdtab]
  dsimp only
  rw [h]
  rfl

/-- Settles O38: the earlier entries make a tree whose leaves end their codes, and what stands there on the next code's way or at
its end is the conflict. -/
theorem rebuildTreeRaisesTableConflict : Obligations.RebuildTreeRaisesTableConflict := by
  intro s earlier later b c hdtab hentries hgood _ at_
  obtain ⟨tree, htree⟩ := rebuildTree_exists hgood
  obtain ⟨hleaf, -⟩ := rebuildTree_at htree
  have hloop : rebuildTree s.dec.dtab =
      rebuildLoop earlier.length (earlier.map Prod.fst).reverse tree ((b, c) :: later) := by
    rw [hentries, rebuildTree, rebuildLoop_append 0 [] _ _ earlier _ htree, Nat.zero_add, List.append_nil]
  have hrepeated := rebuildLoop_cons_error (e := earlier.length) (seen := (earlier.map Prod.fst).reverse) (t := tree)
    (s := b) (c := c) (xs := later)
  rw [← hloop] at hrepeated
  simp only [List.mem_reverse] at hrepeated
  obtain ⟨hrepeated, hgraft⟩ := hrepeated
  have hend {detail : Byte}
      (h : rebuildTree s.dec.dtab = .error { kind := .tableConflict, detail := detail, offset := earlier.length }) :
      exec .rebuildTree s = .next (at_ detail) := exec_rebuildTree_of_error hdtab h
  refine ⟨fun hb => hend (hrepeated hb), fun hb hc => hend (hgraft _ hb ?equal), fun hb hc => hend (hgraft _ hb ?above),
    fun hb hc => hend (hgraft _ hb ?below)⟩
  case equal =>
    obtain ⟨⟨a, c⟩, he, rfl⟩ := List.mem_map.mp hc
    exact DTree.graft_of_leaf ((hleaf c a).mpr he)
  case above =>
    obtain ⟨⟨a, d⟩, he, hd, hdc⟩ := hc
    exact DTree.graft_of_leaf_above ((hleaf d a).mpr he) hd hdc
  case below =>
    obtain ⟨⟨a, d⟩, he, hd, hcd⟩ := hc
    refine DTree.graft_of_node (DTree.isNode_of_prefix ?_ hd hcd)
    rw [(hleaf d a).mpr he]
    exact nofun

end Sys2Proof.Machine
end

section
/-! DECODE_TABLE (rules R162 and R163): the entry at which it stops, and what it makes of a table that ENCODE_TABLE wrote. -/

namespace Sys2Proof.Machine

/-! ### The entry that is not whole (rules R162 and R224) -/

section
variable {s : State} {fin pos : Nat} {sym : Byte} (hfin : fin ≤ s.ibufSize) (hpos : pos < fin)
  (hsym : s.ibuf.read pos = some sym)
include hfin hpos hsym

theorem decodeEntries_no_length (hend : pos + 1 = fin) (left : Nat) :
    decodeEntries s fin (left + 1) pos =
      .error (.raise { kind := .truncatedInput, detail := 4#8, offset := pos }) := by
  rw [decodeEntries, if_pos hpos, readIbuf_ok (by omega) hsym]
  exact if_pos (by omega)

theorem decodeEntries_zero_length (hin : pos + 1 < fin) (hlen : s.ibuf.read (pos + 1) = some 0#8) (left : Nat) :
    decodeEntries s fin (left + 1) pos =
      .error (.raise { kind := .invalidCodeLength, detail := 2#8, offset := pos + 1 }) := by
  rw [decodeEntries, if_pos hpos, readIbuf_ok (by omega) hsym]
  simp only [bind, Except.bind]
  rw [if_neg (by omega), readIbuf_ok (by omega) hlen]
  rfl

theorem decodeEntries_short_code {len : Byte} (hin : pos + 1 < fin) (hlen : s.ibuf.read (pos + 1) = some len)
    (hne : len ≠ 0#8) (hshort : fin < pos + 2 + ceilDiv8 len.toNat) (left : Nat) :
    decodeEntries s fin (left + 1) pos =
      .error (.raise { kind := .truncatedInput, detail := 4#8, offset := pos }) := by
  have hnonzero : len.toNat ≠ 0 := fun hzero => hne (BitVec.eq_of_toNat_eq hzero)
  rw [decodeEntries, if_pos hpos, readIbuf_ok (by omega) hsym]
  simp only [bind, Except.bind]
  rw [if_neg (by omega), readIbuf_ok (by omega) hlen]
  exact (if_neg hnonzero).trans (if_pos hshort)

end

/-- DECODE_TABLE's end step when its table's read raises: DTAB's and DTREE's flags are 0 and the report is captured. -/
theorem exec_decodeTable_of_raise {s : State} {r : Report} (hhdr : s.valid.hdr = true)
    (h : decodeTable s s.dec.hdrTlen.toNat = .error (.raise r)) :
    exec .decodeTable s = .next ({ s with valid := s.valid.beforeDecodeTable }.raise r) := by
  rw [← decodeTable_frame (s := s) (t := { s with valid := s.valid.beforeDecodeTable }) rfl rfl] at h
  rw [exec_eq_outcome, commandBody, decodeTableBody, requireFlags_hdr _ _ hhdr]
  dsimp only
  rw [h]
  rfl

/-- Settles O35: the whole entries are read, and the next one stops the loop at its first check that fails. -/
theorem decodeTableRaisesAtTheBrokenEntry : Obligations.DecodeTableRaisesAtTheBrokenEntry := by
  intro s hhdr s1
  refine ⟨fun hempty => exec_decodeTable_of_raise hhdr (if_pos hempty), ?_⟩
  intro count raw sym htable hcount pos fin hfin hpos hsym
  have hstop {r : Report} (h : ∀ left, decodeEntries s fin (left + 1) pos = .error (.raise r)) :
      exec .decodeTable s = .next (s1.raise r) :=
    exec_decodeTable_of_raise hhdr (decodeTable_next_entry htable hcount h)
  refine ⟨fun hend => ?_, fun hin hlen => ?_, fun len hin hlen hne hshort => ?_⟩
  · exact hstop (decodeEntries_no_length hfin hpos hsym hend)
  · exact hstop (decodeEntries_zero_length hfin hpos hsym hin hlen)
  · exact hstop (decodeEntries_short_code hfin hpos hsym hin hlen hne hshort)

/-! ### The table of a built tree's codes (rule R163) -/

/-- A serialized table as it stands: a count byte that declares exactly the whole entries after it, which are those of a list of
symbols and codes. -/
structure SerializedTable (table : List Byte) (entries : List (Symbol × Code)) (count : Byte) (raw : List RawEntry) :
    Prop where
  bytes : table = count :: raw.flatMap RawEntry.bytes
  complete : ∀ e ∈ raw, e.Complete
  entries_eq : raw.map RawEntry.entry = entries
  declared_eq : declared count = raw.length

/-- ENCODE_TABLE writes the codes of a built tree as such a table (rules R100 to R104). -/
theorem buildTree_serializedTable {t : FreqTable} {tree : ETree} {table : List Byte} (h : buildTree t = some tree)
    (htable : encodeTable (deriveCodes tree) = .ok table) :
    ∃ count raw, SerializedTable table (tableEntries (deriveCodes tree)) count raw := by
  have hlen := buildTree_tableEntries_length_bounds h
  have hne := buildTree_tableEntries_ne_nil h
  rw [encodeTable_ok hne hlen] at htable
  refine ⟨BitVec.ofNat 8 ((tableEntries (deriveCodes tree)).length % 256),
    (tableEntries (deriveCodes tree)).map RawEntry.ofEntry, ?bytes, ?complete, ?entries, ?count⟩
  case bytes =>
    rw [List.flatMap_map]
    exact (Except.ok.inj htable).symm
  case complete =>
    intro e he
    obtain ⟨f, hf, rfl⟩ := List.mem_map.mp he
    exact RawEntry.ofEntry_complete (hlen f hf)
  case entries =>
    rw [List.map_map]
    exact (List.map_congr_left fun e he => RawEntry.ofEntry_entry (hlen e he).2).trans (List.map_id _)
  case count =>
    rw [← declaredCount_eq_declared, List.length_map,
      declaredCount_ofNat (List.length_pos_iff.mpr hne) (tableEntries_length_le _)]

section
variable {s : State} {table : List Byte} {entries : List (Symbol × Code)} {count : Byte} {raw : List RawEntry}
  (h : SerializedTable table entries count raw)
include h

theorem SerializedTable.length_eq : table.length = 1 + (raw.flatMap RawEntry.bytes).length := by
  rw [h.bytes, List.length_cons, Nat.add_comm]

/-- Such a table in IBUF, inside the table the header declares. -/
theorem SerializedTable.startsWith (hsize : 16 + table.length ≤ s.ibufSize)
    (hread : s.ibuf.readBytes 16 table.length = some table) (htlen : table.length ≤ s.dec.hdrTlen.toNat) :
    TableStartsWith s count raw := by
  have hlen := h.length_eq
  rw [hlen] at hsize htlen
  refine ⟨h.complete, ?_, by omega, htlen⟩
  rw [← hlen, hread, h.bytes]

end

/-- Settles O36: ENCODE_TABLE's bytes are whole entries, one for each code, and their count is the declared one. -/
theorem encodedTableDecodesToTheCodes : Obligations.EncodedTableDecodesToTheCodes := by
  intro s t tree table htree htable hhdr htlen hsize hread
  obtain ⟨count, raw, hser⟩ := buildTree_serializedTable htree htable
  have hcount : (tableEntries (deriveCodes tree)).length = declared count := by
    rw [hser.declared_eq, ← hser.entries_eq, List.length_map]
  have hdecode := decodeTable_whole (hser.startsWith hsize hread htlen.ge) (.inl hser.declared_eq.symm)
  rw [hser.entries_eq, ← hcount] at hdecode
  exact ⟨_, mem_tableEntries _, tableEntries_pairwise _, buildTree_tableEntries_length htree,
    exec_decodeTable_of_ok hhdr hdecode⟩

end Sys2Proof.Machine
end

section
/-! UNPACK's ends (rules R165 and R169): a payload whose bits leave the tree or end too early, and a finished output. -/

namespace Sys2Proof.Machine

/-! ### The walk that does not complete -/

section
variable {s : State} {steps : List (Symbol × Code)} {c : Code} (hroot : s.dec.dtree.IsNode)
  (hleaves : ∀ e ∈ steps, s.dec.dtree.at e.2 = .leaf e.1) (hcount : steps.length < s.dec.hdrOrig.toNat)
  (hnode : (s.dec.dtree.at c).IsNode)
include hroot hleaves hcount hnode

/-- Whole paths and the way to a node lead the walk there, with the paths' symbols decoded. -/
theorem walkBits_steps_to_node (j : Nat) (ys : List (Nat × Bool)) :
    walkBits s.dec.dtree s.dec.hdrOrig.toNat (indexedBits j (steps.flatMap Prod.snd ++ c) ++ ys) s.dec.dtree [] =
      walkBits s.dec.dtree s.dec.hdrOrig.toNat ys (s.dec.dtree.at c) (steps.map Prod.fst) := by
  rw [indexedBits_append, List.append_assoc,
    walkBits_steps (out := []) hroot (indexedBits_snd ..) hleaves (by simpa using hcount),
    walkBits_to_node _ _ (indexedBits_snd ..) hnode, List.nil_append]

variable {payload : List Byte} (hpayload : PayloadStartsWith s payload)
include hpayload

/-- A bit that leads from there to a missing child is reported at its byte and bit (rule R165). -/
theorem walkPayload_missing {b : Bool} {rest : List Bool} (hb : (s.dec.dtree.at c).child b = .absent)
    (hbits : payload.flatMap bitsOfByte = steps.flatMap Prod.snd ++ c ++ b :: rest) :
    walkPayload s s.dec.dtree s.dec.hdrOrig.toNat (16 + s.dec.hdrTlen.toNat) s.dec.hdrPlen.toNat 0 s.dec.dtree [] =
      .corrupt { kind := .corruptBitstream, detail := 1#8, offset := (steps.flatMap Prod.snd ++ c).length / 8,
                 bit := BitVec.ofNat 3 (7 - (steps.flatMap Prod.snd ++ c).length % 8) } (steps.map Prod.fst) := by
  obtain ⟨hread, hend, hplen⟩ := hpayload
  obtain ⟨left, hleft⟩ := Nat.exists_eq_add_of_le hplen
  rw [hleft, walkPayload_bytes (poff := 16 + s.dec.hdrTlen.toNat) (i := 0) hread hend, hbits, indexedBits_append,
    walkBits_steps_to_node hroot hleaves hcount hnode, indexedBits_cons, walkBits, hb, Nat.mul_zero, Nat.zero_add]

/-- A payload that ends there is reported at its length. -/
theorem walkPayload_ends (hlen : payload.length = s.dec.hdrPlen.toNat)
    (hbits : payload.flatMap bitsOfByte = steps.flatMap Prod.snd ++ c) :
    walkPayload s s.dec.dtree s.dec.hdrOrig.toNat (16 + s.dec.hdrTlen.toNat) s.dec.hdrPlen.toNat 0 s.dec.dtree [] =
      .corrupt { kind := .corruptBitstream, detail := 2#8, offset := s.dec.hdrPlen.toNat } (steps.map Prod.fst) := by
  obtain ⟨hread, hend, -⟩ := hpayload
  rw [← hlen, ← Nat.add_zero payload.length, walkPayload_bytes (poff := 16 + s.dec.hdrTlen.toNat) (i := 0) hread hend,
    hbits, ← List.append_nil (indexedBits _ _), walkBits_steps_to_node hroot hleaves hcount hnode, walkBits, Nat.zero_add]
  rfl

end

/-! ### The command -/

section
variable {s : State} (hhdr : s.valid.hdr = true) (hdtree : s.valid.dtree = true)
include hhdr hdtree

theorem exec_unpack_of_long (hlong : s.obufSize < s.dec.hdrOrig.toNat) :
    exec .unpack s = .next (s.raise { kind := .outputOverflow, detail := 3#8, offset := 4 }) := by
  rw [exec_eq_outcome, commandBody, unpackBody, requireFlags_hdr_dtree _ _ hhdr hdtree]
  exact congrArg Result.outcome (if_pos hlong)

/-- UNPACK's end step when its walk meets CorruptBitstream: the bytes decoded before stand in OBUF (rule R228). -/
theorem exec_unpack_of_corrupt (hfit : s.dec.hdrOrig.toNat ≤ s.obufSize) (hpos : s.dec.hdrOrig.toNat ≠ 0) {r : Report}
    {out : List Byte}
    (hwalk : walkPayload s s.dec.dtree s.dec.hdrOrig.toNat (16 + s.dec.hdrTlen.toNat) s.dec.hdrPlen.toNat 0 s.dec.dtree [] =
      .corrupt r out) :
    ∃ t, exec .unpack s = .next t ∧ t = { s with obuf := t.obuf }.raise r ∧
      ∀ a, t.obuf.read a = if a < out.length then out[a]? else s.obuf.read a := by
  have hbody : unpackBody s = .raise r { s with obuf := s.obuf.writeBytes 0 out } := by
    rw [unpackBody, requireFlags_hdr_dtree _ _ hhdr hdtree]
    refine ((if_neg (Nat.not_lt.mpr hfit)).trans (if_neg hpos)).trans ?_
    rw [hwalk]
    rfl
  rw [exec_eq_outcome, commandBody, hbody]
  refine ⟨_, rfl, rfl, fun a => (Memory.read_writeBytes ..).trans ?_⟩
  simp

end

/-- Settles O40: the walk goes along the whole paths and the start of the next one, and stops at the missing child or at the
payload's end. -/
theorem unpackRaisesWithTheDecodedBytes : Obligations.UnpackRaisesWithTheDecodedBytes := by
  intro s hhdr hdtree
  refine ⟨exec_unpack_of_long hhdr hdtree, ?_⟩
  intro steps c payload hfit hleaves hcount hroot hnode hpayload
  have hcorrupt {r : Report} (hwalk : walkPayload s s.dec.dtree s.dec.hdrOrig.toNat (16 + s.dec.hdrTlen.toNat)
      s.dec.hdrPlen.toNat 0 s.dec.dtree [] = .corrupt r (steps.map Prod.fst)) :=
    exec_unpack_of_corrupt hhdr hdtree hfit (by omega) hwalk
  simp only [List.length_map] at hcorrupt
  refine ⟨fun b rest hb _ hbits => ?_, fun hlen hbits => ?_⟩
  · exact hcorrupt (walkPayload_missing hroot hleaves hcount hnode hpayload hb hbits)
  · obtain ⟨t, hexec, ht, hread⟩ := hcorrupt (walkPayload_ends hroot hleaves hcount hnode hpayload hlen hbits)
    refine ⟨t, hexec, ht.trans ?_, hread⟩
    rw [State.raise, BitVec.ofNat_toNat, BitVec.setWidth_eq]
    rfl

/-! ### The output of a finished run (rule R169) -/

theorem unpackBody_finished {s t : State} (hdone : s.done = false) (h : (unpackBody s).outcome = .next t)
    (ht : t.done = true) : t.outLen = t.dec.hdrOrig ∧ ∀ a, a < t.outLen.toNat → (t.obuf.read a).isSome = true := by
  have hraise {r : Report} {u : State} (hb : unpackBody s = .raise r u) (hu : u.done = s.done) : False := by
    rw [hb] at h
    cases h
    rw [State.raise_done, hu, hdone] at ht
    cases ht
  rcases unpackBody_cases s with ⟨b, -, -, hb⟩ | ⟨-, -, ⟨-, hb⟩ | ⟨hzero, hb⟩ | ⟨out, -, -, hlen, -, hb⟩ |
    ⟨r, out, -, -, -, -, hb⟩ | ⟨f, hb⟩⟩
  · exact (hraise hb rfl).elim
  · exact (hraise hb rfl).elim
  · rw [hb] at h
    cases h
    exact ⟨(BitVec.eq_of_toNat_eq hzero).symm, fun a ha => absurd ha (Nat.not_lt_zero a)⟩
  · rw [hb] at h
    cases h
    refine ⟨rfl, fun a ha => ?_⟩
    have ha : a < out.length := ha.trans_eq hlen.symm
    rw [State.finish_obuf, Memory.read_writeBytes, if_pos ⟨Nat.zero_le a, by omega⟩, Nat.sub_zero,
      List.getElem?_eq_getElem ha]
    rfl
  · exact (hraise hb rfl).elim
  · rw [hb] at h
    cases h

/-- Settles O41: a command that decodes finishes as UNPACK does; a raise of a step before it leaves DONE 0. -/
theorem finishedOutputHasTheOriginalLength : Obligations.FinishedOutputHasTheOriginalLength := by
  intro i s t hi hdone h ht
  rw [exec_eq_outcome] at h
  rcases decodingCommand_endsAs hi s with ⟨u, hu, hb⟩ | ⟨r, u, hu, hb⟩ | ⟨f, hb⟩ <;> rw [hb] at h
  · exact unpackBody_finished (hu.done_eq.trans hdone) h ht
  · cases h
    rw [State.raise_done, hu.done_eq, hdone] at ht
    cases ht
  · cases h

end Sys2Proof.Machine
end

section
/-! DECOMPRESS (rules R166 and R207): its four steps on a whole container, and the step that ends it when one raises. -/

namespace Sys2Proof.Machine

/-! ### The steps' bodies -/

theorem readContainerBody_of_header {s : State} {orig plen tlen : Word} (hlen : s.inLen.toNat ≤ s.ibufSize)
    (h : readHeader s s.inLen.toNat = .ok (orig, plen, tlen)) :
    readContainerBody s = .finish { s with
      valid := { s.valid.beforeReadContainer with hdr := true }
      dec := { s.dec with hdrOrig := orig, hdrPlen := plen, hdrTlen := tlen } } := by
  rw [readContainerBody_of_fits hlen, h]
  rfl

theorem decodeTableBody_of_ok {s : State} {decl : Nat} {entries : List (Symbol × Code)} (hhdr : s.valid.hdr = true)
    (h : decodeTable s s.dec.hdrTlen.toNat = .ok (decl, entries)) :
    decodeTableBody s = .finish { s with
      valid := { s.valid.beforeDecodeTable with dtab := true }, dec := { s.dec with decl := decl, dtab := entries } } := by
  rw [← decodeTable_frame (s := s) (t := { s with valid := s.valid.beforeDecodeTable }) rfl rfl] at h
  rw [decodeTableBody, requireFlags_hdr _ _ hhdr]
  dsimp only
  rw [h]
  rfl

theorem rebuildTreeBody_of_ok {s : State} {tree : DTree} (hdtab : s.valid.dtab = true)
    (h : rebuildTree s.dec.dtab = .ok tree) :
    rebuildTreeBody s = .finish { s with
      valid := { s.valid.beforeRebuildTree with dtree := true }, dec := { s.dec with dtree := tree } } := by
  rw [rebuildTreeBody, requireFlags_dtab _ _ hdtab]
  dsimp only
  rw [h]

theorem Result.andThen_assoc (x : Result) (k l : State → Result) :
    (x.andThen k).andThen l = x.andThen fun s => (k s).andThen l := by
  cases x <;> rfl

/-- DECOMPRESS as its first step and what comes after it (rule R166). -/
theorem exec_decompress (s : State) : exec .decompress s =
    ((commandBody .readContainer s).andThen fun s => (commandBody .decodeTable s).andThen fun s =>
      (commandBody .rebuildTree s).andThen (commandBody .unpack)).outcome := by
  rw [exec_eq_outcome, commandBody, decompressBody, Result.andThen_assoc, Result.andThen_assoc]
  rfl

/-! ### A whole container -/

/-- What the first three steps leave: the header, the table and the tree, all valid. -/
def State.containerDecoded (s : State) (dec : DecProducts) : State :=
  { s with valid := { s.valid with hdr := true, dtab := true, dtree := true }, dec := dec }

/-- When the header, the table and the tree can be made, DECOMPRESS ends as UNPACK does on them. -/
theorem exec_decompress_eq_unpack {s : State} {orig plen tlen : Word} {decl : Nat} {entries : List (Symbol × Code)}
    {tree : DTree} (hlen : s.inLen.toNat ≤ s.ibufSize) (hheader : readHeader s s.inLen.toNat = .ok (orig, plen, tlen))
    (htable : decodeTable s tlen.toNat = .ok (decl, entries)) (htree : rebuildTree entries = .ok tree) :
    exec .decompress s = exec .unpack (s.containerDecoded
      { hdrOrig := orig, hdrPlen := plen, hdrTlen := tlen, dtab := entries, decl := decl, dtree := tree }) := by
  simp only [exec_decompress, exec_eq_outcome .unpack, commandBody]
  rw [readContainerBody_of_header hlen hheader, Result.andThen_finish,
    decodeTableBody_of_ok (decl := decl) (entries := entries) rfl
      ((decodeTable_frame (s := s) (by rfl) (by rfl) tlen.toNat).trans htable),
    Result.andThen_finish, rebuildTreeBody_of_ok (tree := tree) rfl htree, Result.andThen_finish]
  rfl

/-! ### The step that ends DECOMPRESS -/

/-- The decoder's flags of VALID. -/
def DecoderFlags (hdr dtab dtree : Bool) (s : State) : Prop :=
  s.valid.hdr = hdr ∧ s.valid.dtab = dtab ∧ s.valid.dtree = dtree

/-- A body that raises only with one of the codes and then leaves `P`, and that leaves `Q` when it finishes. -/
def Result.EndsWith (codes : List Byte) (P Q : State → Prop) : Result → Prop
  | .finish s => Q s
  | .raise r s => r.kind.code ∈ codes ∧ P s
  | .fault _ => True

theorem readContainerBody_endsWith (s : State) : (readContainerBody s).EndsWith [13#8, 2#8, 5#8]
    (DecoderFlags false false false) (DecoderFlags true false false) := by
  rcases readContainerBody_cases s with ⟨r, hr, h⟩ | ⟨x, -, -, h⟩ | ⟨f, h⟩ <;> rw [h]
  · refine ⟨?_, rfl, rfl, rfl⟩
    rcases hr with hr | hr | hr <;> rw [hr] <;> decide
  · exact ⟨rfl, rfl, rfl⟩
  · trivial

theorem decodeTableBody_endsWith {s : State} (hs : DecoderFlags true false false s) :
    (decodeTableBody s).EndsWith [3#8, 4#8, 5#8] (DecoderFlags true false false) (DecoderFlags true true false) := by
  obtain ⟨hhdr, -, -⟩ := hs
  rcases decodeTableBody_cases s with ⟨hf, -⟩ | ⟨r, -, hr, h⟩ | ⟨d, -, -, h⟩ | ⟨f, h⟩
  · exact absurd (hf.symm.trans hhdr) nofun
  · rw [h]
    refine ⟨?_, hhdr, rfl, rfl⟩
    rcases decodeTable_error hr with hr | hr | hr <;> rw [hr] <;> decide
  · rw [h]
    exact ⟨hhdr, rfl, rfl⟩
  · rw [h]
    trivial

theorem rebuildTreeBody_endsWith {s : State} (hs : DecoderFlags true true false s) :
    (rebuildTreeBody s).EndsWith [11#8] (DecoderFlags true true false) (DecoderFlags true true true) := by
  obtain ⟨hhdr, hdtab, -⟩ := hs
  rcases rebuildTreeBody_cases s with ⟨hf, -⟩ | ⟨r, -, hr, h⟩ | ⟨tree, -, -, h⟩
  · exact absurd (hf.symm.trans hdtab) nofun
  · rw [h]
    exact ⟨by rw [rebuildLoop_error hr]; decide, hhdr, hdtab, rfl⟩
  · rw [h]
    exact ⟨hhdr, hdtab, rfl⟩

theorem unpackBody_endsWith {s : State} (hs : DecoderFlags true true true s) :
    (unpackBody s).EndsWith [10#8, 6#8] (DecoderFlags true true true) (DecoderFlags true true true) := by
  have hflags := hs
  obtain ⟨hhdr, -, hdtree⟩ := hflags
  rcases unpackBody_cases s with ⟨b, hb, hf, -⟩ | ⟨-, -, ⟨-, h⟩ | ⟨-, h⟩ | ⟨out, -, -, -, -, h⟩ |
    ⟨r, out, -, -, hr, -, h⟩ | ⟨f, h⟩⟩
  · simp only [List.mem_cons, List.not_mem_nil, or_false] at hb
    rcases hb with rfl | rfl
    · exact absurd (hf.symm.trans hhdr) nofun
    · exact absurd (hf.symm.trans hdtree) nofun
  all_goals rw [h]
  · exact ⟨by decide, hs⟩
  · exact hs
  · exact hs
  · exact ⟨by rw [hr]; decide, hs⟩
  · trivial

theorem BodyFrame.seq_eq {s u : State} (h : BodyFrame s u) : u.seq = s.seq := by
  obtain ⟨_, _, _, _, _, rfl⟩ := h
  rfl

theorem BodyFrame.done_eq {s u : State} (h : BodyFrame s u) : u.done = s.done := by
  obtain ⟨_, _, _, _, _, rfl⟩ := h
  rfl

theorem stepOver_finish {u : State} (hbusy : u.seq = .busy) (hdone : u.done = false) : stepOver u.finish = u := by
  rw [stepOver, ← hbusy, ← hdone]
  rfl

/-- A step of a running composite that raises ends the composite (rule R207); one that finishes lets it go on from what the step's
body left. -/
theorem exec_step_cases {i : Instr} {s t : State} {codes : List Byte} {hdr dtab dtree hdr' dtab' dtree' : Bool}
    (hends : (commandBody i s).EndsWith codes (DecoderFlags hdr dtab dtree) (DecoderFlags hdr' dtab' dtree'))
    (hbusy : s.seq = .busy) (hdone : s.done = false) (h : exec i s = .next t) :
    (t.done = false → (∀ k, ((commandBody i s).andThen k).outcome = .next t) ∧ t.err = true ∧ t.errCode ∈ codes ∧
      DecoderFlags hdr dtab dtree t) ∧
    (t.done = true → (∀ k, (commandBody i s).andThen k = k (stepOver t)) ∧
      DecoderFlags hdr' dtab' dtree' (stepOver t)) := by
  have hframe := commandBody_frame i s
  rw [exec_eq_outcome] at h
  rcases Result.outcome_eq_next h with ⟨u, hu, rfl⟩ | ⟨r, u, hu, rfl⟩ <;> rw [hu] at hframe hends ⊢ <;>
    have hdone' := hframe.done_eq.trans hdone
  · have hover := stepOver_finish (hframe.seq_eq.trans hbusy) hdone'
    exact ⟨nofun, fun _ => ⟨fun k => by rw [hover]; rfl, hends⟩⟩
  · exact ⟨fun _ => ⟨fun k => rfl, rfl, hends⟩, fun ht => absurd (hdone'.symm.trans ht) nofun⟩

/-- Settles O42: on a whole container the steps' bodies finish one after another; on any other input the first that raises ends
DECOMPRESS with its own error, and what the ones before it made valid. -/
theorem decompressDecodesTheContainer : Obligations.DecompressDecodesTheContainer := by
  refine ⟨?whole, ?stepwise⟩
  case whole =>
    intro s orig plen tlen count raw steps payload padding hlen hlengths hfit hheader htable hend hgood hpayload hsteps
      hcount hbits hpadding
    obtain ⟨tree, htree⟩ := rebuildTree_exists hgood
    obtain ⟨hleaf, hnode⟩ := rebuildTree_at htree
    have hdecode := (decodeTable_frame (s := s) (by rfl) (by rfl) tlen.toNat).symm.trans (decodeTable_whole htable hend)
    rw [exec_decompress_eq_unpack hlen (readHeader_ok hlen hheader hlengths) hdecode htree]
    obtain ⟨t, hexec, ht, hread⟩ :=
      unpackWalksThePaths (s.containerDecoded ⟨orig, plen, tlen, raw.map RawEntry.entry, declared count, tree⟩) steps
        payload padding rfl rfl hfit ((hnode []).mpr (.inl rfl)) (fun e he => (hleaf e.2 e.1).mpr (hsteps e he)) hcount
        hpayload hbits hpadding
    exact ⟨tree, t, htree, hexec, ht, hread⟩
  case stepwise =>
    intro s t1 hbusy hdone h1
    obtain ⟨hraise1, hfinish1⟩ := exec_step_cases (readContainerBody_endsWith s) hbusy hdone h1
    rw [exec_decompress]
    refine ⟨fun hd1 => ?_, fun hd1 t2 h2 => ?_⟩
    · obtain ⟨hnext, hend⟩ := hraise1 hd1
      exact ⟨hnext _, hend⟩
    obtain ⟨hgoesOn1, hflags1⟩ := hfinish1 hd1
    obtain ⟨hraise2, hfinish2⟩ := exec_step_cases (decodeTableBody_endsWith hflags1) rfl rfl h2
    rw [hgoesOn1]
    refine ⟨fun hd2 => ?_, fun hd2 t3 h3 => ?_⟩
    · obtain ⟨hnext, hend⟩ := hraise2 hd2
      exact ⟨hnext _, hend⟩
    obtain ⟨hgoesOn2, hflags2⟩ := hfinish2 hd2
    obtain ⟨hraise3, hfinish3⟩ := exec_step_cases (rebuildTreeBody_endsWith hflags2) rfl rfl h3
    rw [hgoesOn2]
    refine ⟨fun hd3 => ?_, fun hd3 t4 h4 => ?_⟩
    · obtain ⟨hnext, herr, hcode, hflags⟩ := hraise3 hd3
      exact ⟨hnext _, herr, List.mem_singleton.mp hcode, hflags⟩
    obtain ⟨hgoesOn3, hflags3⟩ := hfinish3 hd3
    obtain ⟨hraise4, hfinish4⟩ := exec_step_cases (unpackBody_endsWith hflags3) rfl rfl h4
    rw [hgoesOn3, ← exec_eq_outcome]
    cases hd4 : t4.done with
    | false =>
      obtain ⟨-, herr, hcode, hflags⟩ := hraise4 hd4
      exact ⟨h4, fun _ => ⟨herr, hcode⟩, hflags⟩
    | true =>
      obtain ⟨-, hflags⟩ := hfinish4 hd4
      exact ⟨h4, nofun, hflags⟩

end Sys2Proof.Machine
end

section
/-! The round trip (rule R168): the container that a finished COMPRESS leaves is one that DECOMPRESS decodes to the input. -/

namespace Sys2Proof.Machine

/-! ### A container in a memory -/

/-- A run of bytes copied from another memory. -/
theorem Memory.readBytes_congr {m m' : Memory} {a n : Nat} {bytes : List Byte} (h : m.readBytes a n = some bytes)
    (hcopy : ∀ k, k < n → m'.read (a + k) = m.read (a + k)) : m'.readBytes a n = some bytes :=
  (readBytes_eq_some_iff ..).mpr ⟨readBytes_length h, fun k hk => (hcopy k hk).trans (readBytes_get h hk)⟩

/-- The header, the table and the payload of a container that stands in a memory from address 0 (rule R92). -/
theorem container_parts {m : Memory} {orig : Word} {table payload : List Byte}
    (h : m.readBytes 0 (containerBytes orig table payload).length = some (containerBytes orig table payload)) :
    m.readBytes 0 16 = some (headerLayout orig (BitVec.ofNat 32 payload.length) (BitVec.ofNat 32 table.length)) ∧
      m.readBytes 16 table.length = some table ∧ m.readBytes (16 + table.length) payload.length = some payload := by
  obtain ⟨h, hpayload⟩ := (Memory.readBytes_append ..).mp h
  obtain ⟨hheader, htable⟩ := (Memory.readBytes_append ..).mp h
  rw [List.length_append, Nat.zero_add] at hpayload
  exact ⟨hheader, htable, hpayload⟩

/-! ### The codes of the input -/

/-- An input's bytes with their codes: the steps of the walk that decodes them. -/
def codedSteps (t : CodeTable) (input : List Byte) : List (Symbol × Code) :=
  input.map fun b => (b, (codeAt t b).getD [])

theorem codedSteps_symbols (t : CodeTable) (input : List Byte) : (codedSteps t input).map Prod.fst = input := by
  rw [codedSteps, List.map_map]
  exact List.map_id _

theorem codedSteps_bits (t : CodeTable) (input : List Byte) :
    (codedSteps t input).flatMap Prod.snd = codeBits t input := by
  rw [codedSteps, List.flatMap_map]
  rfl

theorem codedSteps_length (t : CodeTable) (input : List Byte) : (codedSteps t input).length = input.length :=
  List.length_map _

theorem mem_tableEntries_of_mem_codedSteps {t : CodeTable} {input : List Byte}
    (hcodes : ∀ b ∈ input, (codeAt t b).isSome = true) : ∀ e ∈ codedSteps t input, e ∈ tableEntries t := by
  intro e he
  obtain ⟨b, hb, rfl⟩ := List.mem_map.mp he
  obtain ⟨c, hc⟩ := Option.isSome_iff_exists.mp (hcodes b hb)
  rw [mem_tableEntries, hc]
  rfl

/-! ### Decompressing a container of the input -/

/-- DECOMPRESS of a block that holds the container COMPRESS makes of an input. -/
theorem CompressRun.decompresses {s u : State} {input : List Byte} {tree : ETree} {table : List Byte}
    (h : CompressRun s input tree table) (htotal : 16 + table.length + (payloadOf tree input).length < 2 ^ 32)
    (hlen : u.inLen.toNat = 16 + table.length + (payloadOf tree input).length) (hibuf : u.inLen.toNat ≤ u.ibufSize)
    (hobuf : input.length ≤ u.obufSize)
    (hread : u.ibuf.readBytes 0 (containerBytes s.inLen table (payloadOf tree input)).length =
      some (containerBytes s.inLen table (payloadOf tree input))) :
    ∃ v, exec .decompress u = .next v ∧ v.done = true ∧ v.err = u.err ∧ v.outLen.toNat = input.length ∧
      v.obuf.readBytes 0 input.length = some input := by
  obtain ⟨hheader, htable, hpayload⟩ := container_parts hread
  obtain ⟨count, raw, hser⟩ := buildTree_serializedTable h.built h.encoded
  obtain ⟨padding, hbits, hpadding⟩ := flatMap_packMSB (codeBits (deriveCodes tree) input)
  have hword {n : Nat} (hn : n < 2 ^ 32) : (BitVec.ofNat 32 n).toNat = n := by
    rw [BitVec.toNat_ofNat, Nat.mod_eq_of_lt hn]
  have htlen := hword (n := table.length) (by omega)
  have hplen := hword (n := (payloadOf tree input).length) (by omega)
  have hcount := (codedSteps_length (deriveCodes tree) input).trans h.length_eq
  have hstarts : TableStartsWith { u with dec := { u.dec with hdrTlen := BitVec.ofNat 32 table.length } } count raw :=
    hser.startsWith (by change _ ≤ u.ibufSize; omega) htable htlen.ge
  have hpayloadStarts : PayloadStartsWith
      { u with dec := { u.dec with
          hdrTlen := BitVec.ofNat 32 table.length, hdrPlen := BitVec.ofNat 32 (payloadOf tree input).length } }
      (payloadOf tree input) := by
    rw [PayloadStartsWith]
    dsimp only
    rw [htlen, hplen]
    exact ⟨hpayload, by change _ ≤ u.ibufSize; omega, Nat.le_refl _⟩
  have hsteps := mem_tableEntries_of_mem_codedSteps (countSymbols_coded h.length_lt h.built)
  have hgood := buildTree_goodEntries h.built
  rw [← hser.entries_eq] at hsteps hgood
  obtain ⟨hwhole, -⟩ := decompressDecodesTheContainer
  obtain ⟨_, v, -, hexec, hv, hstored⟩ := hwhole u s.inLen _ _ count raw (codedSteps (deriveCodes tree) input) _ padding
    hibuf (by rw [htlen, hplen, hlen]) (h.length_eq ▸ hobuf) hheader hstarts (.inl hser.declared_eq.symm) hgood
    hpayloadStarts hsteps hcount (by rw [codedSteps_bits]; exact hbits) hpadding
  obtain ⟨hdone, herr, houtLen⟩ : v.done = true ∧ v.err = u.err ∧ v.outLen = s.inLen := by
    rw [hv]
    exact ⟨rfl, rfl, rfl⟩
  refine ⟨v, hexec, hdone, herr, by rw [houtLen, h.length_eq], (Memory.readBytes_eq_some_iff ..).mpr ⟨rfl, ?_⟩⟩
  intro k hk
  rw [hstored, codedSteps_length, codedSteps_symbols, Nat.zero_add, if_pos hk]

/-- Settles O44: COMPRESS finished with the container of its input, which the other block's IBUF holds. -/
theorem decompressInvertsCompress : Obligations.DecompressInvertsCompress := by
  intro s t u input hdone hread hexec ht hlen hibuf hobuf hcopy
  obtain ⟨input', tree, table, m, h, hfit, hm, rfl⟩ := compress_finished hdone hexec ht
  obtain rfl : input' = input := Option.some.inj (h.read.symm.trans hread)
  have htotal : 16 + table.length + (payloadOf tree input').length < 2 ^ 32 := hfit.trans_lt s.params.obufSize.isLt
  have hout : (s.compressed input' tree table m).finish.outLen.toNat =
      16 + table.length + (payloadOf tree input').length := by
    rw [State.finish_outLen, State.compressed, BitVec.toNat_ofNat, Nat.mod_eq_of_lt htotal]
  rw [hout, State.finish_obuf, State.compressed_obuf] at hcopy
  rw [← hlen] at hout hibuf
  refine h.decompresses htotal hout hibuf hobuf ?_
  refine Memory.readBytes_congr (m := m) (hm ▸ Memory.readBytes_writeBytes ..) fun k hk => ?_
  rw [containerBytes_length] at hk
  exact hcopy (0 + k) (by omega)

end Sys2Proof.Machine
end

section
/-! The decoder reads no encoder product and no encoder flag (rule R160): two runs of a decoder command from states that differ
only in those end alike and differ only in those. -/

namespace Sys2Proof.Machine

/-- The encoder's products and its five flags replaced, the flags by those of `v`. -/
def State.withEncoder (e : EncProducts) (v : Valid) (s : State) : State :=
  { s with enc := e, valid := { s.valid with ft := v.ft, etree := v.etree, ct := v.ct, etab := v.etab, pbuf := v.pbuf } }

@[simp] theorem State.withEncoder_dec (e : EncProducts) (v : Valid) (s : State) : (s.withEncoder e v).dec = s.dec := rfl

/-- A body's end with the state it left changed. -/
def Result.map (g : State → State) : Result → Result
  | .finish s => .finish (g s)
  | .raise r s => .raise r (g s)
  | .fault f => .fault f

section
variable {g : State → State}

theorem Result.map_ite {p : Prop} [Decidable p] {x x' y y' : Result} (hx : x' = x.map g) (hy : y' = y.map g) :
    (if p then x' else y') = (if p then x else y).map g := by
  split
  · exact hx
  · exact hy

theorem Result.map_afterLoop {α : Type} {x x' : Except Stop α} {s s' : State} {k k' : α → Result} (hx : x' = x)
    (hs : s' = g s) (hk : ∀ a, k' a = (k a).map g) :
    Result.afterLoop x' s' k' = (Result.afterLoop x s k).map g := by
  subst hx hs
  rcases x' with (r | f) | a
  · rfl
  · rfl
  · exact hk a

end

/-- A body whose run carries other encoder products and flags along, unread. -/
def BlindToEncoder (body : State → Result) : Prop :=
  ∀ (e : EncProducts) (v : Valid) (s : State), body (s.withEncoder e v) = (body s).map (State.withEncoder e v)

theorem BlindToEncoder.andThen {body k : State → Result} (hbody : BlindToEncoder body) (hk : BlindToEncoder k) :
    BlindToEncoder fun s => (body s).andThen k := by
  intro e v s
  dsimp only
  rw [hbody]
  cases body s with
  | finish u => exact hk e v u
  | raise r u => rfl
  | fault f => rfl

/-- A prerequisite check of decoder flags. -/
theorem BlindToEncoder.requireFlags {need : List ValidBit} {k : State → Result}
    (hneed : ∀ e v s, firstMissing (State.withEncoder e v s).valid need = firstMissing s.valid need)
    (hk : BlindToEncoder k) : BlindToEncoder fun s => requireFlags need s k := by
  intro e v s
  simp only [Machine.requireFlags, hneed]
  split
  · exact hk e v s
  · rfl

theorem readContainerBody_blindToEncoder : BlindToEncoder readContainerBody := fun _ _ _ =>
  Result.map_ite rfl (Result.map_afterLoop (readHeader_frame (by rfl) (by rfl) _) rfl fun _ => rfl)

theorem decodeTableBody_blindToEncoder : BlindToEncoder decodeTableBody :=
  .requireFlags (fun _ _ _ => rfl) fun _ _ _ =>
    Result.map_afterLoop (decodeTable_frame (by rfl) (by rfl) _) rfl fun _ => rfl

theorem rebuildTreeBody_blindToEncoder : BlindToEncoder rebuildTreeBody :=
  .requireFlags (fun _ _ _ => rfl) fun e v s => by
    dsimp only [State.withEncoder_dec]
    cases rebuildTree s.dec.dtab with
    | error r => rfl
    | ok tree => rfl

theorem unpackBody_blindToEncoder : BlindToEncoder unpackBody :=
  .requireFlags (fun _ _ _ => rfl) fun e v s => Result.map_ite rfl <| Result.map_ite rfl <| by
    dsimp only [State.withEncoder_dec]
    rw [walkPayload_frame (s := s) (t := s.withEncoder e v) rfl rfl]
    cases walkPayload s s.dec.dtree _ _ _ _ _ _ with
    | complete out => rfl
    | corrupt r out => rfl
    | stopped e => cases e <;> rfl

theorem decompressBody_blindToEncoder : BlindToEncoder decompressBody :=
  readContainerBody_blindToEncoder.andThen decodeTableBody_blindToEncoder |>.andThen rebuildTreeBody_blindToEncoder
    |>.andThen unpackBody_blindToEncoder

/-- Settles O45: the bodies are blind to the encoder, and a command's end does not touch it. -/
theorem decoderIgnoresEncoderProducts : Obligations.DecoderIgnoresEncoderProducts := by
  intro i s t e f1 f2 f3 f4 f5 hi h
  have hblind : BlindToEncoder (commandBody i) := by
    simp only [List.mem_cons, List.not_mem_nil, or_false] at hi
    rcases hi with rfl | rfl | rfl | rfl | rfl
    · exact readContainerBody_blindToEncoder
    · exact decodeTableBody_blindToEncoder
    · exact rebuildTreeBody_blindToEncoder
    · exact unpackBody_blindToEncoder
    · exact decompressBody_blindToEncoder
  have hrun := hblind e ⟨f1, f2, f3, f4, f5, false, false, false⟩ s
  rw [exec_eq_outcome] at h ⊢
  refine (congrArg Result.outcome hrun).trans ?_
  rcases Result.outcome_eq_next h with ⟨u, hu, rfl⟩ | ⟨r, u, hu, rfl⟩ <;> rw [hu] <;> rfl

end Sys2Proof.Machine
end

section
/-! How every command ends (rules R203, R220 and R223): what PACK's loops can raise, then for each body the reports it can raise and
the OUT_LEN it raises them with. -/

namespace Sys2Proof.Machine

/-! ### PACK's reports (rule R136) -/

/-- A computation that passes on the stop of another raises what that one raises. -/
theorem RaisesOnly.of_error {kinds : List ErrorKind} {α β : Type} {x : Except Stop α} {e : Stop} (hx : RaisesOnly kinds x)
    (h : x = .error e) : RaisesOnly kinds (.error e : Except Stop β) := by
  rintro r ⟨⟩
  exact hx r h

theorem packBit_raisesOnly (cap i : Nat) (p : PackState) (b : Bool) :
    RaisesOnly [.noCode, .outputOverflow] (packBit cap i p b) :=
  .ite (.ite (.raise (by simp [packOverflow])) .ok) .ok

theorem packCode_raisesOnly (cap i : Nat) (p : PackState) (c : Code) :
    RaisesOnly [.noCode, .outputOverflow] (packCode cap i p c) := by
  induction c generalizing p with
  | nil => exact .ok
  | cons b c ih =>
    rw [packCode]
    cases hb : packBit cap i p b with
    | ok p' => exact ih p'
    | error e => exact (packBit_raisesOnly cap i p b).of_error hb

theorem packInput_raisesOnly (s : State) (left i : Nat) (p : PackState) :
    RaisesOnly [.noCode, .outputOverflow] (packInput s left i p) := by
  induction left generalizing i p with
  | zero => exact .ok
  | succ left ih =>
    rw [packInput]
    cases hread : readIbuf s i with
    | error e => exact readIbuf_raisesOnly.of_error hread
    | ok b =>
      dsimp only
      cases codeAt s.enc.ct b with
      | none => exact .raise (by simp)
      | some c =>
        dsimp only
        cases hcode : packCode s.obufSize i p c with
        | error e => exact (packCode_raisesOnly _ i p c).of_error hcode
        | ok p' => exact ih (i + 1) p'

theorem packFlush_raisesOnly (cap n : Nat) (p : PackState) :
    RaisesOnly [.noCode, .outputOverflow] (packFlush cap n p) :=
  .ite .ok (.ite (.raise (by simp [packOverflow])) .ok)

theorem packAll_raisesOnly (s : State) (n : Nat) : RaisesOnly [.noCode, .outputOverflow] (packAll s n) := by
  rw [packAll]
  cases hin : packInput s n 0 PackState.start with
  | error e => exact (packInput_raisesOnly s n 0 _).of_error hin
  | ok p => exact packFlush_raisesOnly _ n p

/-! ### What the bodies raise -/

/-- If a body run on `s` raises, then not IllegalCommand, which ends only a word that is no command (rule R206), and with the
OUT_LEN of `s`. -/
def Result.RaisesFrom (s : State) : Result → Prop
  | .finish _ => True
  | .raise r u => r.kind ≠ .illegalCommand ∧ u.outLen = s.outLen
  | .fault _ => True

theorem freqBody_raisesFrom (s : State) : (freqBody s).RaisesFrom s := by
  rcases freqBody_cases s with ⟨-, h⟩ | ⟨-, -, h⟩ | ⟨bytes, -, -, -, -, h⟩ | ⟨f, h⟩ <;> rw [h]
  · exact ⟨nofun, rfl⟩
  · exact ⟨nofun, rfl⟩
  · trivial
  · trivial

theorem buildTreeBody_raisesFrom (s : State) : (buildTreeBody s).RaisesFrom s := by
  rcases buildTreeBody_cases s with ⟨-, h⟩ | ⟨tree, -, -, h⟩ | ⟨-, -, h⟩ <;> rw [h]
  · exact ⟨nofun, rfl⟩
  · trivial
  · trivial

theorem deriveCodesBody_raisesFrom (s : State) : (deriveCodesBody s).RaisesFrom s := by
  rcases deriveCodesBody_cases s with ⟨-, h⟩ | ⟨-, h⟩ <;> rw [h]
  · exact ⟨nofun, rfl⟩
  · trivial

theorem encodeTableBody_raisesFrom (s : State) : (encodeTableBody s).RaisesFrom s := by
  rcases encodeTableBody_cases s with ⟨-, h⟩ | ⟨r, -, herr, h⟩ | ⟨bytes, -, -, h⟩ <;> rw [h]
  · exact ⟨nofun, rfl⟩
  · rcases encodeTable_error herr with hk | hk <;> exact ⟨by rw [hk]; nofun, rfl⟩
  · trivial

theorem packBody_raisesFrom (s : State) : (packBody s).RaisesFrom s := by
  rcases packBody_cases s with ⟨-, h⟩ | ⟨r, -, herr, h⟩ | ⟨p, -, -, h⟩ | ⟨f, h⟩ <;> rw [h]
  · exact ⟨nofun, rfl⟩
  · have hk : r.kind = .noCode ∨ r.kind = .outputOverflow := by simpa using packAll_raisesOnly _ _ r herr
    rcases hk with hk | hk <;> exact ⟨by rw [hk]; nofun, rfl⟩
  · trivial
  · trivial

theorem writeContainerBody_raisesFrom (s : State) : (writeContainerBody s).RaisesFrom s := by
  rcases writeContainerBody_cases s with ⟨b, -, -, h⟩ | ⟨-, -, -, h⟩ | ⟨-, -, -, h⟩ <;> rw [h]
  · exact ⟨nofun, rfl⟩
  · exact ⟨nofun, rfl⟩
  · trivial

theorem readContainerBody_raisesFrom (s : State) : (readContainerBody s).RaisesFrom s := by
  rcases readContainerBody_cases s with ⟨r, hk, h⟩ | ⟨hdr, -, -, h⟩ | ⟨f, h⟩ <;> rw [h]
  · rcases hk with hk | hk | hk <;> exact ⟨by rw [hk]; nofun, rfl⟩
  · trivial
  · trivial

theorem decodeTableBody_raisesFrom (s : State) : (decodeTableBody s).RaisesFrom s := by
  rcases decodeTableBody_cases s with ⟨-, h⟩ | ⟨r, -, herr, h⟩ | ⟨d, -, -, h⟩ | ⟨f, h⟩ <;> rw [h]
  · exact ⟨nofun, rfl⟩
  · rcases decodeTable_error herr with hk | hk | hk <;> exact ⟨by rw [hk]; nofun, rfl⟩
  · trivial
  · trivial

theorem rebuildTreeBody_raisesFrom (s : State) : (rebuildTreeBody s).RaisesFrom s := by
  rcases rebuildTreeBody_cases s with ⟨-, h⟩ | ⟨r, -, herr, h⟩ | ⟨tree, -, -, h⟩ <;> rw [h]
  · exact ⟨nofun, rfl⟩
  · exact ⟨by rw [rebuildLoop_error herr]; nofun, rfl⟩
  · trivial

theorem unpackBody_raisesFrom (s : State) : (unpackBody s).RaisesFrom s := by
  rcases unpackBody_cases s with ⟨b, -, -, h⟩ | ⟨-, -, ⟨-, h⟩ | ⟨-, h⟩ | ⟨out, -, -, -, -, h⟩ | ⟨r, out, -, -, hk, -, h⟩ |
    ⟨f, h⟩⟩ <;> rw [h]
  · exact ⟨nofun, rfl⟩
  · exact ⟨nofun, rfl⟩
  · trivial
  · trivial
  · exact ⟨by rw [hk]; nofun, rfl⟩
  · trivial

/-! ### The composites (rule R207) -/

/-- A step that may stand before the last one of a composite: it leaves OUT_LEN however it ends. -/
structure Result.ComputesFrom (s : State) (x : Result) : Prop where
  raises : x.RaisesFrom s
  keeps : x.Leaves fun u => u.outLen = s.outLen

theorem Result.RaisesFrom.trans {s u : State} {x : Result} (hx : x.RaisesFrom u) (hlen : u.outLen = s.outLen) :
    x.RaisesFrom s := by
  cases x with
  | finish v => trivial
  | raise r v => exact ⟨hx.1, hx.2.trans hlen⟩
  | fault f => trivial

theorem Result.ComputesFrom.andThen_raises {s : State} {x : Result} {k : State → Result} (hx : x.ComputesFrom s)
    (hk : ∀ u, (k u).RaisesFrom u) : (x.andThen k).RaisesFrom s := by
  cases x with
  | finish u => exact (hk u).trans hx.keeps
  | raise r u => exact hx.raises
  | fault f => trivial

theorem Result.ComputesFrom.andThen {s : State} {x : Result} {k : State → Result} (hx : x.ComputesFrom s)
    (hk : ∀ u, (k u).ComputesFrom u) : (x.andThen k).ComputesFrom s where
  raises := hx.andThen_raises fun u => (hk u).raises
  keeps := hx.keeps.andThen fun u hu => (hk u).keeps.imp fun _ hv => hv.trans hu

/-- Such a step is a command that neither writes OBUF nor clears OUT_LEN. -/
theorem computesFrom_of_raisesFrom {i : Instr} {s : State} (hi : i.writesObuf = false) (hclear : i ≠ .clear)
    (hr : (commandBody i s).RaisesFrom s) : (commandBody i s).ComputesFrom s where
  raises := hr
  keeps := (commandBody_leaves (by rintro rfl; cases hi) (by rintro rfl; cases hi) s).imp fun _ h =>
    h.outLen_eq hi hclear

theorem compressBody_raisesFrom (s : State) : (compressBody s).RaisesFrom s :=
  (computesFrom_of_raisesFrom (i := .freq) rfl nofun (freqBody_raisesFrom s))
    |>.andThen (fun u => computesFrom_of_raisesFrom (i := .buildTree) rfl nofun (buildTreeBody_raisesFrom u))
    |>.andThen (fun u => computesFrom_of_raisesFrom (i := .deriveCodes) rfl nofun (deriveCodesBody_raisesFrom u))
    |>.andThen (fun u => computesFrom_of_raisesFrom (i := .encodeTable) rfl nofun (encodeTableBody_raisesFrom u))
    |>.andThen (fun u => computesFrom_of_raisesFrom (i := .pack) rfl nofun (packBody_raisesFrom u))
    |>.andThen_raises writeContainerBody_raisesFrom

theorem decompressBody_raisesFrom (s : State) : (decompressBody s).RaisesFrom s :=
  (computesFrom_of_raisesFrom (i := .readContainer) rfl nofun (readContainerBody_raisesFrom s))
    |>.andThen (fun u => computesFrom_of_raisesFrom (i := .decodeTable) rfl nofun (decodeTableBody_raisesFrom u))
    |>.andThen (fun u => computesFrom_of_raisesFrom (i := .rebuildTree) rfl nofun (rebuildTreeBody_raisesFrom u))
    |>.andThen_raises unpackBody_raisesFrom

theorem commandBody_raisesFrom (i : Instr) (s : State) : (commandBody i s).RaisesFrom s := by
  cases i with
  | nop => trivial
  | compress => exact compressBody_raisesFrom s
  | decompress => exact decompressBody_raisesFrom s
  | freq => exact freqBody_raisesFrom s
  | buildTree => exact buildTreeBody_raisesFrom s
  | deriveCodes => exact deriveCodesBody_raisesFrom s
  | encodeTable => exact encodeTableBody_raisesFrom s
  | pack => exact packBody_raisesFrom s
  | writeContainer => exact writeContainerBody_raisesFrom s
  | readContainer => exact readContainerBody_raisesFrom s
  | decodeTable => exact decodeTableBody_raisesFrom s
  | rebuildTree => exact rebuildTreeBody_raisesFrom s
  | unpack => exact unpackBody_raisesFrom s
  | clear => trivial

/-! ### The end of a command -/

/-- The codes of rule R220 that a command's own end reports. -/
theorem ErrorKind.code_of_command {k : ErrorKind} (h : k ≠ .illegalCommand) :
    k.code.toNat ∈ [1, 2, 3, 4, 5, 6, 9, 10, 11, 12, 13] := by
  cases k with
  | illegalCommand => exact absurd rfl h
  | _ => decide

/-- Settles O6: a body finishes, and what it left has the report it began with, or it raises one of the commands' errors. -/
theorem everyCommandFinishesOrRaises : Obligations.EveryCommandFinishesOrRaises := by
  intro i s t h
  rw [exec_eq_outcome] at h
  have hframe := commandBody_frame i s
  have hraises := commandBody_raisesFrom i s
  rcases Result.outcome_eq_next h with ⟨u, hu, rfl⟩ | ⟨r, u, hu, rfl⟩ <;> rw [hu] at hframe hraises
  · obtain ⟨_, _, _, _, _, rfl⟩ := hframe
    exact ⟨rfl, .inl ⟨rfl, rfl, rfl, rfl, rfl, rfl⟩⟩
  · obtain ⟨hkind, hlen⟩ := hraises
    have hdone : u.done = s.done := by
      obtain ⟨_, _, _, _, _, rfl⟩ := hframe
      rfl
    exact ⟨rfl, .inr ⟨rfl, hdone, ErrorKind.code_of_command hkind, hlen⟩⟩

end Sys2Proof.Machine
end

section
/-! The lifecycle of a command (rules R200 to R209, R238 and R263): a CMD write is accepted or dropped, the engine's turn runs the
decoded command or reports the illegal word, and the pending events, taken one by one, leave no command running. -/

namespace Sys2Proof.Machine

/-! ### The engine's turn -/

theorem engineTurn_of_idle {s : State} (hidle : s.seq = .idle) : engineTurn s = .next s := by
  unfold engineTurn
  rw [hidle]

theorem engineTurn_of_decode {s : State} {i : Instr} (hbusy : s.seq = .busy) (hdec : decode s.cmdWord = .ok i) :
    engineTurn s = exec i s := by
  unfold engineTurn
  rw [hbusy, hdec]

theorem engineTurn_of_illegal {s : State} {r : Illegal} (hbusy : s.seq = .busy) (hdec : decode s.cmdWord = .error r) :
    engineTurn s = execIllegal r s := by
  unfold engineTurn
  rw [hbusy, hdec]

theorem step_of_no_inputs {s : State} (h : s.inputs = []) : step s = engineTurn s := by
  unfold step
  rw [h]

theorem decodeTableWord_eq_some_iff {nbits w : Nat} {i : Instr} :
    decodeTableWord nbits w = some i ↔ decode (tableWord nbits w) = .ok i := by
  unfold decodeTableWord
  cases decode (tableWord nbits w) <;> simp

/-- Settles O3: the turn runs what the word in progress decodes to, whether it comes as an event or with none pending. -/
theorem stepRunsTheDecodedCommand : Obligations.StepRunsTheDecodedCommand := by
  refine ⟨fun s i rest hbusy hdec hin => ?_, fun s i hbusy hdec hin => ?_, fun s rest hidle hin => ?_,
    fun s hidle hin => ?_, fun s i nbits w hrow => ?_⟩
  · exact (step_of_inputs hin).trans (engineTurn_of_decode (s := { s with inputs := rest }) hbusy hdec)
  · exact (step_of_no_inputs hin).trans (engineTurn_of_decode hbusy hdec)
  · exact (step_of_inputs hin).trans (engineTurn_of_idle (s := { s with inputs := rest }) hidle)
  · exact (step_of_no_inputs hin).trans (engineTurn_of_idle hidle)
  · have hturn : step (s.withFetchWord nbits w) = engineTurn (s.accept (tableWord nbits w)) := rfl
    exact hturn.trans (engineTurn_of_decode (s.accept_seq _) (decodeTableWord_eq_some_iff.mp hrow))

/-! ### A CMD write -/

theorem commandWritesObuf_iff (w : Word) :
    commandWritesObuf w = true ↔ w ∈ [0x00000001#32, 0x00000002#32, 0x00000015#32, 0x00000023#32] := by
  constructor
  · intro h
    unfold commandWritesObuf at h
    split at h
    · next i hdec =>
      rw [decode_eq_ok_iff.mp hdec]
      revert h
      cases i <;> decide
    · cases h
  · simp only [List.mem_cons, List.not_mem_nil, or_false]
    rintro (rfl | rfl | rfl | rfl) <;> rfl

theorem commandWritesObuf_of_illegal {w : Word} {r : Illegal} (h : decode w = .error r) : commandWritesObuf w = false := by
  rw [commandWritesObuf, h]

theorem step_write_cmd {s : State} {w : Word} {rest : List Event} (hreset : s.inReset = false)
    (hin : s.inputs = .write .csr .w32 0x010 w :: rest) :
    step s = .next ((State.writeCmd w { s with inputs := rest }).answer .written) :=
  step_write_csr hreset rfl (by decide) (.inr (by decide)) hin

theorem State.writeCmd_idle {s : State} (w : Word) (h : s.seq = .idle) : s.writeCmd w = s.accept w := by
  simp [State.writeCmd, h]

theorem State.writeCmd_busy {s : State} (w : Word) (h : s.seq = .busy) : s.writeCmd w = { s with dropped := true } := by
  simp [State.writeCmd, h]

/-- Settles O4: a CMD write the block takes is `writeCmd`, and the words that clear OUT_LEN are the storing commands' words. -/
theorem commandWriteIsAcceptedOrDropped : Obligations.CommandWriteIsAcceptedOrDropped := by
  intro s w rest hreset hin
  rw [step_write_cmd hreset hin]
  refine ⟨fun hidle => ?_, fun hbusy => ?_⟩
  · simp only [State.writeCmd_idle (s := { s with inputs := rest }) w hidle, State.accept, State.answer,
      commandWritesObuf_iff]
  · rw [State.writeCmd_busy (s := { s with inputs := rest }) w hbusy]
    rfl

/-! ### Illegal words -/

/-- The words of rule R206 and their details. -/
theorem decode_illegal {w : Word} (h : 256 ≤ w.toNat ∨ w.toNat ∉ hcmdOpcodes) :
    ∃ r, decode w = .error r ∧ illegalDetail r = if 256 ≤ w.toNat then 1#8 else 2#8 := by
  rcases decode_cases w with ⟨hge, hdec⟩ | ⟨hlt, -, hdec⟩ | ⟨i, hlt, hmem, -, -⟩
  · exact ⟨_, hdec, (if_pos hge).symm⟩
  · exact ⟨_, hdec, (if_neg (Nat.not_le.mpr hlt)).symm⟩
  · exact absurd h (not_or.mpr ⟨Nat.not_le.mpr hlt, not_not.mpr hmem⟩)

/-- The end of an illegal word reports the word itself and nothing else (rules R206 and R223). -/
theorem execIllegal_eq_captures (r : Illegal) (s : State) :
    execIllegal r s = .next (s.captures 8#8 (illegalDetail r) s.cmdWord 0#3) := by
  simp [execIllegal, illegalBody, State.raise, State.captures, ErrorKind.code]

/-- Settles O5: the word is accepted without clearing OUT_LEN, and the engine's turn reports it. -/
theorem illegalWordEndsWithIllegalCommand : Obligations.IllegalWordEndsWithIllegalCommand := by
  intro s w rest hreset hidle hin hill
  obtain ⟨r, hdec, hdetail⟩ := decode_illegal hill
  have hwrite := step_write_cmd hreset hin
  rw [State.writeCmd_idle (s := { s with inputs := .engine :: rest }) w hidle] at hwrite
  refine ⟨_, hwrite, ?_⟩
  calc step ((State.accept w { s with inputs := .engine :: rest }).answer .written)
    _ = engineTurn ((State.accept w { s with inputs := rest }).answer .written) := rfl
    _ = execIllegal r ((State.accept w { s with inputs := rest }).answer .written) :=
      engineTurn_of_illegal (s := (State.accept w { s with inputs := rest }).answer .written) rfl hdec
    _ = _ := by
      rw [execIllegal_eq_captures, hdetail]
      simp [State.captures, State.accept, State.answer, commandWritesObuf_of_illegal hdec]

/-! ### The pending events -/

/-- Nothing that happens adds a pending event or takes one away. -/
theorem StepEffect.inputs_eq {s t : State} (h : StepEffect s t) : t.inputs = s.inputs := by
  cases h with
  | commandEnded _ i _ _ hexec =>
    obtain ⟨-, -, -, -, -, -, -, -, -, hinputs, -⟩ := noCommandChangesTheHostsState i s t hexec
    exact hinputs
  | illegalEnded _ r _ _ hexec => cases hexec; rfl
  | resetAsserted =>
    unfold State.assertReset State.abandonCommand
    split <;> rfl
  | _ => rfl

/-- The engine's turn leaves no command running: its end step ends it. -/
theorem engineTurn_seq {s t : State} (h : engineTurn s = .next t) : t.seq = .idle := by
  unfold engineTurn at h
  split at h
  · next hidle => cases h; exact hidle
  · split at h
    · next i _ => exact (everyCommandFinishesOrRaises i s t h).1
    · cases h; rfl

theorem core_run_succ {k : Nat} {s t : State} (h : core.run (k + 1) s = .next t) :
    ∃ u, step s = .next u ∧ core.run k u = .next t := by
  simp only [Host.Core.run] at h
  split at h
  · next u hu => exact ⟨u, hu, h⟩
  · cases h
  · cases h

/-- Settles O7: each step takes one event, and the step that finds none is the engine's turn. -/
theorem noCommandRunsForEver : Obligations.NoCommandRunsForEver := by
  intro s t h
  induction hin : s.inputs generalizing s with
  | nil =>
    rw [hin] at h
    obtain ⟨u, hstep, hrun⟩ := core_run_succ h
    cases hrun
    exact engineTurn_seq ((step_of_no_inputs hin).symm.trans hstep)
  | cons e rest ih =>
    rw [hin] at h
    obtain ⟨u, hstep, hrun⟩ := core_run_succ h
    have hu : u.inputs = rest := (happen_effect ((step_of_inputs hin).symm.trans hstep)).inputs_eq
    exact ih u (by rw [hu]; exact hrun) hu

/-! ### NOP and CLEAR -/

/-- With no flag set, VALID and the registers of rules R41 to R44, the last in the map, read 0. -/
theorem csrRead_of_valid_reset {s : State} (hvalid : s.valid = Valid.reset) {off : Nat} (hoff : 0x028 ≤ off) :
    csrRead s off = 0#32 := by
  have hreg : ∀ k, k < 0x028 → off ≠ k := by omega
  have hword : Valid.reset.word = 0#32 := rfl
  simp [csrRead, hreg, hvalid, hword]

/-- Settles O12: the two bodies are what rules R204 and R205 say, and CLEAR leaves no flag set. -/
theorem nopAndClearFinish : Obligations.NopAndClearFinish := by
  intro s
  refine ⟨rfl, fun hirq => ⟨_, rfl, ?_⟩, _, rfl, rfl, fun off => csrRead_of_valid_reset rfl⟩
  simp [State.irq, hirq]

end Sys2Proof.Machine
end

section
/-! Reset and power (rules R250, R252, R253 and R58): what an assertion does to the buffers by whether it abandons a command that
writes OBUF, and the host's accesses until the release. -/

namespace Sys2Proof.Machine

/-! ### The abandoned command (rule R253) -/

@[simp] theorem State.abandonCommand_params (s : State) : s.abandonCommand.params = s.params := by
  unfold State.abandonCommand
  split <;> rfl

@[simp] theorem State.abandonCommand_ibuf (s : State) : s.abandonCommand.ibuf = s.ibuf := by
  unfold State.abandonCommand
  split <;> rfl

@[simp] theorem State.abandonCommand_inputs (s : State) : s.abandonCommand.inputs = s.inputs := by
  unfold State.abandonCommand
  split <;> rfl

theorem State.abandonCommand_of_writesObuf {s : State} (hbusy : s.seq = .busy) (hw : commandWritesObuf s.cmdWord = true) :
    s.abandonCommand = { s with obuf := [], obufLost := some s.draws, draws := s.draws + 1 } := by
  simp [State.abandonCommand, hbusy, hw]

theorem State.abandonCommand_of_keepsObuf {s : State} (h : s.seq = .idle ∨ commandWritesObuf s.cmdWord = false) :
    s.abandonCommand = s := by
  rcases h with h | h <;> simp [State.abandonCommand, h]

/-! ### The assertion and the release -/

theorem State.assertReset_obufByte (s : State) (a : Nat) : s.assertReset.obufByte a = s.abandonCommand.obufByte a := rfl

/-- The registers an asserted reset leaves are those of rule R58 (log entry 9). -/
theorem csrRead_assertReset (s : State) (off : Nat) :
    csrRead s.assertReset off = csrRead (State.resetWith s.params) off :=
  calc csrRead s.assertReset off
    _ = csrRead (State.resetWith s.abandonCommand.params) off := rfl
    _ = csrRead (State.resetWith s.params) off := by rw [s.abandonCommand_params]

theorem State.releaseReset_of_inReset {s : State} (h : s.inReset = true) :
    s.releaseReset = { s.resetRegisters with inReset := false } :=
  if_pos h

/-! ### Accesses during reset (rule R250) -/

theorem hostRead_inReset {s : State} (h : s.inReset = true) (ap : Aperture) (width : Width) (off : Nat) :
    hostRead ap width off s = .next (s.answer .busError) :=
  if_pos h

theorem hostWrite_inReset {s : State} (h : s.inReset = true) (ap : Aperture) (width : Width) (off : Nat) (v : Word) :
    hostWrite ap width off v s = .next (s.answer .busError) :=
  if_pos h

/-! ### The obligation -/

/-- Settles O56: the assertion is `abandonCommand` and the reset values over what it left, so OBUF goes by whether the word in
progress writes it; accesses, release and power-on each have one case. -/
theorem resetAbandonsTheCommand : Obligations.ResetAbandonsTheCommand := by
  refine ⟨?assert, ?access, ?release, ?power⟩
  case assert =>
    intro s rest hin
    let u : State := { s with inputs := rest }
    refine ⟨u.assertReset, step_of_inputs hin, rfl, u.abandonCommand_inputs, u.abandonCommand_params, u.abandonCommand_ibuf,
      rfl, fun off => ?_, fun hbusy hw a => ?_, fun hkeep a => ?_⟩
    · obtain ⟨-, -, -, hreg, -⟩ := resetValuesOfTheRegisters s.params
      exact (csrRead_assertReset u off).trans (hreg off)
    · have hlost := State.abandonCommand_of_writesObuf (s := u) hbusy ((commandWritesObuf_iff s.cmdWord).mpr hw)
      rw [u.assertReset_obufByte, hlost]
      rfl
    · have hnot : s.seq = .idle ∨ commandWritesObuf s.cmdWord = false :=
        hkeep.imp_right fun hw => Bool.eq_false_of_not_eq_true (mt (commandWritesObuf_iff s.cmdWord).mp hw)
      rw [u.assertReset_obufByte, State.abandonCommand_of_keepsObuf (s := u) hnot]
      rfl
  case access =>
    rintro s ap width off v rest hreset (hin | hin) <;> rw [step_of_inputs hin]
    · exact hostRead_inReset (s := { s with inputs := rest }) hreset ap width off
    · exact hostWrite_inReset (s := { s with inputs := rest }) hreset ap width off v
  case release =>
    intro s rest hreset hin
    have hstep : step s = .next (State.releaseReset { s with inputs := rest }) := step_of_inputs hin
    rw [State.releaseReset_of_inReset (s := { s with inputs := rest }) hreset] at hstep
    exact ⟨_, hstep, rfl, rfl, rfl, rfl, fun _ => rfl, fun _ => rfl⟩
  case power =>
    intro s rest hin
    exact ⟨_, step_of_inputs hin, rfl, rfl, fun _ => ⟨rfl, rfl⟩⟩

end Sys2Proof.Machine
end
